-- ==== Sys2Proof/Word.lean ====
section
/-! DEFINITION. The core's word and byte (spec/00_scope.md R9) and its register index (R111). -/

namespace Sys2Proof

/-- A 32-bit value: register and data contents, byte addresses, the program counter (R9, R21, R24). -/
abbrev Word := BitVec 32

/-- One byte of data memory as the model lays it out (R73). -/
abbrev Byte := BitVec 8

/-- An architectural register index, `x0` to `x31` (R21, R111). -/
abbrev Reg := Fin 32

end Sys2Proof
end

