-- ==== Sys2Proof/Syntax.lean ====
section
/-! DEFINITION. The instruction set (spec/30_encoding.md R110 to R113): the opcode variants, the
instruction as syntax, the decoded record the core consumes, and the program store. -/

namespace Sys2Proof

/-- The fourteen opcode variants, in the order R112 lists them. -/
inductive Op where
  | add | sub | and | or | xor | slt | addi | lw | sw | beq | bne | jal | jalr | nop
  deriving DecidableEq, Repr

/-- An instruction: its variant with the operand fields the variant uses (R113). -/
inductive Instr where
  /-- `ADD rd,rs1,rs2` (R140). -/
  | add  (rd rs1 rs2 : Reg)
  /-- `SUB rd,rs1,rs2` (R141). -/
  | sub  (rd rs1 rs2 : Reg)
  /-- `AND rd,rs1,rs2` (R142). -/
  | and  (rd rs1 rs2 : Reg)
  /-- `OR rd,rs1,rs2` (R143). -/
  | or   (rd rs1 rs2 : Reg)
  /-- `XOR rd,rs1,rs2` (R144). -/
  | xor  (rd rs1 rs2 : Reg)
  /-- `SLT rd,rs1,rs2` (R145). -/
  | slt  (rd rs1 rs2 : Reg)
  /-- `ADDI rd,rs1,imm` (R146). -/
  | addi (rd rs1 : Reg) (imm : Word)
  /-- `LW rd,imm(rs1)` (R161). -/
  | lw   (rd rs1 : Reg) (imm : Word)
  /-- `SW rs2,imm(rs1)`: `rs1` is the base, `rs2` the store data (R162). -/
  | sw   (rs1 rs2 : Reg) (imm : Word)
  /-- `BEQ rs1,rs2,imm` (R170). -/
  | beq  (rs1 rs2 : Reg) (imm : Word)
  /-- `BNE rs1,rs2,imm` (R171). -/
  | bne  (rs1 rs2 : Reg) (imm : Word)
  /-- `JAL rd,imm`: `rd` is carried and ignored (R172). -/
  | jal  (rd : Reg) (imm : Word)
  /-- `JALR`: reserved; the fields a parser would fill are carried and ignored (R122, R173). -/
  | jalr (rd rs1 : Reg) (imm : Word)
  /-- `NOP` (R147). -/
  | nop
  deriving DecidableEq, Repr

/-- The decoded record the program store holds and a station points to (R111). Its `text` field is
used by no rule and is left out, as R111 says. -/
structure Record where
  pc  : Word
  op  : Op
  rd  : Reg
  rs1 : Reg
  rs2 : Reg
  imm : Word
  deriving DecidableEq, Repr

/-- What the host put at one address of the program store: a decoded record, or a word that its
loader could not decode (R121), kept so that the first step refuses the program by name and address. -/
inductive Slot where
  | record  (r : Record)
  | unknown (w : Word)
  deriving DecidableEq, Repr

/-- The program store `PROGRAM` (R35, R70): byte address and contents. -/
abbrev Program := List (Word × Slot)

end Sys2Proof
end

