-- ==== Sys2Proof/Config.lean ====
section
/-! DEFINITION. The implementation parameters (spec/00_scope.md R6, R7) with their defaults. The sizes for
which the spec has rules at one value alone are fields too, and `Config.sizesFixed` admits that value
only (R8, log 12). No parameter is a free value: the spec fixes every result
(spec/93_implementation_defined.md, end of part 1). -/

namespace Sys2Proof

/-- Data memory as bytes by byte address (R34, R73): addresses strictly rising, and no byte equal to
what an unlisted address reads as. -/
abbrev Memory := List Host.Cell

/-- `LOAD_GATE` (R7, R80). -/
inductive LoadGate where
  | olderStores | none
  deriving DecidableEq, Repr

/-- `JALR_MODE` (R7, R122). -/
inductive JalrMode where
  | nop | refuse
  deriving DecidableEq, Repr

/-- The parameters of R6 and R7 but `PROGRAM`, under the spec's names. -/
structure Config where
  /-- `XLEN`: 32 alone is admitted, the width every rule is written for (R9, R21, log 12). -/
  xlen        : Nat := 32
  /-- `NREG`: 32 alone is admitted, the number of registers of R21 and R115 (log 12). -/
  nreg        : Nat := 32
  robSize     : Nat := 32
  width       : Nat := 2
  aluRs       : Nat := 8
  lsRs        : Nat := 4
  /-- `SETS`, `WAYS`, `BLOCK`: fixed at the defaults by R8. -/
  sets        : Nat := 32
  ways        : Nat := 2
  block       : Nat := 64
  l1iHit      : Nat := 1
  l1dHit      : Nat := 2
  missPenalty : Nat := 10
  /-- `GHR_BITS`, `PHT_SIZE`: fixed at the defaults by R8. -/
  ghrBits     : Nat := 10
  phtSize     : Nat := 1024
  latAlu      : Nat := 1
  latLoad     : Nat := 2
  latStore    : Nat := 1
  latBranch   : Nat := 1
  memWords    : Nat := 65536
  commitWidth : Nat := 1
  loadGate    : LoadGate := .olderStores
  jalrMode    : JalrMode := .nop
  resetPc     : Word := 0
  firstTag    : Nat := 1
  /-- `MEM_INIT`, as the bytes that are not 0 (log 6). -/
  memInit     : Memory := []
  deriving DecidableEq, Repr

/-- Every parameter at the default R6 and R7 give. -/
def Config.default : Config := {}

end Sys2Proof
end

