-- ==== Sys2Proof/WellFormed.lean ====
section
/-! DEFINITION. What is well formed: a configuration (spec/00_scope.md R8), a decoded record and a
program store (spec/30_encoding.md R115), a memory (the canonical form), and an instruction that has a
word form (R118, R120). -/

namespace Sys2Proof

/-- What an address of data memory that the list does not name reads as: the default `MEM_INIT` is 0
everywhere (R7, R44, log 6). -/
def unlistedByte : Byte := 0

/-- The canonical form of a sparse map whose unlisted keys hold `dflt`: strictly rising keys, no entry
equal to `dflt`. -/
def sparseWf {α : Type} [DecidableEq α] (dflt : α) (m : List (Nat × α)) : Bool :=
  decide (m.Pairwise fun x y => x.1 < y.1) && m.all fun c => decide (c.2 ≠ dflt)

/-- The canonical form of memory: strictly rising addresses, no entry equal to `unlistedByte`. -/
def Memory.wf (m : Memory) : Bool := sparseWf unlistedByte m

/-- Every listed byte lies in `0 .. 4 * MEM_WORDS - 1` (R71). -/
def Memory.inRange (m : Memory) (memWords : Nat) : Bool :=
  m.all fun c => decide (c.1 < 4 * memWords)

/-- Sizes of the structures (R8). -/
def Config.sizesOk (c : Config) : Bool :=
  decide (1 ≤ c.robSize) && decide (1 ≤ c.width) && decide (1 ≤ c.aluRs) && decide (1 ≤ c.lsRs)

/-- `1 <= COMMIT_WIDTH <= WIDTH` (R8). -/
def Config.commitWidthOk (c : Config) : Bool :=
  decide (1 ≤ c.commitWidth) && decide (c.commitWidth ≤ c.width)

/-- "every latency >= 1" (R8): the four execute latencies and the two hit latencies (log 13). -/
def Config.latenciesOk (c : Config) : Bool :=
  decide (1 ≤ c.latAlu) && decide (1 ≤ c.latLoad) && decide (1 ≤ c.latStore) &&
    decide (1 ≤ c.latBranch) && decide (1 ≤ c.l1iHit) && decide (1 ≤ c.l1dHit)

/-- `1 <= MEM_WORDS <= 2^30` (R8). -/
def Config.memWordsOk (c : Config) : Bool :=
  decide (1 ≤ c.memWords) && decide (c.memWords ≤ 2 ^ 30)

/-- `RESET_PC` is a multiple of 4 (R7). -/
def Config.resetPcOk (c : Config) : Bool := decide (c.resetPc.toNat % 4 = 0)

/-- `MEM_INIT` is a memory: canonical, and inside `MEM_WORDS` (log 13). -/
def Config.memInitOk (c : Config) : Bool := c.memInit.wf && c.memInit.inRange c.memWords

/-- The sizes the rules are written for: the cache geometry and the predictor sizes, which R8 fixes at the
defaults, and 32 registers of 32 bits, as R9, R21 and R115 have them (log 12). -/
def Config.sizesFixed (c : Config) : Bool :=
  decide (c.xlen = 32) && decide (c.nreg = 32) && decide (c.sets = 32) && decide (c.ways = 2) &&
    decide (c.block = 64) && decide (c.ghrBits = 10) && decide (c.phtSize = 1024)

/-- The constraints a configuration must meet (R8). -/
def Config.wf (c : Config) : Bool :=
  c.sizesOk && c.commitWidthOk && c.latenciesOk && c.memWordsOk && c.resetPcOk && c.memInitOk &&
    c.sizesFixed

/-- The fields the format of `op` does not use are 0, except `rd` of `JAL` (R113, R115); `JALR` carries
`rd`, `rs1` and `imm` (R122). -/
def Record.unusedZero (r : Record) : Bool :=
  match r.op with
  | .add | .sub | .and | .or | .xor | .slt => r.imm == 0
  | .addi | .lw | .jalr => r.rs2 == 0
  | .sw | .beq | .bne => r.rd == 0
  | .jal => r.rs1 == 0 && r.rs2 == 0
  | .nop => r.rd == 0 && r.rs1 == 0 && r.rs2 == 0 && r.imm == 0

/-- A record is well formed at the key `a` (R115). That `op` is one of the 14 variants, that the
register fields are in 0..31 and that `imm` is a 32-bit value hold by its type. -/
def Record.wf (r : Record) (a : Word) : Bool :=
  decide (a.toNat % 4 = 0) && r.pc == a && r.unusedZero

/-- A slot holds a record that is well formed and, under `JALR_MODE = refuse`, is no `JALR` (R115). -/
def Slot.wf (mode : JalrMode) (a : Word) : Slot → Bool
  | .record r => r.wf a && !(mode == .refuse && r.op == .jalr)
  | .unknown _ => false

/-- No two entries have one key: the keys rise (R35, "addressable map"). -/
def Program.keysRise (p : Program) : Bool := decide (p.Pairwise fun x y => x.1.toNat < y.1.toNat)

/-- A well-formed program store (R115). -/
def Program.wf (mode : JalrMode) (p : Program) : Bool :=
  Program.keysRise p && p.all fun e => e.2.wf mode e.1

/-- `imm` fits `n` bits two's complement (R118). -/
def fitsSigned (n : Nat) (imm : Word) : Bool :=
  decide (-2 ^ (n - 1) ≤ imm.toInt) && decide (imm.toInt < 2 ^ (n - 1))

/-- `imm` is even (R118, formats B and J). -/
def isEven (imm : Word) : Bool := imm.getLsbD 0 == false

/-- The instruction has a word of its own: `imm` inside the range of its format, even in formats B and
J (R118), and not `ADDI x0,x0,0`, whose word spells `NOP` (R120). -/
def Instr.hasWordForm : Instr → Bool
  | .addi rd rs1 imm => fitsSigned 12 imm && !(rd == 0 && rs1 == 0 && imm == 0)
  | .lw _ _ imm | .sw _ _ imm | .jalr _ _ imm => fitsSigned 12 imm
  | .beq _ _ imm | .bne _ _ imm => fitsSigned 13 imm && isEven imm
  | .jal _ imm => fitsSigned 21 imm && isEven imm
  | .add _ _ _ | .sub _ _ _ | .and _ _ _ | .or _ _ _ | .xor _ _ _ | .slt _ _ _ | .nop => true

end Sys2Proof
end

