-- ==== Sys2Proof/Decode.lean ====
section
/-! DEFINITION. Decoding and encoding: between an instruction and its decoded record
(spec/30_encoding.md R111, R113), and between an instruction and the optional 32-bit word form
(R117 to R121; general knowledge of RV32I as the spec says, log 4). -/

namespace Sys2Proof

/-! ## Records -/

/-- The instruction a record spells: the fields its format uses (R113). -/
def Record.instr (r : Record) : Instr :=
  match r.op with
  | .add => .add r.rd r.rs1 r.rs2
  | .sub => .sub r.rd r.rs1 r.rs2
  | .and => .and r.rd r.rs1 r.rs2
  | .or => .or r.rd r.rs1 r.rs2
  | .xor => .xor r.rd r.rs1 r.rs2
  | .slt => .slt r.rd r.rs1 r.rs2
  | .addi => .addi r.rd r.rs1 r.imm
  | .lw => .lw r.rd r.rs1 r.imm
  | .sw => .sw r.rs1 r.rs2 r.imm
  | .beq => .beq r.rs1 r.rs2 r.imm
  | .bne => .bne r.rs1 r.rs2 r.imm
  | .jal => .jal r.rd r.imm
  | .jalr => .jalr r.rd r.rs1 r.imm
  | .nop => .nop

/-- The record of an instruction that stands at `pc`; the fields its format does not use are 0
(R111, R113). -/
def Instr.record (pc : Word) : Instr → Record
  | .add rd rs1 rs2 => ⟨pc, .add, rd, rs1, rs2, 0⟩
  | .sub rd rs1 rs2 => ⟨pc, .sub, rd, rs1, rs2, 0⟩
  | .and rd rs1 rs2 => ⟨pc, .and, rd, rs1, rs2, 0⟩
  | .or rd rs1 rs2 => ⟨pc, .or, rd, rs1, rs2, 0⟩
  | .xor rd rs1 rs2 => ⟨pc, .xor, rd, rs1, rs2, 0⟩
  | .slt rd rs1 rs2 => ⟨pc, .slt, rd, rs1, rs2, 0⟩
  | .addi rd rs1 imm => ⟨pc, .addi, rd, rs1, 0, imm⟩
  | .lw rd rs1 imm => ⟨pc, .lw, rd, rs1, 0, imm⟩
  | .sw rs1 rs2 imm => ⟨pc, .sw, 0, rs1, rs2, imm⟩
  | .beq rs1 rs2 imm => ⟨pc, .beq, 0, rs1, rs2, imm⟩
  | .bne rs1 rs2 imm => ⟨pc, .bne, 0, rs1, rs2, imm⟩
  | .jal rd imm => ⟨pc, .jal, rd, 0, 0, imm⟩
  | .jalr rd rs1 imm => ⟨pc, .jalr, rd, rs1, 0, imm⟩
  | .nop => ⟨pc, .nop, 0, 0, 0, 0⟩

/-- The instruction of variant `op` with destination `rd` and every other field absent: all that Commit
knows of the head, whose entry keeps `op` and `rd` only (R27, log 17). -/
def Op.withDest (op : Op) (rd : Reg) : Instr := Record.instr ⟨0, op, rd, 0, 0, 0⟩

/-! ## Decoding words -/

/-- Why a word is refused, by name (R121). -/
inductive DecodeError where
  /-- The word matches no row of R119. -/
  | noRow (w : Word)
  deriving DecidableEq, Repr

/-- `opcode`, bits 6..0 (R117). -/
def opcodeOf (w : Word) : BitVec 7 := w.extractLsb' 0 7
/-- `funct3`, bits 14..12 (R117). -/
def funct3Of (w : Word) : BitVec 3 := w.extractLsb' 12 3
/-- `funct7`, bits 31..25 (R117). -/
def funct7Of (w : Word) : BitVec 7 := w.extractLsb' 25 7
/-- `rd`, bits 11..7 (R117). -/
def rdOf (w : Word) : Reg := (w.extractLsb' 7 5).toFin
/-- `rs1`, bits 19..15 (R117). -/
def rs1Of (w : Word) : Reg := (w.extractLsb' 15 5).toFin
/-- `rs2`, bits 24..20 (R117). -/
def rs2Of (w : Word) : Reg := (w.extractLsb' 20 5).toFin

/-- Formats I, L, JR: `imm = sext_12(word[31:20])` (R118). -/
def immIOf (w : Word) : Word := (w.extractLsb' 20 12).signExtend 32
/-- Format S: `imm = sext_12(word[31:25] ++ word[11:7])` (R118). -/
def immSOf (w : Word) : Word := (w.extractLsb' 25 7 ++ w.extractLsb' 7 5).signExtend 32
/-- Format B: `imm = sext_13(word[31] ++ word[7] ++ word[30:25] ++ word[11:8] ++ 0)` (R118). -/
def immBOf (w : Word) : Word :=
  (w.extractLsb' 31 1 ++ w.extractLsb' 7 1 ++ w.extractLsb' 25 6 ++ w.extractLsb' 8 4 ++
    (0 : BitVec 1)).signExtend 32
/-- Format J: `imm = sext_21(word[31] ++ word[19:12] ++ word[20] ++ word[30:21] ++ 0)` (R118). -/
def immJOf (w : Word) : Word :=
  (w.extractLsb' 31 1 ++ w.extractLsb' 12 8 ++ w.extractLsb' 20 1 ++ w.extractLsb' 21 10 ++
    (0 : BitVec 1)).signExtend 32

/-- Format R: `funct7` and `funct3` choose the variant (R117). -/
def decodeR (w : Word) : Option Instr :=
  if funct7Of w = 0b0000000#7 then
    if funct3Of w = 0b000#3 then some (.add (rdOf w) (rs1Of w) (rs2Of w))
    else if funct3Of w = 0b010#3 then some (.slt (rdOf w) (rs1Of w) (rs2Of w))
    else if funct3Of w = 0b100#3 then some (.xor (rdOf w) (rs1Of w) (rs2Of w))
    else if funct3Of w = 0b110#3 then some (.or (rdOf w) (rs1Of w) (rs2Of w))
    else if funct3Of w = 0b111#3 then some (.and (rdOf w) (rs1Of w) (rs2Of w))
    else none
  else if funct7Of w = 0b0100000#7 ∧ funct3Of w = 0b000#3 then
    some (.sub (rdOf w) (rs1Of w) (rs2Of w))
  else none

/-- The decoder of the word form, total: the row of R119 the word matches, NOP tried first (R120);
`none` where no row matches. -/
def decode (w : Word) : Option Instr :=
  if w = 0x00000013#32 then some .nop
  else if opcodeOf w = 0b0110011#7 then decodeR w
  else if opcodeOf w = 0b0010011#7 then
    if funct3Of w = 0b000#3 then some (.addi (rdOf w) (rs1Of w) (immIOf w)) else none
  else if opcodeOf w = 0b0000011#7 then
    if funct3Of w = 0b010#3 then some (.lw (rdOf w) (rs1Of w) (immIOf w)) else none
  else if opcodeOf w = 0b1100111#7 then
    if funct3Of w = 0b000#3 then some (.jalr (rdOf w) (rs1Of w) (immIOf w)) else none
  else if opcodeOf w = 0b0100011#7 then
    if funct3Of w = 0b010#3 then some (.sw (rs1Of w) (rs2Of w) (immSOf w)) else none
  else if opcodeOf w = 0b1100011#7 then
    if funct3Of w = 0b000#3 then some (.beq (rs1Of w) (rs2Of w) (immBOf w))
    else if funct3Of w = 0b001#3 then some (.bne (rs1Of w) (rs2Of w) (immBOf w))
    else none
  else if opcodeOf w = 0b1101111#7 then some (.jal (rdOf w) (immJOf w))
  else none

/-- `decode`, naming the refusal (R121). -/
def decodeOrName (w : Word) : Except DecodeError Instr :=
  match decode w with
  | some i => .ok i
  | none => .error (.noRow w)

/-- One row of R119. -/
structure MaskMatch where
  op    : Op
  mask  : Word
  value : Word
  deriving DecidableEq, Repr

/-- The mask and match table of R119, in its order. -/
def maskTable : List MaskMatch :=
  [⟨.nop, 0xFFFFFFFF, 0x00000013⟩, ⟨.add, 0xFE00707F, 0x00000033⟩, ⟨.sub, 0xFE00707F, 0x40000033⟩,
   ⟨.slt, 0xFE00707F, 0x00002033⟩, ⟨.xor, 0xFE00707F, 0x00004033⟩, ⟨.or, 0xFE00707F, 0x00006033⟩,
   ⟨.and, 0xFE00707F, 0x00007033⟩, ⟨.addi, 0x0000707F, 0x00000013⟩, ⟨.lw, 0x0000707F, 0x00002003⟩,
   ⟨.sw, 0x0000707F, 0x00002023⟩, ⟨.beq, 0x0000707F, 0x00000063⟩, ⟨.bne, 0x0000707F, 0x00001063⟩,
   ⟨.jalr, 0x0000707F, 0x00000067⟩, ⟨.jal, 0x0000007F, 0x0000006F⟩]

/-- The first row of R119 that the word matches: "a word `w` spells a variant when `w & mask = match`". -/
def spelledOp (w : Word) : Option Op :=
  (maskTable.find? fun m => w &&& m.mask == m.value).map MaskMatch.op

/-! ## Encoding words -/

/-- A register field. -/
def regBits (r : Reg) : BitVec 5 := BitVec.ofFin r

/-- Format R (R117). -/
def encodeR (funct7 : BitVec 7) (funct3 : BitVec 3) (rd rs1 rs2 : Reg) : Word :=
  funct7 ++ regBits rs2 ++ regBits rs1 ++ funct3 ++ regBits rd ++ 0b0110011#7

/-- Formats I, L and JR (R117). -/
def encodeI (opcode : BitVec 7) (funct3 : BitVec 3) (rd rs1 : Reg) (imm : Word) : Word :=
  imm.extractLsb' 0 12 ++ regBits rs1 ++ funct3 ++ regBits rd ++ opcode

/-- Format S (R117). -/
def encodeS (rs1 rs2 : Reg) (imm : Word) : Word :=
  imm.extractLsb' 5 7 ++ regBits rs2 ++ regBits rs1 ++ 0b010#3 ++ imm.extractLsb' 0 5 ++ 0b0100011#7

/-- Format B (R117). -/
def encodeB (funct3 : BitVec 3) (rs1 rs2 : Reg) (imm : Word) : Word :=
  imm.extractLsb' 12 1 ++ imm.extractLsb' 5 6 ++ regBits rs2 ++ regBits rs1 ++ funct3 ++
    imm.extractLsb' 1 4 ++ imm.extractLsb' 11 1 ++ 0b1100011#7

/-- Format J (R117). -/
def encodeJ (rd : Reg) (imm : Word) : Word :=
  imm.extractLsb' 20 1 ++ imm.extractLsb' 1 10 ++ imm.extractLsb' 11 1 ++ imm.extractLsb' 12 8 ++
    regBits rd ++ 0b1101111#7

/-- The word of an instruction, meant for those with `hasWordForm` (R117, R118). -/
def encode : Instr → Word
  | .add rd rs1 rs2 => encodeR 0b0000000 0b000 rd rs1 rs2
  | .sub rd rs1 rs2 => encodeR 0b0100000 0b000 rd rs1 rs2
  | .and rd rs1 rs2 => encodeR 0b0000000 0b111 rd rs1 rs2
  | .or rd rs1 rs2 => encodeR 0b0000000 0b110 rd rs1 rs2
  | .xor rd rs1 rs2 => encodeR 0b0000000 0b100 rd rs1 rs2
  | .slt rd rs1 rs2 => encodeR 0b0000000 0b010 rd rs1 rs2
  | .addi rd rs1 imm => encodeI 0b0010011 0b000 rd rs1 imm
  | .lw rd rs1 imm => encodeI 0b0000011 0b010 rd rs1 imm
  | .sw rs1 rs2 imm => encodeS rs1 rs2 imm
  | .beq rs1 rs2 imm => encodeB 0b000 rs1 rs2 imm
  | .bne rs1 rs2 imm => encodeB 0b001 rs1 rs2 imm
  | .jal rd imm => encodeJ rd imm
  | .jalr rd rs1 imm => encodeI 0b1100111 0b000 rd rs1 imm
  | .nop => 0x00000013

/-- The word form of an instruction where it has one (R118). -/
def wordOf (i : Instr) : Option Word := if i.hasWordForm then some (encode i) else none

/-! ## The loader -/

/-- The slot a loader makes of the word at `pc`: its record, or the word it could not decode (R121). -/
def slotOfWord (pc w : Word) : Slot :=
  match decode w with
  | some i => .record (i.record pc)
  | none => .unknown w

/-- A word-form program laid out from `base`, one word per 4 bytes (R111, R117). -/
def Program.ofWords (base : Word) : List Word → Program
  | [] => []
  | w :: ws => (base, slotOfWord base w) :: Program.ofWords (base + 4) ws

/-- A program of instructions laid out from `base`, one record per 4 bytes (R111). -/
def Program.ofInstrs (base : Word) : List Instr → Program
  | [] => []
  | i :: is => (base, .record (i.record base)) :: Program.ofInstrs (base + 4) is

/-- `PROGRAM(a)`: the record stored at byte address `a`, or nothing (R35). -/
def Program.lookup (a : Word) : Program → Option Record
  | [] => none
  | (k, .record r) :: p => if k = a then some r else Program.lookup a p
  | (k, .unknown _) :: p => if k = a then none else Program.lookup a p

/-- The store with `slot` at `a`, keys rising. -/
def Program.place (a : Word) (slot : Slot) : Program → Program
  | [] => [(a, slot)]
  | (k, x) :: p =>
    if a.toNat < k.toNat then (a, slot) :: (k, x) :: p
    else if a = k then (a, slot) :: p
    else (k, x) :: Program.place a slot p

/-- What the decoder reads from a table word of `nbits` bits: the row's bits, every bit above them 0. -/
def decodeTableWord (nbits w : Nat) : Option Instr := decode (BitVec.ofNat 32 (w % 2 ^ nbits))

end Sys2Proof
end

