-- ==== Sys2Proof/Machine/State.lean ====
section
/-! DEFINITION. The state of the core as plain data (spec/10_state.md R20 to R44), the reasons a step
or a meaning can stop, and the state after reset. -/

namespace Sys2Proof.Machine

/-- A model fault (R326): the condition on which the spec stops the machine. It is latched in
`State.fault` when the instruction reaches Commit (R262), and the sequential reading of a `LW` or `SW`
(`exec` in stage `reference`) ends in it (R161, R162, R190). Safe: the machine stops. -/
inductive Fault where
  /-- Raised by `LW` and `SW` for an address with `addr[1:0] != 0`; records the instruction's address
  and the effective address (R326). Safe. -/
  | memMisaligned (pc addr : Word)
  /-- Raised by `LW` and `SW` for an aligned address outside data memory (R326). Safe. -/
  | memOutOfRange (pc addr : Word)
  deriving DecidableEq, Repr

/-- The refusals before a run (R329), and the host's name for an instruction without a meaning. -/
inductive Refusal where
  /-- The host's: an instruction the model has no meaning for. Raised by no arm of this model. Safe. -/
  | notModelled (mnemonic : String)
  /-- Raised by `step`: a parameter breaks a constraint of R8, or a size is one the spec has no rule for
  (log 12). Safe. -/
  | badConfiguration
  /-- Raised by `step`: the keys of the program store do not rise, so it is no map (R35, R115). Safe. -/
  | keysNotRising
  /-- Raised by `step`: the record at `a` is not well formed (R115). Safe. -/
  | illFormedRecord (a : Word)
  /-- Raised by `step`: the word `w` at `a` spells no variant (R121). Safe. -/
  | unknownWord (a w : Word)
  /-- Raised by `step`: the program holds a `JALR` at `a` under `JALR_MODE = refuse`; and by the
  sequential reading of such a `JALR` (R115, R122). Safe. -/
  | jalrReserved (a : Word)
  deriving DecidableEq, Repr

/-- An entry of the register alias table (R23). -/
inductive RatEntry where
  | architectural
  | renamed (tag : Nat)
  deriving DecidableEq, Repr

/-- A reorder-buffer entry (R27). -/
structure RobEntry where
  tag    : Nat
  op     : Op
  rd     : Reg
  pc     : Word
  ready  : Bool
  result : Word
  pred   : Bool
  target : Word
  deriving DecidableEq, Repr

/-- A reservation station (R29); `none` in `qj`, `qk` is the sentinel, in `ea` it is `unknown`. -/
structure Station where
  busy  : Bool
  op    : Op
  vj    : Word
  vk    : Word
  qj    : Option Nat
  qk    : Option Nat
  dest  : Nat
  rem   : Nat
  total : Nat
  instr : Record
  ea    : Option Word
  deriving DecidableEq, Repr

/-- A station that holds nothing; only `busy` has a meaning (R29, log 7). -/
def Station.idle : Station :=
  { busy := false, op := .nop, vj := 0, vk := 0, qj := none, qk := none, dest := 0, rem := 0,
    total := 0, instr := ⟨0, .nop, 0, 0, 0, 0⟩, ea := none }

/-- The two station pools (R29). -/
inductive PoolId where
  | alu | ls
  deriving DecidableEq, Repr

/-- The kind of a load/store queue entry (R31). -/
inductive LsqKind where
  | load | store
  deriving DecidableEq, Repr

/-- A load/store queue entry (R31); `none` in `addr`, `data` is `unknown`. -/
structure LsqEntry where
  tag      : Nat
  kind     : LsqKind
  addr     : Option Word
  data     : Option Word
  memReady : Bool
  deriving DecidableEq, Repr

/-- A cache way (R32, R302). -/
structure Way where
  valid : Bool
  tag   : BitVec 21
  lru   : Nat
  dirty : Bool
  deriving DecidableEq, Repr

/-- The two ways of a set (R32). -/
structure CacheSet where
  way0 : Way
  way1 : Way
  deriving DecidableEq, Repr

/-- A cache controller: tags and bookkeeping only (R32, R300). -/
structure Cache where
  sets       : Vector CacheSet 32
  lruCounter : Nat
  accesses   : Nat
  hits       : Nat
  misses     : Nat
  deriving DecidableEq, Repr

/-- Weakly not taken: the reset value of every counter (R290, R298), and what a counter that
`Predictor.pht` does not list holds. -/
def weaklyNotTaken : BitVec 2 := 1

/-- The gshare predictor (R33, R290). `pht` lists the counters that differ from `weaklyNotTaken`, by
rising index. -/
structure Predictor where
  ghr : BitVec 10
  pht : List (Nat × BitVec 2)
  deriving DecidableEq, Repr

/-- `occ_sum` and `occ_max` of one structure (R36, R332). -/
structure Occupancy where
  sum : Nat
  max : Nat
  deriving DecidableEq, Repr

/-- The counters (R36, R330) and the ghost count `discarded` of R41 I7 (log 14). The caches' own
counters are in `Cache`. -/
structure Counters where
  cycle     : Nat
  committed : Nat
  bpTotal   : Nat
  bpCorrect : Nat
  flushes   : Nat
  discarded : Nat
  occRob    : Occupancy
  occAlu    : Occupancy
  occLs     : Occupancy
  occLsq    : Occupancy
  deriving DecidableEq, Repr

/-- A log event (R335). -/
inductive LogEvent where
  | mispredict (cycle : Nat) (pc target : Word)
  | fault (cycle : Nat) (f : Fault)
  deriving DecidableEq, Repr

/-- Which reading of an instruction `exec` performs (log 2): its architectural effect in the sequential
reference (R190), or its part in one stage of the cycle: Issue into the station `k` of its pool
(R215), completion in the station `k` of `pool` (R245), or commit as the ROB head (R270). Between steps
it is `reference`. -/
inductive Stage where
  | reference
  | issue (k : Nat)
  | execute (pool : PoolId) (k : Nat)
  | commit
  deriving DecidableEq, Repr

/-- The complete state of the core (R20), with the parameters (R35, R43, log 1) and the model's own
fields `log`, `stage` and `counters.discarded`. -/
structure State where
  /-- The parameters (R6, R7). -/
  cfg      : Config
  /-- The program store `PROGRAM` (R35). -/
  program  : Program
  /-- The committed register file (R21). -/
  arf      : Vector Word 32
  /-- The register alias table (R23). -/
  rat      : Vector RatEntry 32
  /-- The fetch program counter (R24). -/
  pc       : Word
  /-- The next tag (R26). -/
  nextTag  : Nat
  /-- The reorder buffer, head first (R28). -/
  rob      : List RobEntry
  /-- The ALU pool by index (R29). -/
  alu      : List Station
  /-- The load/store pool by index (R29). -/
  ls       : List Station
  /-- The load/store queue, head first (R31). -/
  lsq      : List LsqEntry
  /-- The instruction cache controller (R32). -/
  l1i      : Cache
  /-- The data cache controller (R32). -/
  l1d      : Cache
  /-- `GHR` and `PHT` (R33). -/
  bp       : Predictor
  /-- Data memory (R34). -/
  mem      : Memory
  /-- The counters (R36). -/
  counters : Counters
  /-- The model-fault latch (R37). -/
  fault    : Option Fault
  /-- The log events so far, oldest first (R335). -/
  log      : List LogEvent
  /-- The reading `exec` performs (log 2). -/
  stage    : Stage
  deriving DecidableEq, Repr

/-- An invalid way (R44). -/
def Way.invalid : Way := { valid := false, tag := 0, lru := 0, dirty := false }

/-- A cache after reset (R44). -/
def Cache.reset : Cache :=
  { sets := Vector.replicate 32 ⟨.invalid, .invalid⟩, lruCounter := 0, accesses := 0, hits := 0, misses := 0 }

/-- The predictor after reset: `GHR = 0`, every counter weakly not taken (R44, R290). -/
def Predictor.reset : Predictor := { ghr := 0, pht := [] }

/-- Every counter 0 (R44). -/
def Counters.reset : Counters :=
  { cycle := 0, committed := 0, bpTotal := 0, bpCorrect := 0, flushes := 0, discarded := 0,
    occRob := ⟨0, 0⟩, occAlu := ⟨0, 0⟩, occLs := ⟨0, 0⟩, occLsq := ⟨0, 0⟩ }

/-- The reset state under the parameters `cfg` and the program store `program` (R44, R350). -/
def State.resetWith (cfg : Config) (program : Program) : State :=
  { cfg := cfg
    program := program
    arf := Vector.replicate 32 0
    rat := Vector.replicate 32 .architectural
    pc := cfg.resetPc
    nextTag := cfg.firstTag
    rob := []
    alu := List.replicate cfg.aluRs .idle
    ls := List.replicate cfg.lsRs .idle
    lsq := []
    l1i := .reset
    l1d := .reset
    bp := .reset
    mem := cfg.memInit
    counters := .reset
    fault := none
    log := []
    stage := .reference }

/-- The machine right after reset with the default parameters and no program supplied (R7, R350, log 3). -/
def State.reset : State := State.resetWith Config.default []

end Sys2Proof.Machine
end

