-- ==== Sys2Proof/Machine/Flags.lean ====
section
/-! DEFINITION. The core has no flags, condition codes or predicates (spec/10_state.md R38): no
instruction sets or reads one. What stands here is what takes their place, the conditions computed
from two register values: the branch conditions (spec/42_control_transfer.md R170, R171) and the signed
comparison of `SLT` (spec/40_int_alu.md R145). -/

namespace Sys2Proof.Machine

/-- `BEQ` is taken when the comparands are equal in all 32 bits (R170). -/
def takenBeq (vj vk : Word) : Bool := vj == vk

/-- `BNE` is taken when they differ (R171). -/
def takenBne (vj vk : Word) : Bool := vj != vk

/-- `signed(vj) < signed(vk)` (R145). -/
def signedLess (vj vk : Word) : Bool := decide (vj.toInt < vk.toInt)

/-- A truth value as a 32-bit result: 1 or 0 (R145, R240). -/
def bitWord (b : Bool) : Word := if b then 1 else 0

end Sys2Proof.Machine
end

