-- ==== Sys2Proof/Machine/Operands.lean ====
section
/-! DEFINITION. Operands: the attributes of each variant (spec/30_encoding.md R116), the operand slots
(spec/51_issue_rename.md R205), register access (spec/10_state.md R22), the rename of a source (R206)
and the effective address (spec/41_load_store.md R160). -/

namespace Sys2Proof

/-- The op classes (R116). -/
inductive OpClass where
  | alu | load | store | branch
  deriving DecidableEq, Repr

/-- The number of a variant where one is wanted: its place in the list of R112. -/
def Op.number : Op → Nat
  | .add => 0 | .sub => 1 | .and => 2 | .or => 3 | .xor => 4 | .slt => 5 | .addi => 6
  | .lw => 7 | .sw => 8 | .beq => 9 | .bne => 10 | .jal => 11 | .jalr => 12 | .nop => 13

/-- The class of a variant (R116). -/
def Op.opClass : Op → OpClass
  | .add | .sub | .and | .or | .xor | .slt | .addi | .nop | .jalr => .alu
  | .lw => .load
  | .sw => .store
  | .beq | .bne | .jal => .branch

/-- The execute latency of a class (R116, R208). -/
def Op.latency (c : Config) (o : Op) : Nat :=
  match o.opClass with
  | .alu => c.latAlu
  | .load => c.latLoad
  | .store => c.latStore
  | .branch => c.latBranch

/-- The station pool of a variant: "LW/SW → LS pool, otherwise ALU pool" (R116, R202). -/
def Op.pool : Op → Machine.PoolId
  | .lw | .sw => .ls
  | .add | .sub | .and | .or | .xor | .slt | .addi | .beq | .bne | .jal | .jalr | .nop => .alu

/-- `writes_reg` (R116). -/
def Op.writesReg : Op → Bool
  | .add | .sub | .and | .or | .xor | .slt | .addi | .lw => true
  | .sw | .beq | .bne | .jal | .jalr | .nop => false

/-- The kind of the LSQ entry of a memory instruction (R116, R209). -/
def Op.lsqKind : Op → Option Machine.LsqKind
  | .lw => some .load
  | .sw => some .store
  | .add | .sub | .and | .or | .xor | .slt | .addi | .beq | .bne | .jal | .jalr | .nop => none

/-- `is_mem` (R116). -/
def Op.isMem (o : Op) : Bool := o.lsqKind.isSome

/-- `is_cond_branch` (R116). -/
def Op.isCondBranch : Op → Bool
  | .beq | .bne => true
  | .add | .sub | .and | .or | .xor | .slt | .addi | .lw | .sw | .jal | .jalr | .nop => false

/-- The variant of an instruction. -/
def Instr.op : Instr → Op
  | .add _ _ _ => .add | .sub _ _ _ => .sub | .and _ _ _ => .and | .or _ _ _ => .or
  | .xor _ _ _ => .xor | .slt _ _ _ => .slt | .addi _ _ _ => .addi | .lw _ _ _ => .lw
  | .sw _ _ _ => .sw | .beq _ _ _ => .beq | .bne _ _ _ => .bne | .jal _ _ => .jal
  | .jalr _ _ _ => .jalr | .nop => .nop

/-- The `rd` field as decoded, 0 when absent (R111). -/
def Instr.rd : Instr → Reg
  | .add rd _ _ | .sub rd _ _ | .and rd _ _ | .or rd _ _ | .xor rd _ _ | .slt rd _ _ => rd
  | .addi rd _ _ | .lw rd _ _ | .jal rd _ | .jalr rd _ _ => rd
  | .sw _ _ _ | .beq _ _ _ | .bne _ _ _ | .nop => 0

/-- The register operand slot j names (R205). -/
def Instr.slotJ : Instr → Reg
  | .add _ rs1 _ | .sub _ rs1 _ | .and _ rs1 _ | .or _ rs1 _ | .xor _ rs1 _ | .slt _ rs1 _ => rs1
  | .addi _ rs1 _ | .lw _ rs1 _ => rs1
  | .sw rs1 _ _ | .beq rs1 _ _ | .bne rs1 _ _ => rs1
  | .jal _ _ | .jalr _ _ _ | .nop => 0

/-- The register operand slot k names (R205). -/
def Instr.slotK : Instr → Reg
  | .add _ _ rs2 | .sub _ _ rs2 | .and _ _ rs2 | .or _ _ rs2 | .xor _ _ rs2 | .slt _ _ rs2 => rs2
  | .addi _ _ _ | .lw _ _ _ => 0
  | .sw _ rs2 _ | .beq _ rs2 _ | .bne _ rs2 _ => rs2
  | .jal _ _ | .jalr _ _ _ | .nop => 0

end Sys2Proof

namespace Sys2Proof.Machine

/-- `x[i]`, the committed value an instruction reads: register 0 is hard-wired to zero (R10, R22). -/
def State.readReg (s : State) (i : Reg) : Word := if i = 0 then 0 else s.arf[i]

/-- `x[i] <- v`: a write to register 0 is discarded (R10, R22). -/
def State.writeReg (i : Reg) (v : Word) (s : State) : State :=
  if i = 0 then s else { s with arf := s.arf.set i v }

/-- `ROB.find(t)` (R28). -/
def robFind (rob : List RobEntry) (t : Nat) : Option RobEntry := rob.find? fun e => e.tag == t

/-- The value and the operand tag of a source register (R206); register 0 gives `(0, None)` (R22,
R207). A tag that names no entry, which invariant I3 excludes, is recorded like one that is not
ready (log 11). -/
def State.rename (s : State) (i : Reg) : Word × Option Nat :=
  if i = 0 then (0, none)
  else
    match s.rat[i] with
    | .architectural => (s.arf[i], none)
    | .renamed p =>
      match robFind s.rob p with
      | some e => if e.ready then (e.result, none) else (0, some p)
      | none => (0, some p)

/-- `ea = base + imm` modulo 2^32 (R160). -/
def effectiveAddress (base imm : Word) : Word := base + imm

/-- The word a byte address names: `unsigned(a) / 4` rounded down (R71). -/
def wordIndex (a : Word) : Nat := a.toNat / 4

/-- The fault of an effective address, misalignment first, and none for a good one (R262, R326). -/
def addressFault (c : Config) (pc a : Word) : Option Fault :=
  if a.extractLsb' 0 2 ≠ 0 then some (.memMisaligned pc a)
  else if c.memWords ≤ wordIndex a then some (.memOutOfRange pc a)
  else none

/-- A station is wake-able when both operand tags are the sentinel (R30). -/
def Station.wakeable (st : Station) : Bool := st.qj.isNone && st.qk.isNone

end Sys2Proof.Machine
end

