-- ==== Sys2Proof/Machine/Ops.lean ====
section
/-! DEFINITION. The named operations over memory, caches, predictor, queues and stations that the
meanings and the stages share: data memory (spec/20_memory.md), the cache controllers
(spec/56_caches.md), the predictor (spec/55_branch_predictor.md), issue (spec/51_issue_rename.md R205 to
R213), broadcast (spec/52_execute_cdb.md R241), the commit of a head and Flush (spec/53_commit_flush.md).
The core has no exception to take and none to return from (spec/60_exceptions.md R320, R325): the one
shared operation of that kind is the latching of a model fault (R262). -/

namespace Sys2Proof.Machine

/-! ## Plain field updates -/

def State.setPc (pc : Word) (s : State) : State := { s with pc := pc }

def State.atStage (st : Stage) (s : State) : State := { s with stage := st }

/-! ## Sparse maps -/

/-- The value at key `a` of a sparse map whose unlisted keys hold `dflt`. -/
def sparseGet {α : Type} (dflt : α) : List (Nat × α) → Nat → α
  | [], _ => dflt
  | (k, b) :: m, a => if k = a then b else sparseGet dflt m a

/-- The map with the value at `a` set, in canonical form: setting `dflt` removes the entry. -/
def sparseSet {α : Type} [DecidableEq α] (dflt : α) (a : Nat) (v : α) : List (Nat × α) → List (Nat × α)
  | [] => if v = dflt then [] else [(a, v)]
  | (k, b) :: m =>
    if a < k then if v = dflt then (k, b) :: m else (a, v) :: (k, b) :: m
    else if a = k then if v = dflt then m else (a, v) :: m
    else (k, b) :: sparseSet dflt a v m

/-! ## Data memory -/

/-- One byte of data memory. -/
def readByte (m : Memory) (a : Nat) : Byte := sparseGet unlistedByte m a

/-- Memory with the byte at `a` set. -/
def writeByte (a : Nat) (v : Byte) (m : Memory) : Memory := sparseSet unlistedByte a v m

/-- `Mem[i]`: the bytes `4i` to `4i + 3`, the lowest address least significant (R34, R73, log 5). -/
def memWord (m : Memory) (i : Nat) : Word :=
  readByte m (4 * i + 3) ++ readByte m (4 * i + 2) ++ readByte m (4 * i + 1) ++ readByte m (4 * i)

/-- `Mem[i] <- v` (R77). -/
def setMemWord (i : Nat) (v : Word) (m : Memory) : Memory :=
  writeByte (4 * i) (v.extractLsb' 0 8) <| writeByte (4 * i + 1) (v.extractLsb' 8 8) <|
    writeByte (4 * i + 2) (v.extractLsb' 16 8) <| writeByte (4 * i + 3) (v.extractLsb' 24 8) m

/-- `MemRead(a, 4)`: the containing word, 0 out of range (R77). -/
def State.memRead (s : State) (a : Word) : Word :=
  if wordIndex a < s.cfg.memWords then memWord s.mem (wordIndex a) else 0

/-- `MemWrite(a, 4, v)` (R77). -/
def State.memWrite (a v : Word) (s : State) : State :=
  { s with mem := setMemWord (wordIndex a) v s.mem }

/-! ## Caches -/

/-- `index = a[10:6]` (R301). -/
def cacheIndex (a : Word) : Fin 32 := (a.extractLsb' 6 5).toFin

/-- `tag = a[31:11]` (R301). -/
def cacheTag (a : Word) : BitVec 21 := a.extractLsb' 11 21

/-- The way holds `tag` (R302, R303). -/
def Way.holds (tag : BitVec 21) (w : Way) : Bool := w.valid && w.tag == tag

/-- A hit refreshes the rank, and a write hit marks the way dirty (R304). -/
def Way.touch (rank : Nat) (isWrite : Bool) (w : Way) : Way :=
  { w with lru := rank, dirty := w.dirty || isWrite }

/-- The contents of a filled victim (R305). -/
def Way.filled (tag : BitVec 21) (rank : Nat) (isWrite : Bool) : Way :=
  { valid := true, tag := tag, lru := rank, dirty := isWrite }

/-- The set after a hit, when the set holds `tag` (R303). -/
def CacheSet.hit (tag : BitVec 21) (rank : Nat) (isWrite : Bool) (cs : CacheSet) : Option CacheSet :=
  if cs.way0.holds tag then some { cs with way0 := cs.way0.touch rank isWrite }
  else if cs.way1.holds tag then some { cs with way1 := cs.way1.touch rank isWrite }
  else none

/-- The set after a miss: the way of the smaller rank is replaced, way 0 on a tie (R305). -/
def CacheSet.fill (tag : BitVec 21) (rank : Nat) (isWrite : Bool) (cs : CacheSet) : CacheSet :=
  if cs.way0.lru ≤ cs.way1.lru then { cs with way0 := .filled tag rank isWrite }
  else { cs with way1 := .filled tag rank isWrite }

/-- `C.access(a, is_write)`, with what it returns: hit, and the reported latency (R303, R306). -/
def Cache.access (hitLatency missPenalty : Nat) (a : Word) (isWrite : Bool) (c : Cache) :
    Cache × Bool × Nat :=
  let rank := c.lruCounter + 1
  let cs := c.sets[cacheIndex a]
  match cs.hit (cacheTag a) rank isWrite with
  | some cs' =>
    ({ sets := c.sets.set (cacheIndex a) cs', lruCounter := rank, accesses := c.accesses + 1,
       hits := c.hits + 1, misses := c.misses }, true, hitLatency)
  | none =>
    ({ sets := c.sets.set (cacheIndex a) (cs.fill (cacheTag a) rank isWrite), lruCounter := rank,
       accesses := c.accesses + 1, hits := c.hits, misses := c.misses + 1 },
     false, hitLatency + missPenalty)

/-- `L1I.access(a, read)`; its result is used by no rule (R204, R306). -/
def State.accessL1I (a : Word) (s : State) : State :=
  { s with l1i := (s.l1i.access s.cfg.l1iHit s.cfg.missPenalty a false).1 }

/-- `L1D.access(a, is_write)`; its result is used by no rule (R165, R306). -/
def State.accessL1D (a : Word) (isWrite : Bool) (s : State) : State :=
  { s with l1d := (s.l1d.access s.cfg.l1dHit s.cfg.missPenalty a isWrite).1 }

/-! ## Predictor -/

/-- `Index(pc) = (pc XOR GHR)[9:0]` (R291). -/
def Predictor.index (pc : Word) (p : Predictor) : BitVec 10 :=
  (pc ^^^ p.ghr.setWidth 32).extractLsb' 0 10

/-- `PHT[i]` (R33). -/
def Predictor.counter (i : BitVec 10) (p : Predictor) : BitVec 2 :=
  sparseGet weaklyNotTaken p.pht i.toNat

/-- `Predict(pc)`: the counter is at least 2 (R291). -/
def Predictor.predict (pc : Word) (p : Predictor) : Bool :=
  decide (2 ≤ (p.counter (p.index pc)).toNat)

/-- A two-bit counter after a branch (R293, R298). -/
def bumpCounter (taken : Bool) (c : BitVec 2) : BitVec 2 :=
  if taken then (if c = 3 then 3 else c + 1) else (if c = 0 then 0 else c - 1)

/-- `Update(pc, taken)`: the counter at the index of the history before the shift, then the shift (R293). -/
def Predictor.update (pc : Word) (taken : Bool) (p : Predictor) : Predictor :=
  { pht := sparseSet weaklyNotTaken (p.index pc).toNat (bumpCounter taken (p.counter (p.index pc))) p.pht
    ghr := (p.ghr <<< 1) ||| (if taken then 1 else 0) }

/-! ## Stations and queues -/

/-- A pool of stations. -/
def State.pool (p : PoolId) (s : State) : List Station :=
  match p with
  | .alu => s.alu
  | .ls => s.ls

/-- The pool with its stations replaced. -/
def State.setPool (p : PoolId) (l : List Station) (s : State) : State :=
  match p with
  | .alu => { s with alu := l }
  | .ls => { s with ls := l }

/-- Station `k` of pool `p`. -/
def State.station? (s : State) (p : PoolId) (k : Nat) : Option Station := (s.pool p)[k]?

/-- Station `k` of pool `p` replaced. -/
def State.setStation (p : PoolId) (k : Nat) (st : Station) (s : State) : State :=
  s.setPool p ((s.pool p).set k st)

/-- The free station with the lowest index (R203). -/
def freeStation (l : List Station) : Option Nat := l.findIdx? fun st => !st.busy

/-- The ROB entries of tag `t` changed by `f`; tags are unique (R26, R28). -/
def robUpdate (t : Nat) (f : RobEntry → RobEntry) (rob : List RobEntry) : List RobEntry :=
  rob.map fun e => if e.tag = t then f e else e

/-- The LSQ entries of tag `t` changed by `f` (R83). -/
def lsqUpdate (t : Nat) (f : LsqEntry → LsqEntry) (lsq : List LsqEntry) : List LsqEntry :=
  lsq.map fun q => if q.tag = t then f q else q

/-- A store stands in the LSQ before the entry of tag `t` (R80). -/
def olderStore (t : Nat) (lsq : List LsqEntry) : Bool :=
  (lsq.takeWhile fun q => q.tag != t).any fun q => q.kind == .store

/-- `LoadGateOpen` for the load of tag `t` (R80). -/
def State.loadGateOpen (s : State) (t : Nat) : Bool :=
  s.cfg.loadGate == .none || !olderStore t s.lsq

/-- The two entries of one operand slot after a result of tag `t` is handed over (R232, R267). -/
def captureSlot (t : Nat) (v : Word) (slot : Word × Option Nat) : Word × Option Nat :=
  if slot.2 = some t then (v, none) else slot

/-- A station that takes the result `v` of tag `t` in every slot waiting for it (R267). -/
def Station.capture (t : Nat) (v : Word) (st : Station) : Station :=
  { st with
    vj := (captureSlot t v (st.vj, st.qj)).1, qj := (captureSlot t v (st.vj, st.qj)).2
    vk := (captureSlot t v (st.vk, st.qk)).1, qk := (captureSlot t v (st.vk, st.qk)).2 }

/-! ## Issue -/

/-- The LSQ after issue: a `LW` or `SW` pushes an entry at the tail (R209). -/
def lsqPush (i : Instr) (t : Nat) (lsq : List LsqEntry) : List LsqEntry :=
  match i.op.lsqKind with
  | some kind => lsq ++ [{ tag := t, kind := kind, addr := none, data := none, memReady := false }]
  | none => lsq

/-- The RAT after issue: the destination names the new tag, unless it is register 0 or the variant
writes none (R212). -/
def ratName (i : Instr) (t : Nat) (rat : Vector RatEntry 32) : Vector RatEntry 32 :=
  if i.rd ≠ 0 ∧ i.op.writesReg = true then rat.set i.rd (.renamed t) else rat

/-- The station of an instruction that issues (R208, R210). -/
def State.issuedStation (s : State) (i : Instr) : Station :=
  { busy := true, op := i.op
    vj := (s.rename i.slotJ).1, qj := (s.rename i.slotJ).2
    vk := (s.rename i.slotK).1, qk := (s.rename i.slotK).2
    dest := s.nextTag, rem := i.op.latency s.cfg, total := i.op.latency s.cfg
    instr := i.record s.pc, ea := none }

/-- The ROB entry of an instruction that issues (R211), with its prediction (R213). -/
def State.issuedEntry (s : State) (i : Instr) (pred : Bool) : RobEntry :=
  { tag := s.nextTag, op := i.op, rd := i.rd, pc := s.pc, ready := false, result := 0, pred := pred,
    target := 0 }

/-- The allocation of R215 after both stop tests, into station `k` of the instruction's pool: the L1I
access, the tag, the renamed operands, the LSQ, station, ROB and RAT entries, then the new `pc`. -/
def State.issue (i : Instr) (k : Nat) (pred : Bool) (next : Word) (s : State) : State :=
  State.setStation i.op.pool k (s.issuedStation i)
    { s.accessL1I s.pc with
      nextTag := s.nextTag + 1
      lsq := lsqPush i s.nextTag s.lsq
      rob := s.rob ++ [s.issuedEntry i pred]
      rat := ratName i s.nextTag s.rat
      pc := next }

/-- The fall-through of an instruction: `pc + 4` modulo 2^32 (R174, R213). -/
def fallThrough (pc : Word) : Word := pc + 4

/-- The target of a branch or jump: `pc + imm` modulo 2^32 (R174). -/
def branchTarget (pc imm : Word) : Word := pc + imm

/-! ## Execute -/

/-- Broadcast: the result and the ready flag onto the ROB entry of `t` (R241). -/
def State.broadcast (t : Nat) (v : Word) (s : State) : State :=
  { s with rob := robUpdate t (fun e => { e with result := v, ready := true }) s.rob }

/-- `busy <- false` for station `k` of pool `p`; its other fields have no meaning any more (R29, R241). -/
def State.freeStationAt (p : PoolId) (k : Nat) (st : Station) (s : State) : State :=
  s.setStation p k { st with busy := false }

/-- Completion with a result computed from the captured operands alone (R237, R243). -/
def State.completeWith (p : PoolId) (k : Nat) (result : Station → Word) (s : State) : State :=
  match s.station? p k with
  | none => s
  | some st => (s.broadcast st.dest (result st)).freeStationAt p k st

/-- Completion of a conditional branch: the direction as the result, and the correct next pc as the
target (R240). -/
def State.completeBranch (p : PoolId) (k : Nat) (taken : Word → Word → Bool) (imm : Word) (s : State) :
    State :=
  match s.station? p k with
  | none => s
  | some st =>
    let cond := taken st.vj st.vk
    let target := if cond then branchTarget st.instr.pc imm else fallThrough st.instr.pc
    let s := { s with rob := robUpdate st.dest (fun e => { e with target := target }) s.rob }
    (s.broadcast st.dest (bitWord cond)).freeStationAt p k st

/-- Completion of a load, if its gate is open: the L1D access, the memory read, the LSQ entry (R238,
R80). A closed gate leaves the station as it is; so does an effective address that is still
`unknown`, which no run reaches (log 10). -/
def State.completeLoad (p : PoolId) (k : Nat) (s : State) : State :=
  match s.station? p k with
  | none => s
  | some st =>
    if s.loadGateOpen st.dest then
      match st.ea with
      | none => s
      | some ea =>
        let s := s.accessL1D ea false
        let res := s.memRead ea
        let s := { s with lsq := lsqUpdate st.dest (fun q => { q with addr := some ea, memReady := true }) s.lsq }
        (s.broadcast st.dest res).freeStationAt p k st
    else s

/-- Completion of a store: the LSQ entry takes the address and the data, memory and L1D are not
touched (R239). -/
def State.completeStore (p : PoolId) (k : Nat) (s : State) : State :=
  match s.station? p k with
  | none => s
  | some st =>
    match st.ea with
    | none => s
    | some ea =>
      let s := { s with lsq := lsqUpdate st.dest (fun q => { q with addr := some ea, data := some st.vk, memReady := true }) s.lsq }
      (s.broadcast st.dest st.vk).freeStationAt p k st

/-! ## Commit -/

/-- The RAT after a register commit: the entry reverts if it still names the committing tag (R264). -/
def ratRevert (rd : Reg) (t : Nat) (rat : Vector RatEntry 32) : Vector RatEntry 32 :=
  if rat[rd] = .renamed t then rat.set rd .architectural else rat

/-- Register commit of the head: nothing for register 0 (R264). -/
def State.commitReg (rd : Reg) (h : RobEntry) (s : State) : State :=
  if rd = 0 then s
  else { s with arf := s.arf.set rd h.result, rat := ratRevert rd h.tag s.rat }

/-- Commit-time capture (R267): every busy station of both pools that waits for the head takes its
result. -/
def State.wake (h : RobEntry) (s : State) : State :=
  { s with
    alu := s.alu.map fun st => if st.busy then st.capture h.tag h.result else st
    ls := s.ls.map fun st => if st.busy then st.capture h.tag h.result else st }

/-- The end of a commit: the capture, the pop of the ROB head, `committed + 1` (R267, R268). -/
def State.retire (h : RobEntry) (s : State) : State :=
  let s := s.wake h
  { s with rob := s.rob.tail, counters := { s.counters with committed := s.counters.committed + 1 } }

/-- The LSQ head is removed (R266). -/
def State.popLsq (s : State) : State := { s with lsq := s.lsq.tail }

/-- The LSQ head with its address, when the memory commit check passes: it is the head's own entry and
`mem_ready` (R261). An address still `unknown` fails the check, which no run reaches (log 10). -/
def memoryHead (h : RobEntry) (lsq : List LsqEntry) : Option (LsqEntry × Word) :=
  match lsq with
  | [] => none
  | q :: _ => if q.tag = h.tag ∧ q.memReady = true then q.addr.map fun a => (q, a) else none

/-- A model fault is latched and logged; nothing else changes (R262, R335). -/
def State.latchFault (f : Fault) (s : State) : State :=
  { s with fault := some f, log := s.log ++ [.fault s.counters.cycle f] }

/-- Flush (R272): everything speculative is discarded, fetch restarts at `target`. -/
def State.flush (target : Word) (s : State) : State :=
  { s with
    rob := []
    alu := s.alu.map fun st => { st with busy := false }
    ls := s.ls.map fun st => { st with busy := false }
    lsq := []
    rat := Vector.replicate 32 .architectural
    pc := target
    counters := { s.counters with
      flushes := s.counters.flushes + 1, discarded := s.counters.discarded + s.rob.length } }

/-- Branch handling at Commit before the outcome is acted on: the counters and the predictor (R263). -/
def State.trainBranch (h : RobEntry) (actual : Bool) (s : State) : State :=
  { s with
    bp := s.bp.update h.pc actual
    counters := { s.counters with
      bpTotal := s.counters.bpTotal + 1
      bpCorrect := s.counters.bpCorrect + if actual = h.pred then 1 else 0 } }

/-- The mispredict event (R335). -/
def State.logMispredict (h : RobEntry) (s : State) : State :=
  { s with log := s.log ++ [.mispredict s.counters.cycle h.pc h.target] }

/-- Commit of a head that writes `rd` (R264, R267, R268). -/
def State.commitWriting (rd : Reg) (s : State) : State :=
  match s.rob with
  | [] => s
  | h :: _ => (s.commitReg rd h).retire h

/-- Commit of a head that writes no register and has no other effect (R267, R268). -/
def State.commitPlain (s : State) : State :=
  match s.rob with
  | [] => s
  | h :: _ => s.retire h

/-- Commit of a conditional branch (R263): the predictor is updated in any case; a wrong direction
flushes to the entry's target, a right one retires. -/
def State.commitBranch (s : State) : State :=
  match s.rob with
  | [] => s
  | h :: _ =>
    let actual : Bool := h.result == 1
    let s := s.trainBranch h actual
    if actual = h.pred then s.retire h else (s.logMispredict h).flush h.target

/-- Commit of a load (R261, R262, R264, R266): a failed memory check changes nothing. -/
def State.commitLoad (rd : Reg) (s : State) : State :=
  match s.rob with
  | [] => s
  | h :: _ =>
    match memoryHead h s.lsq with
    | none => s
    | some (_, a) =>
      match addressFault s.cfg h.pc a with
      | some f => s.latchFault f
      | none => ((s.commitReg rd h).popLsq).retire h

/-- Commit of a store (R261, R262, R265, R266): the L1D write access, then the memory write, from the
LSQ entry. Data still `unknown` fails the check, which no run reaches (log 10). -/
def State.commitStore (s : State) : State :=
  match s.rob with
  | [] => s
  | h :: _ =>
    match memoryHead h s.lsq with
    | none => s
    | some (q, a) =>
      match addressFault s.cfg h.pc a, q.data with
      | some f, _ => s.latchFault f
      | none, none => s
      | none, some v => (((s.accessL1D a true).memWrite a v).popLsq).retire h

end Sys2Proof.Machine
end

