-- ==== Sys2Proof/Machine/Alu.lean ====
section
/-! DEFINITION. Integer arithmetic and logic instructions and NOP (spec/40_int_alu.md R140 to R150): in
each stage what the instruction does there, and in stage `reference` its architectural effect. -/

namespace Sys2Proof.Machine

/-- An instruction that computes a register from its operands: the architectural effect writes
`value` of the register values and goes to `pc + 4`; Execute broadcasts `result` of the station
(R148, R237). -/
def computing (i : Instr) (rd : Reg) (value : Word) (result : Station → Word) (s : State) :
    Host.Outcome State Fault Refusal :=
  match s.stage with
  | .reference => .next ((s.writeReg rd value).setPc (fallThrough s.pc))
  | .issue k => .next (s.issue i k false (fallThrough s.pc))
  | .execute p k => .next (s.completeWith p k result)
  | .commit => .next (s.commitWriting rd)

/-- An instruction that writes no register, never redirects at Commit and has the result 0: its
architectural effect and its Issue go to `next` (R147, R172, R243). -/
def inert (i : Instr) (next : Word) (s : State) : Host.Outcome State Fault Refusal :=
  match s.stage with
  | .reference => .next (s.setPc next)
  | .issue k => .next (s.issue i k false next)
  | .execute p k => .next (s.completeWith p k fun _ => 0)
  | .commit => .next s.commitPlain

/-- R140: the sum modulo 2^32. -/
def execAdd (rd rs1 rs2 : Reg) (s : State) : Host.Outcome State Fault Refusal :=
  computing (.add rd rs1 rs2) rd (s.readReg rs1 + s.readReg rs2) (fun st => st.vj + st.vk) s

/-- R141: the difference modulo 2^32. -/
def execSub (rd rs1 rs2 : Reg) (s : State) : Host.Outcome State Fault Refusal :=
  computing (.sub rd rs1 rs2) rd (s.readReg rs1 - s.readReg rs2) (fun st => st.vj - st.vk) s

/-- R142: bitwise AND. -/
def execAnd (rd rs1 rs2 : Reg) (s : State) : Host.Outcome State Fault Refusal :=
  computing (.and rd rs1 rs2) rd (s.readReg rs1 &&& s.readReg rs2) (fun st => st.vj &&& st.vk) s

/-- R143: bitwise OR. -/
def execOr (rd rs1 rs2 : Reg) (s : State) : Host.Outcome State Fault Refusal :=
  computing (.or rd rs1 rs2) rd (s.readReg rs1 ||| s.readReg rs2) (fun st => st.vj ||| st.vk) s

/-- R144: bitwise exclusive OR. -/
def execXor (rd rs1 rs2 : Reg) (s : State) : Host.Outcome State Fault Refusal :=
  computing (.xor rd rs1 rs2) rd (s.readReg rs1 ^^^ s.readReg rs2) (fun st => st.vj ^^^ st.vk) s

/-- R145: 1 if the first operand is less as a signed number, else 0. -/
def execSlt (rd rs1 rs2 : Reg) (s : State) : Host.Outcome State Fault Refusal :=
  computing (.slt rd rs1 rs2) rd (bitWord (signedLess (s.readReg rs1) (s.readReg rs2)))
    (fun st => bitWord (signedLess st.vj st.vk)) s

/-- R146: the sum of the register and the 32-bit immediate modulo 2^32. -/
def execAddi (rd rs1 : Reg) (imm : Word) (s : State) : Host.Outcome State Fault Refusal :=
  computing (.addi rd rs1 imm) rd (s.readReg rs1 + imm) (fun st => st.vj + imm) s

/-- R147: `pc + 4` and nothing else. -/
def execNop (s : State) : Host.Outcome State Fault Refusal := inert .nop (fallThrough s.pc) s

end Sys2Proof.Machine
end

