-- ==== Sys2Proof/Machine/Control.lean ====
section
/-! DEFINITION. Control-transfer instructions (spec/42_control_transfer.md R170 to R178). -/

namespace Sys2Proof.Machine

/-- A conditional branch with the condition `taken` (R170, R171): predicted at Issue, which moves `pc`
the predicted way (R213), resolved at Execute (R240), checked at Commit (R263). -/
def branching (i : Instr) (rs1 rs2 : Reg) (imm : Word) (taken : Word → Word → Bool) (s : State) :
    Host.Outcome State Fault Refusal :=
  match s.stage with
  | .reference =>
    .next (s.setPc (if taken (s.readReg rs1) (s.readReg rs2) then branchTarget s.pc imm
      else fallThrough s.pc))
  | .issue k =>
    .next (s.issue i k (s.bp.predict s.pc)
      (if s.bp.predict s.pc then branchTarget s.pc imm else fallThrough s.pc))
  | .execute p k => .next (s.completeBranch p k taken imm)
  | .commit => .next s.commitBranch

/-- R170. -/
def execBeq (rs1 rs2 : Reg) (imm : Word) (s : State) : Host.Outcome State Fault Refusal :=
  branching (.beq rs1 rs2 imm) rs1 rs2 imm takenBeq s

/-- R171. -/
def execBne (rs1 rs2 : Reg) (imm : Word) (s : State) : Host.Outcome State Fault Refusal :=
  branching (.bne rs1 rs2 imm) rs1 rs2 imm takenBne s

/-- R172: `pc + imm`, no link value, `rd` ignored. -/
def execJal (rd : Reg) (imm : Word) (s : State) : Host.Outcome State Fault Refusal :=
  inert (.jal rd imm) (branchTarget s.pc imm) s

/-- R173: as `NOP`. Under `JALR_MODE = refuse` a program that holds one never starts (R122, R329): the
sequential reading refuses it by name, and the stages are never reached (log 18). -/
def execJalr (rd rs1 : Reg) (imm : Word) (s : State) : Host.Outcome State Fault Refusal :=
  if s.stage = .reference ∧ s.cfg.jalrMode = .refuse then .refused (.jalrReserved s.pc)
  else inert (.jalr rd rs1 imm) (fallThrough s.pc) s

end Sys2Proof.Machine
end

