-- ==== Sys2Proof/Machine/LoadStore.lean ====
section
/-! DEFINITION. Load and store instructions (spec/41_load_store.md R160 to R165). -/

namespace Sys2Proof.Machine

/-- R161. -/
def execLw (rd rs1 : Reg) (imm : Word) (s : State) : Host.Outcome State Fault Refusal :=
  match s.stage with
  | .reference =>
    let ea := effectiveAddress (s.readReg rs1) imm
    match addressFault s.cfg s.pc ea with
    | some f => .fault f
    | none => .next ((s.writeReg rd (s.memRead ea)).setPc (fallThrough s.pc))
  | .issue k => .next (s.issue (.lw rd rs1 imm) k false (fallThrough s.pc))
  | .execute p k => .next (s.completeLoad p k)
  | .commit => .next (s.commitLoad rd)

/-- R162. -/
def execSw (rs1 rs2 : Reg) (imm : Word) (s : State) : Host.Outcome State Fault Refusal :=
  match s.stage with
  | .reference =>
    let ea := effectiveAddress (s.readReg rs1) imm
    match addressFault s.cfg s.pc ea with
    | some f => .fault f
    | none => .next ((s.memWrite ea (s.readReg rs2)).setPc (fallThrough s.pc))
  | .issue k => .next (s.issue (.sw rs1 rs2 imm) k false (fallThrough s.pc))
  | .execute p k => .next (s.completeStore p k)
  | .commit => .next s.commitStore

end Sys2Proof.Machine
end

