-- ==== Sys2Proof/Machine/Commit.lean ====
section
/-! DEFINITION. The Commit stage (spec/53_commit_flush.md R260 to R271): the head-commit repeated
`COMMIT_WIDTH` times. -/

namespace Sys2Proof.Machine

/-- A commit attempt that answered `t` from `s` aborts the rest of the cycle when it flushed or latched
a fault: only Flush counts `flushes` (R262, R274, R330, log 16). -/
def attemptAborted (s t : State) : Bool :=
  t.fault.isSome || t.counters.flushes != s.counters.flushes

/-- A commit attempt retired its head: only the pop counts `committed` (R268, R330, log 16). -/
def attemptRetired (s t : State) : Bool := t.counters.committed != s.counters.committed

/-- The Commit stage with `n` attempts left (R270): the new state, and whether it aborted the cycle. The
stage ends at an empty ROB, a head that is not ready, a memory check that fails, a fault or a flush
(R269). -/
def commitStage : Nat → State → Host.Outcome (State × Bool) Fault Refusal
  | 0, s => .next (s, false)
  | n + 1, s =>
    match s.rob with
    | [] => .next (s, false)
    | h :: _ =>
      if h.ready then
        match exec (h.op.withDest h.rd) (s.atStage .commit) with
        | .next t =>
          if attemptAborted s t then .next (t, true)
          else if attemptRetired s t then commitStage n t
          else .next (t, false)
        | .fault f => .fault f
        | .refused r => .refused r
      else .next (s, false)

end Sys2Proof.Machine
end

