-- ==== Sys2Proof/Machine/Execute.lean ====
section
/-! DEFINITION. The Execute stage (spec/52_execute_cdb.md R230 to R245): the scan of the stations. -/

namespace Sys2Proof.Machine

/-- One operand slot after operand capture: a waiting slot whose producer is in the ROB and ready takes
its result (R232). -/
def captureLive (rob : List RobEntry) (slot : Word × Option Nat) : Word × Option Nat :=
  match slot.2 with
  | none => slot
  | some p =>
    match robFind rob p with
    | some e => if e.ready then (e.result, none) else slot
    | none => slot

/-- Operand capture of a station (R232). -/
def Station.captureFrom (rob : List RobEntry) (st : Station) : Station :=
  { st with
    vj := (captureLive rob (st.vj, st.qj)).1, qj := (captureLive rob (st.vj, st.qj)).2
    vk := (captureLive rob (st.vk, st.qk)).1, qk := (captureLive rob (st.vk, st.qk)).2 }

/-- Countdown of a wake-able station (R233), with the effective address of a `LW` or `SW` computed in
the first visit that counts down (R234). -/
def Station.countdown (st : Station) : Station :=
  if 0 < st.rem then
    { st with
      ea := if st.rem = st.total ∧ st.instr.op.isMem = true then
          some (effectiveAddress st.vj st.instr.imm) else st.ea
      rem := st.rem - 1 }
  else st

/-- One visit of station `k` of pool `p` (R230, R235, R236): capture, countdown, and the completion of
the instruction when the count is 0. -/
def visit (p : PoolId) (k : Nat) (s : State) : Host.Outcome State Fault Refusal :=
  match s.station? p k with
  | none => .next s
  | some st =>
    if st.busy then
      let st1 := st.captureFrom s.rob
      if st1.wakeable then
        let st2 := st1.countdown
        let s2 := s.setStation p k st2
        if st2.rem = 0 then exec st2.instr.instr (s2.atStage (.execute p k)) else .next s2
      else .next (s.setStation p k st1)
    else .next s

/-- The scan order: `ALU[0], ALU[1], ..` then `LS[0], LS[1], ..` (R231). -/
def scanOrder (s : State) : List (PoolId × Nat) :=
  (List.range s.alu.length).map (fun k => (PoolId.alu, k)) ++
    (List.range s.ls.length).map (fun k => (PoolId.ls, k))

/-- The visits of a list of stations, one after the other (R230). -/
def scan : List (PoolId × Nat) → State → Host.Outcome State Fault Refusal
  | [], s => .next s
  | (p, k) :: rest, s =>
    match visit p k s with
    | .next t => scan rest t
    | .fault f => .fault f
    | .refused r => .refused r

/-- The Execute stage (R245). -/
def executeStage (s : State) : Host.Outcome State Fault Refusal := scan (scanOrder s) s

end Sys2Proof.Machine
end

