-- ==== Sys2Proof/Machine/Issue.lean ====
section
/-! DEFINITION. The Issue stage (spec/51_issue_rename.md R200 to R216): fetch fused with issue. -/

namespace Sys2Proof.Machine

/-- The instruction and the free station of the next issue attempt, or nothing where a stop test ends
the stage: the ROB is full, `PROGRAM(pc)` is nothing, or the pool has no free station (R201 to R203). -/
def State.nextIssue (s : State) : Option (Instr × Nat) :=
  if s.rob.length < s.cfg.robSize then
    match s.program.lookup s.pc with
    | none => none
    | some r => (freeStation (s.pool r.instr.op.pool)).map fun k => (r.instr, k)
  else none

/-- The Issue stage with `n` attempts left (R200, R215). -/
def issueStage : Nat → State → Host.Outcome State Fault Refusal
  | 0, s => .next s
  | n + 1, s =>
    match s.nextIssue with
    | none => .next s
    | some (i, k) =>
      match exec i (s.atStage (.issue k)) with
      | .next t => issueStage n t
      | .fault f => .fault f
      | .refused r => .refused r

end Sys2Proof.Machine
end

