-- ==== Sys2Proof/Machine/Observe.lean ====
section
/-! DEFINITION. What the host reads and what begins and ends a cycle: the checks before a run
(spec/60_exceptions.md R329), the cycle count and the sample (R330, R332), the ratios (R331), the end
of a run (spec/50_pipeline_step.md R186), the architectural pc (spec/10_state.md R25) and the life
cycle of an instruction (R42). -/

namespace Sys2Proof.Machine

/-- Why a slot is no part of a well-formed store (R115, R121, R122), by name and address. -/
def slotRefusal (mode : JalrMode) (a : Word) : Slot → Option Refusal
  | .unknown w => some (.unknownWord a w)
  | .record r =>
    if r.wf a then
      if mode = .refuse ∧ r.op = .jalr then some (.jalrReserved a) else none
    else some (.illFormedRecord a)

/-- The refusal before the run, if there is one (R329). -/
def startRefusal (c : Config) (p : Program) : Option Refusal :=
  if c.wf then
    match p.findSome? fun e => slotRefusal c.jalrMode e.1 e.2 with
    | some r => some r
    | none => if Program.keysRise p then none else some .keysNotRising
  else some .badConfiguration

/-- `cycle <- cycle + 1` (R180). -/
def State.beginCycle (s : State) : State :=
  { s with counters := { s.counters with cycle := s.counters.cycle + 1 } }

/-- One occupancy sample of `n` (R332). -/
def Occupancy.add (n : Nat) (o : Occupancy) : Occupancy := ⟨o.sum + n, Nat.max o.max n⟩

/-- The number of busy stations (R333). -/
def busyCount (l : List Station) : Nat := l.countP (·.busy)

/-- `Sample()` (R332). -/
def State.sample (s : State) : State :=
  { s with counters := { s.counters with
      occRob := s.counters.occRob.add s.rob.length
      occAlu := s.counters.occAlu.add (busyCount s.alu)
      occLs := s.counters.occLs.add (busyCount s.ls)
      occLsq := s.counters.occLsq.add s.lsq.length } }

/-- The end of a cycle: the sample, and the model's `stage` back at its value between steps (R180, log 2). -/
def State.endCycle (s : State) : State := (s.sample).atStage .reference

/-- The halted condition (R186). -/
def State.halted (s : State) : Bool :=
  s.fault.isNone && s.rob.isEmpty && (s.program.lookup s.pc).isNone

/-- The architectural pc (R25). -/
def State.archPc (s : State) : Word :=
  match s.rob with
  | [] => s.pc
  | h :: _ => h.pc

/-- A reported ratio, 0 when the denominator is 0 (R331). -/
def ratio (n d : Nat) : ℚ := if d = 0 then 0 else (n : ℚ) / (d : ℚ)

/-- "IPC" (R331). -/
def State.ipc (s : State) : ℚ := ratio s.counters.committed s.counters.cycle

/-- "branch prediction accuracy" (R331). -/
def State.branchAccuracy (s : State) : ℚ := ratio s.counters.bpCorrect s.counters.bpTotal

/-- The hit rate of a cache (R331). -/
def Cache.hitRate (c : Cache) : ℚ := ratio c.hits c.accesses

/-- The mean occupancy of a structure (R331). -/
def State.meanOccupancy (s : State) (o : Occupancy) : ℚ := ratio o.sum s.counters.cycle

/-- The number of a fault where a snapshot wants one (R321). -/
def faultNumber : Option Fault → Nat
  | none => 0
  | some (.memMisaligned _ _) => 1
  | some (.memOutOfRange _ _) => 2

/-- The states of an instruction in flight (R42); the two terminal states are those of an instruction
that has left the ROB. -/
inductive LifeState where
  | operandsPending | executing | ready
  deriving DecidableEq, Repr

/-- The life-cycle state of the in-flight instruction of tag `t` (R42). -/
def State.lifeState (s : State) (t : Nat) : Option LifeState :=
  match robFind s.rob t with
  | none => none
  | some e =>
    if e.ready then some .ready
    else
      ((s.alu ++ s.ls).find? fun st => st.busy && st.dest == t).map fun st =>
        if st.wakeable then .executing else .operandsPending

end Sys2Proof.Machine
end

