-- ==== Sys2Proof/Machine/Reference.lean ====
section
/-! DEFINITION. The sequential reference machine (spec/50_pipeline_step.md R190): the registers, the data
memory and the pc of a state, stepped one instruction at a time by the architectural effects. -/

namespace Sys2Proof.Machine

/-- The reference has ended: `PROGRAM(pc)` is nothing (R190). -/
def State.refEnded (s : State) : Bool := (s.program.lookup s.pc).isNone

/-- One instruction of the sequential reference (R190); an ended reference stays. -/
def refStep (s : State) : Host.Outcome State Fault Refusal :=
  match s.program.lookup s.pc with
  | none => .next s
  | some r => exec r.instr (s.atStage .reference)

/-- `n` instructions of the sequential reference. -/
def refRun : Nat → State → Host.Outcome State Fault Refusal
  | 0, s => .next s
  | n + 1, s =>
    match refStep s with
    | .next t => refRun n t
    | .fault f => .fault f
    | .refused r => .refused r

end Sys2Proof.Machine
end

