-- ==== Sys2Proof/Machine/Step.lean ====
section
/-! DEFINITION. The step: one clock cycle (spec/50_pipeline_step.md R180, R187). -/

namespace Sys2Proof.Machine

/-- Execute, then Issue: the part of a cycle that an abort skips (R180). -/
def backEnd (s : State) : Host.Outcome State Fault Refusal :=
  match executeStage s with
  | .next t => issueStage t.cfg.width t
  | .fault f => .fault f
  | .refused r => .refused r

/-- One cycle of a machine that is neither refused nor faulted (R180). -/
def cycle (s : State) : Host.Outcome State Fault Refusal :=
  match commitStage s.cfg.commitWidth s.beginCycle with
  | .next (t, true) => .next t.endCycle
  | .next (t, false) =>
    match backEnd t with
    | .next u => .next u.endCycle
    | .fault f => .fault f
    | .refused r => .refused r
  | .fault f => .fault f
  | .refused r => .refused r

/-- One step (R180): a bad configuration or program store is refused (R329), a faulted state does not
change (R187), any other state goes through one cycle. -/
def step (s : State) : Host.Outcome State Fault Refusal :=
  match startRefusal s.cfg s.program with
  | some r => .refused r
  | none => if s.fault.isSome then .next s else cycle s

/-- `s` with the instruction of a table word stored where the next Issue fetches: at `pc`. -/
def State.withFetchWord (s : State) (nbits w : Nat) : State :=
  { s with program := s.program.place s.pc (slotOfWord s.pc (BitVec.ofNat 32 (w % 2 ^ nbits))) }

end Sys2Proof.Machine
end

