-- ==== Sys2Proof/Safety.lean ====
section
/-! DEFINITION. What claims are stated in: the invariants of spec/10_state.md R41 as predicates of a
state, the invariants of the components (memory, predictor, caches), the sequential reading of what is
in flight, and the reachable states. -/

namespace Sys2Proof.Machine

/-- The configuration and the program store pass every check before the run (R329). -/
abbrev State.Admitted (s : State) : Prop := startRefusal s.cfg s.program = none

/-- All stations, in scan order of the pools (R231). -/
def State.stations (s : State) : List Station := s.alu ++ s.ls

/-- The tag a RAT entry names, if it names one (R23). -/
def RatEntry.tag? : RatEntry → Option Nat
  | .architectural => none
  | .renamed t => some t

/-! ## The core's invariants (R41) -/

/-- I1: tags increase from head to tail, hence are unique. -/
abbrev State.TagsRise (s : State) : Prop := s.rob.Pairwise fun a b => a.tag < b.tag

/-- Every tag in the ROB was given by Issue (R26). -/
abbrev State.TagsIssued (s : State) : Prop := ∀ e ∈ s.rob, e.tag < s.nextTag

/-- I2 for one operand slot: a live entry of tag `t`, older than `dest`, that writes register `r`. -/
abbrev State.Produces (s : State) (t : Nat) (r : Reg) (dest : Nat) : Prop :=
  ∃ e ∈ s.rob, e.tag = t ∧ t < dest ∧ e.rd = r

/-- I2: every operand tag of a busy station names a live, older producer of its source register. -/
abbrev State.TagsLive (s : State) : Prop :=
  ∀ st ∈ s.stations, st.busy = true →
    (∀ t ∈ st.qj, s.Produces t st.instr.instr.slotJ st.dest) ∧
    (∀ t ∈ st.qk, s.Produces t st.instr.instr.slotK st.dest)

/-- I3: a renamed register's tag is the youngest live entry that writes it, and is never register 0's. -/
abbrev State.RatNamesYoungest (s : State) : Prop :=
  ∀ i : Reg, ∀ t ∈ (s.rat[i]).tag?, i ≠ 0 ∧
    (∃ e ∈ s.rob, e.tag = t ∧ e.rd = i ∧ e.op.writesReg = true) ∧
    ∀ e ∈ s.rob, e.rd = i → e.op.writesReg = true → e.tag ≤ t

/-- I4: the LSQ holds exactly the memory instructions of the ROB, in its order, each with its kind. -/
abbrev State.LsqMatchesRob (s : State) : Prop :=
  s.lsq.map (fun q => (q.tag, some q.kind)) =
    (s.rob.filter fun e => e.op.isMem).map fun e => (e.tag, e.op.lsqKind)

/-- I5: a busy station holds an instruction of the ROB that is not ready: the same variant, destination
and address. -/
abbrev State.StationsLive (s : State) : Prop :=
  ∀ st ∈ s.stations, st.busy = true →
    ∃ e ∈ s.rob, e.tag = st.dest ∧ e.ready = false ∧ e.op = st.instr.op ∧ e.rd = st.instr.rd ∧
      e.pc = st.instr.pc

/-- I5: an entry that is not ready is in exactly one busy station. -/
abbrev State.OneStationEach (s : State) : Prop :=
  ∀ e ∈ s.rob, e.ready = false → s.stations.countP (fun st => st.busy && st.dest == e.tag) = 1

/-- I7, with the ghost count of discarded entries. -/
abbrev State.TagsAccounted (s : State) : Prop :=
  s.counters.committed + s.rob.length + s.counters.discarded + s.cfg.firstTag = s.nextTag

/-- I8: register 0 holds 0 and is never renamed (R22). -/
abbrev State.ZeroRegister (s : State) : Prop := s.arf[(0 : Reg)] = 0 ∧ s.rat[(0 : Reg)] = .architectural

/-- I9: an LSQ entry is `mem_ready` exactly when its ROB entry is ready. -/
abbrev State.MemReadyAgrees (s : State) : Prop :=
  ∀ q ∈ s.lsq, ∀ e ∈ s.rob, e.tag = q.tag → q.memReady = e.ready

/-- A resolved LSQ entry has its address, and a store its data (R31). -/
abbrev State.LsqResolved (s : State) : Prop :=
  ∀ q ∈ s.lsq, q.memReady = true → q.addr.isSome = true ∧ (q.kind = .store → q.data.isSome = true)

/-- A busy station's countdown: never above its total, still whole while an operand is awaited, and the
effective address of a `LW` or `SW` known once it began (R233, R234). -/
abbrev State.CountdownOk (s : State) : Prop :=
  ∀ st ∈ s.stations, st.busy = true →
    1 ≤ st.total ∧ st.rem ≤ st.total ∧ (st.wakeable = false → st.rem = st.total) ∧
    (st.rem < st.total → st.instr.op.isMem = true →
      st.ea = some (effectiveAddress st.vj st.instr.imm))

/-- The invariants of R41 that speak of one state (I1 to I5, I7 to I9), with what makes each of them
kept by a step. I6 speaks of two states and is a statement of its own. -/
structure State.CoreInv (s : State) : Prop where
  tagsRise : s.TagsRise
  tagsIssued : s.TagsIssued
  tagsLive : s.TagsLive
  ratNamesYoungest : s.RatNamesYoungest
  lsqMatchesRob : s.LsqMatchesRob
  stationsLive : s.StationsLive
  oneStationEach : s.OneStationEach
  tagsAccounted : s.TagsAccounted
  zeroRegister : s.ZeroRegister
  memReadyAgrees : s.MemReadyAgrees
  lsqResolved : s.LsqResolved
  countdownOk : s.CountdownOk

/-! ## The components' invariants -/

/-- A set of a cache: valid ways hold different tags and different ranks, a valid way's rank was given
out, an invalid way's rank is 0 (R304, R305, R310). -/
abbrev CacheSet.Ok (n : Nat) (cs : CacheSet) : Prop :=
  (cs.way0.valid = true → cs.way1.valid = true → cs.way0.tag ≠ cs.way1.tag ∧ cs.way0.lru ≠ cs.way1.lru) ∧
  (cs.way0.valid = true → 1 ≤ cs.way0.lru ∧ cs.way0.lru ≤ n) ∧
  (cs.way1.valid = true → 1 ≤ cs.way1.lru ∧ cs.way1.lru ≤ n) ∧
  (cs.way0.valid = false → cs.way0.lru = 0) ∧ (cs.way1.valid = false → cs.way1.lru = 0)

/-- A cache: every access was a hit or a miss and drew one rank, and every set is in order (R303, R307). -/
abbrev Cache.Ok (c : Cache) : Prop :=
  c.accesses = c.hits + c.misses ∧ c.lruCounter = c.accesses ∧ ∀ i : Fin 32, (c.sets[i]).Ok c.lruCounter

/-- The predictor lists counters `0 .. 1023` in canonical form (R33). -/
abbrev Predictor.Ok (p : Predictor) : Prop :=
  sparseWf weaklyNotTaken p.pht = true ∧ ∀ c ∈ p.pht, c.1 < 1024

/-- The components of a state: memory in canonical form and inside its size, the sizes of the pools and
of the ROB, the caches and the predictor, and the model's `stage` at rest. -/
structure State.ComponentInv (s : State) : Prop where
  memCanonical : s.mem.wf = true
  memInRange : s.mem.inRange s.cfg.memWords = true
  aluSize : s.alu.length = s.cfg.aluRs
  lsSize : s.ls.length = s.cfg.lsRs
  robSize : s.rob.length ≤ s.cfg.robSize
  l1i : s.l1i.Ok
  l1d : s.l1d.Ok
  predictor : s.bp.Ok
  atRest : s.stage = .reference

/-! ## The sequential reading of what is in flight -/

/-- The result of an instruction with the operand values `vj` and `vk` (R140 to R147, R170 to R173, R237,
R239, R243); for `LW`, whose result is the word read, it stands for no value. -/
def resultOf (i : Instr) (vj vk : Word) : Word :=
  match i with
  | .add _ _ _ => vj + vk
  | .sub _ _ _ => vj - vk
  | .and _ _ _ => vj &&& vk
  | .or _ _ _ => vj ||| vk
  | .xor _ _ _ => vj ^^^ vk
  | .slt _ _ _ => bitWord (signedLess vj vk)
  | .addi _ _ imm => vj + imm
  | .sw _ _ _ => vk
  | .beq _ _ _ => bitWord (takenBeq vj vk)
  | .bne _ _ _ => bitWord (takenBne vj vk)
  | .lw _ _ _ | .jal _ _ | .jalr _ _ _ | .nop => 0

/-- The condition of a conditional branch (R170, R171); false for every other instruction. -/
def takenOf (i : Instr) (vj vk : Word) : Bool :=
  match i with
  | .beq _ _ _ => takenBeq vj vk
  | .bne _ _ _ => takenBne vj vk
  | .add _ _ _ | .sub _ _ _ | .and _ _ _ | .or _ _ _ | .xor _ _ _ | .slt _ _ _ | .addi _ _ _
  | .lw _ _ _ | .sw _ _ _ | .jal _ _ | .jalr _ _ _ | .nop => false

/-- The address fetch continues at after `i` at `pc`, in the direction `taken` (R174, R213). -/
def nextFetch (i : Instr) (taken : Bool) (pc : Word) : Word :=
  match i with
  | .beq _ _ imm | .bne _ _ imm => if taken then branchTarget pc imm else fallThrough pc
  | .jal _ imm => branchTarget pc imm
  | .add _ _ _ | .sub _ _ _ | .and _ _ _ | .or _ _ _ | .xor _ _ _ | .slt _ _ _ | .addi _ _ _
  | .lw _ _ _ | .sw _ _ _ | .jalr _ _ _ | .nop => fallThrough pc

/-- What a program computes on: the registers and data memory. -/
structure Data where
  arf : Vector Word 32
  mem : Memory
  deriving DecidableEq, Repr

/-- The committed data of a state. -/
def State.data (s : State) : Data := ⟨s.arf, s.mem⟩

/-- The value of a register (R22). -/
def Data.read (d : Data) (r : Reg) : Word := if r = 0 then 0 else d.arf[r]

/-- The immediate of an instruction, 0 when absent (R111). -/
def immOf (i : Instr) : Word := (i.record 0).imm

/-- The effective address of a load or store (R160). -/
def Data.ea (d : Data) (i : Instr) : Word := effectiveAddress (d.read i.slotJ) (immOf i)

/-- The result of an instruction: the word a load reads, what the operands give for every other. -/
def Data.value (c : Config) (d : Data) (i : Instr) : Word :=
  if i.op = .lw then
    if wordIndex (d.ea i) < c.memWords then memWord d.mem (wordIndex (d.ea i)) else 0
  else resultOf i (d.read i.slotJ) (d.read i.slotK)

/-- The direction of a conditional branch. -/
def Data.taken (d : Data) (i : Instr) : Bool := takenOf i (d.read i.slotJ) (d.read i.slotK)

/-- The data after an instruction (R190). It has a value behind a bad address too, on which the reference
faults: a load there reads what R77 gives, and nothing behind it ever commits (R262). -/
def Data.run (c : Config) (d : Data) (i : Instr) : Data :=
  { arf := if i.op.writesReg = true ∧ i.rd ≠ 0 then d.arf.set i.rd (d.value c i) else d.arf
    mem := if i.op = .sw then setMemWord (wordIndex (d.ea i)) (d.read i.slotK) d.mem else d.mem }

/-- The instruction at an address of the program store, `NOP` where there is none. -/
def instrAt (p : Program) (a : Word) : Instr :=
  match p.lookup a with
  | some r => r.instr
  | none => .nop

/-- The data after the instructions of a list of ROB entries. -/
def Data.runAll (c : Config) (p : Program) (d : Data) (l : List RobEntry) : Data :=
  l.foldl (fun d e => d.run c (instrAt p e.pc)) d

/-- The data the instruction of tag `x` sees: what the ROB entries before it make of the committed data. -/
def State.dataBefore (s : State) (x : Nat) : Data :=
  s.data.runAll s.cfg s.program (s.rob.filter fun e => e.tag < x)

/-- The entry writes register `r`. -/
def RobEntry.Writes (e : RobEntry) (r : Reg) : Prop := e.rd = r ∧ e.op.writesReg = true

/-- The entry of tag `x` is the youngest before tag `dest` that writes `r`. -/
structure Youngest (rob : List RobEntry) (r : Reg) (dest x : Nat) : Prop where
  nonzero : r ≠ 0
  older : x < dest
  entry : ∃ e ∈ rob, e.tag = x ∧ e.Writes r
  last : ∀ e ∈ rob, e.Writes r → e.tag < dest → e.tag ≤ x

/-- An operand slot for register `r` of the instruction of tag `dest`, which sees the data `d`: a tag of
the youngest writer before it, or the register's value there. -/
structure SlotOk (rob : List RobEntry) (d : Data) (r : Reg) (dest : Nat) (v : Word) (q : Option Nat) :
    Prop where
  value : q = none → v = d.read r
  tag : ∀ x, q = some x → Youngest rob r dest x

/-- The address the first entry of a list of ROB entries stands at, `pc` where the list is empty. -/
def headPc : List RobEntry → Word → Word
  | [], pc => pc
  | e :: _, _ => e.pc

/-- Each entry stands where its predecessor continues as predicted, and `pc` where the last one does. -/
def OnPath (p : Program) : List RobEntry → Word → Prop
  | [], _ => True
  | e :: l, pc => headPc l pc = nextFetch (instrAt p e.pc) e.pred e.pc ∧ OnPath p l pc

/-- What the queues hold, in terms of the sequential reading: every entry is an instruction of the program
store on the predicted path, every result and every operand is the one its instruction has after the
instructions before it in the ROB, every LSQ entry that is resolved has the address and data of its
instruction, and a register that the RAT leaves in the register file has no writer in flight. -/
structure State.DataInv (s : State) : Prop where
  fetched : ∀ e ∈ s.rob, (∃ r, s.program.lookup e.pc = some r) ∧
    (instrAt s.program e.pc).op = e.op ∧ (instrAt s.program e.pc).rd = e.rd
  stationFetched : ∀ st ∈ s.stations, st.busy = true → instrAt s.program st.instr.pc = st.instr.instr
  path : OnPath s.program s.rob s.pc
  slots : ∀ st ∈ s.stations, st.busy = true →
    SlotOk s.rob (s.dataBefore st.dest) st.instr.instr.slotJ st.dest st.vj st.qj ∧
    SlotOk s.rob (s.dataBefore st.dest) st.instr.instr.slotK st.dest st.vk st.qk
  results : ∀ e ∈ s.rob, e.ready = true →
    e.result = (s.dataBefore e.tag).value s.cfg (instrAt s.program e.pc) ∧
    (e.op.isCondBranch = true → e.target =
      nextFetch (instrAt s.program e.pc) ((s.dataBefore e.tag).taken (instrAt s.program e.pc)) e.pc)
  queue : ∀ q ∈ s.lsq, ∀ e ∈ s.rob, e.tag = q.tag → q.memReady = true →
    q.addr = some ((s.dataBefore e.tag).ea (instrAt s.program e.pc)) ∧
    (e.op = .sw → q.data = some ((s.dataBefore e.tag).read (instrAt s.program e.pc).slotK))
  unnamed : ∀ r : Reg, r ≠ 0 → s.rat[r] = .architectural → ∀ e ∈ s.rob, ¬ e.Writes r

/-- The reference state `u` stands where the architectural state of the core `s` does. -/
structure Tracks (u s : State) : Prop where
  cfg : u.cfg = s.cfg
  program : u.program = s.program
  arf : u.arf = s.arf
  mem : u.mem = s.mem
  pc : u.pc = s.archPc

/-! ## Words that statements use -/

/-- Nothing is in flight (the state of a machine at reset, after a flush or at the end of a run): empty
queues, free stations, no renamed register, no fault, `stage` at rest. -/
structure State.Drained (s : State) : Prop where
  rob : s.rob = []
  lsq : s.lsq = []
  stations : ∀ st ∈ s.stations, st.busy = false
  rat : ∀ i : Reg, s.rat[i] = .architectural
  fault : s.fault = none
  atRest : s.stage = .reference

/-- The remaining execute cycles of the instruction of tag `t`, 0 when no busy station holds it. -/
def State.remaining (s : State) (t : Nat) : Nat :=
  match s.stations.find? fun st => st.busy && st.dest == t with
  | some st => st.rem
  | none => 0

/-- The fields of a ROB entry that Issue sets for good (R27). -/
def RobEntry.identity (e : RobEntry) : Nat × Op × Reg × Word × Bool := (e.tag, e.op, e.rd, e.pc, e.pred)

/-- The rule of a computing instruction (R140 to R146): in the sequential reference the destination takes
`value` unless it is register 0, `pc` goes to `pc + 4` and nothing else changes; in Execute the
station's `result` is broadcast and the station freed. -/
def Computes (i : Instr) (rd : Reg) (value : State → Word) (result : Station → Word) : Prop :=
  ∀ s : State,
    (s.stage = .reference →
      exec i s = .next { s with
        arf := if rd = 0 then s.arf else s.arf.set rd (value s)
        pc := s.pc + 4 }) ∧
    (∀ p k st, s.stage = .execute p k → s.station? p k = some st →
      exec i s = .next ((s.broadcast st.dest (result st)).freeStationAt p k st))

/-- The commit of a head `h` that changes no memory (R264, R267, R268): the register `rd` takes the
result and its RAT entry reverts if it still names `h`, unless `rd` is register 0; waiting stations
take the result; the head is popped and counted. -/
def State.afterCommit (s : State) (rd : Reg) (h : RobEntry) : State :=
  { s with
    arf := if rd = 0 then s.arf else s.arf.set rd h.result
    rat := if rd ≠ 0 ∧ s.rat[rd] = .renamed h.tag then s.rat.set rd .architectural else s.rat
    alu := s.alu.map fun st => if st.busy then st.capture h.tag h.result else st
    ls := s.ls.map fun st => if st.busy then st.capture h.tag h.result else st
    rob := s.rob.tail
    counters := { s.counters with committed := s.counters.committed + 1 } }

/-! ## Runs -/

/-- The states of the runs of program `p` under the parameters `c`: the reset state and what steps make
of it (R186). -/
inductive Reachable (c : Config) (p : Program) : State → Prop where
  | reset : Reachable c p (State.resetWith c p)
  | step (s t : State) : Reachable c p s → Sys2Proof.Machine.step s = .next t → Reachable c p t

end Sys2Proof.Machine
end

