-- ==== Sys2Proof/Certificates/Slice0/Obligations.lean ====
section
/-! DEFINITION. The statements for the provers, from the numbered rules of spec/. Where a statement rests
on a choice of the model or on an inference the spec marks as its own, its docstring says so. -/

open Sys2Proof Sys2Proof.Machine

/-! ## Encoding: the optional word form, general knowledge in the spec (log 4) -/

/-- Decoding the word of an instruction gives it back, for every instruction that has a word form, at
every value of its operands (R117, R118, R120). -/
def Obligations.DecodeOfEncodeIsTheInstruction : Prop :=
  ∀ i : Instr, i.hasWordForm = true → decode (encode i) = some i

/-- A word that decodes is the word of the instruction it decodes to, which has a word form: no bit of
a word is dropped and no two words spell one instruction (R117, R118). -/
def Obligations.EncodeOfDecodeIsTheWord : Prop :=
  ∀ (w : Word) (i : Instr), decode w = some i → i.hasWordForm = true ∧ encode i = w

/-- The variant a word decodes to is the first row of the mask and match table it matches, NOP tried
first, and a word that matches no row decodes to nothing (R119, R120, R121). -/
def Obligations.DecodeFollowsTheMaskTable : Prop :=
  ∀ w : Word, (decode w).map Instr.op = spelledOp w

/-- A few words written out from the spec's encodings decode to what they stand for (R117 to R120). -/
def Obligations.SpelledWordsDecode : Prop :=
  decode 0x01DF0FB3 = some (.add 31 30 29) ∧
  decode 0x800F8F93 = some (.addi 31 31 (BitVec.ofInt 32 (-2048))) ∧
  decode 0x00000013 = some .nop ∧
  decode 0xFE74AC23 = some (.sw 9 7 (BitVec.ofInt 32 (-8))) ∧
  decode 0x80208063 = some (.beq 1 2 (BitVec.ofInt 32 (-4096))) ∧
  decode 0x7FFFF0EF = some (.jal 1 1048574) ∧
  decode 0x00000073 = none

/-- The decoded record determines the instruction: a record is well formed at `a` exactly when `a` is a
multiple of 4 and the record is that of its own instruction at `a` (R111, R113, R115). -/
def Obligations.RecordIsThatOfItsInstruction : Prop :=
  ∀ (r : Record) (a : Word), r.wf a = true ↔ a.toNat % 4 = 0 ∧ r.instr.record a = r

/-! ## The instructions: the record, the architectural effect and what Execute computes -/

/-- R140: format R; the sum modulo 2^32; no fault. -/
def Obligations.AddGivesTheSum : Prop :=
  ∀ rd rs1 rs2 : Reg, (∀ pc, (Instr.add rd rs1 rs2).record pc = ⟨pc, .add, rd, rs1, rs2, 0⟩) ∧
    Computes (.add rd rs1 rs2) rd (fun s => s.readReg rs1 + s.readReg rs2) (fun st => st.vj + st.vk)

/-- R141: format R; the difference modulo 2^32; no fault. -/
def Obligations.SubGivesTheDifference : Prop :=
  ∀ rd rs1 rs2 : Reg, (∀ pc, (Instr.sub rd rs1 rs2).record pc = ⟨pc, .sub, rd, rs1, rs2, 0⟩) ∧
    Computes (.sub rd rs1 rs2) rd (fun s => s.readReg rs1 - s.readReg rs2) (fun st => st.vj - st.vk)

/-- R142, R143, R144: format R; bit by bit; no fault. -/
def Obligations.AndOrXorAreBitwise : Prop :=
  ∀ rd rs1 rs2 : Reg,
    (∀ pc, (Instr.and rd rs1 rs2).record pc = ⟨pc, .and, rd, rs1, rs2, 0⟩ ∧
      (Instr.or rd rs1 rs2).record pc = ⟨pc, .or, rd, rs1, rs2, 0⟩ ∧
      (Instr.xor rd rs1 rs2).record pc = ⟨pc, .xor, rd, rs1, rs2, 0⟩) ∧
    Computes (.and rd rs1 rs2) rd (fun s => s.readReg rs1 &&& s.readReg rs2) (fun st => st.vj &&& st.vk) ∧
    Computes (.or rd rs1 rs2) rd (fun s => s.readReg rs1 ||| s.readReg rs2) (fun st => st.vj ||| st.vk) ∧
    Computes (.xor rd rs1 rs2) rd (fun s => s.readReg rs1 ^^^ s.readReg rs2) (fun st => st.vj ^^^ st.vk)

/-- R145: format R; the comparison is signed and the result is 1 or 0; no fault. -/
def Obligations.SltComparesSigned : Prop :=
  ∀ rd rs1 rs2 : Reg, (∀ pc, (Instr.slt rd rs1 rs2).record pc = ⟨pc, .slt, rd, rs1, rs2, 0⟩) ∧
    Computes (.slt rd rs1 rs2) rd
      (fun s => if (s.readReg rs1).toInt < (s.readReg rs2).toInt then 1 else 0)
      (fun st => if st.vj.toInt < st.vk.toInt then 1 else 0)

/-- R146: format I, any 32-bit immediate; the sum modulo 2^32; the second operand slot names register 0;
no fault. -/
def Obligations.AddiAddsTheImmediate : Prop :=
  ∀ (rd rs1 : Reg) (imm : Word),
    (∀ pc, (Instr.addi rd rs1 imm).record pc = ⟨pc, .addi, rd, rs1, 0, imm⟩) ∧
    (Instr.addi rd rs1 imm).slotK = 0 ∧
    Computes (.addi rd rs1 imm) rd (fun s => s.readReg rs1 + imm) (fun st => st.vj + imm)

/-- R147: format N; `NOP` only advances `pc`; in Execute its result is 0; at Commit it is popped and
counted and writes no register. -/
def Obligations.NopOnlyAdvances : Prop :=
  ∀ s : State,
    (∀ pc, Instr.nop.record pc = ⟨pc, .nop, 0, 0, 0, 0⟩) ∧
    (s.stage = .reference → exec .nop s = .next { s with pc := s.pc + 4 }) ∧
    (∀ p k st, s.stage = .execute p k → s.station? p k = some st →
      exec .nop s = .next ((s.broadcast st.dest 0).freeStationAt p k st)) ∧
    (∀ h tl, s.stage = .commit → s.rob = h :: tl → exec .nop s = .next (s.afterCommit 0 h))

/-- R161, architectural effect: the word at the effective address, both faults, misalignment first. -/
def Obligations.LwLoadsTheWord : Prop :=
  ∀ (rd rs1 : Reg) (imm : Word) (s : State) (ea : Word), s.stage = .reference →
    ea = s.readReg rs1 + imm →
    (ea.toNat % 4 ≠ 0 → exec (.lw rd rs1 imm) s = .fault (.memMisaligned s.pc ea)) ∧
    (ea.toNat % 4 = 0 → s.cfg.memWords ≤ ea.toNat / 4 →
      exec (.lw rd rs1 imm) s = .fault (.memOutOfRange s.pc ea)) ∧
    (ea.toNat % 4 = 0 → ea.toNat / 4 < s.cfg.memWords →
      exec (.lw rd rs1 imm) s = .next { s with
        arf := if rd = 0 then s.arf else s.arf.set rd (memWord s.mem (ea.toNat / 4))
        pc := s.pc + 4 })

/-- R162, architectural effect: the word at the effective address becomes the register, every byte
outside that word reads as before, both faults, misalignment first. -/
def Obligations.SwStoresTheWord : Prop :=
  ∀ (rs1 rs2 : Reg) (imm : Word) (s : State) (ea : Word), s.stage = .reference →
    ea = s.readReg rs1 + imm →
    (ea.toNat % 4 ≠ 0 → exec (.sw rs1 rs2 imm) s = .fault (.memMisaligned s.pc ea)) ∧
    (ea.toNat % 4 = 0 → s.cfg.memWords ≤ ea.toNat / 4 →
      exec (.sw rs1 rs2 imm) s = .fault (.memOutOfRange s.pc ea)) ∧
    (ea.toNat % 4 = 0 → ea.toNat / 4 < s.cfg.memWords → s.mem.wf = true →
      ∃ m : Memory, exec (.sw rs1 rs2 imm) s = .next { s with mem := m, pc := s.pc + 4 } ∧
        m.wf = true ∧ memWord m (ea.toNat / 4) = s.readReg rs2 ∧
        ∀ a : Nat, ¬ (ea.toNat ≤ a ∧ a < ea.toNat + 4) → readByte m a = readByte s.mem a)

/-- R170, architectural effect, Execute: taken when the comparands are equal in all 32 bits. -/
def Obligations.BeqBranchesWhenEqual : Prop :=
  ∀ (rs1 rs2 : Reg) (imm : Word) (s : State),
    (s.stage = .reference → exec (.beq rs1 rs2 imm) s =
      .next { s with pc := if s.readReg rs1 = s.readReg rs2 then s.pc + imm else s.pc + 4 }) ∧
    (∀ p k st, s.stage = .execute p k → s.station? p k = some st →
      exec (.beq rs1 rs2 imm) s = .next (({ s with rob := robUpdate st.dest (fun e => { e with
          target := if st.vj = st.vk then st.instr.pc + imm else st.instr.pc + 4 }) s.rob }.broadcast
        st.dest (if st.vj = st.vk then 1 else 0)).freeStationAt p k st))

/-- R171, architectural effect, Execute: taken when the comparands differ. -/
def Obligations.BneBranchesWhenDifferent : Prop :=
  ∀ (rs1 rs2 : Reg) (imm : Word) (s : State),
    (s.stage = .reference → exec (.bne rs1 rs2 imm) s =
      .next { s with pc := if s.readReg rs1 ≠ s.readReg rs2 then s.pc + imm else s.pc + 4 }) ∧
    (∀ p k st, s.stage = .execute p k → s.station? p k = some st →
      exec (.bne rs1 rs2 imm) s = .next (({ s with rob := robUpdate st.dest (fun e => { e with
          target := if st.vj ≠ st.vk then st.instr.pc + imm else st.instr.pc + 4 }) s.rob }.broadcast
        st.dest (if st.vj ≠ st.vk then 1 else 0)).freeStationAt p k st))

/-- R172: format J; `pc + imm`, no register written; Issue redirects without the predictor and leaves the RAT
alone; the result is 0; Commit only pops and counts. -/
def Obligations.JalJumpsWithoutLink : Prop :=
  ∀ (rd : Reg) (imm : Word) (s : State),
    (∀ pc, (Instr.jal rd imm).record pc = ⟨pc, .jal, rd, 0, 0, imm⟩) ∧
    (s.stage = .reference → exec (.jal rd imm) s = .next { s with pc := s.pc + imm }) ∧
    (∀ k, s.stage = .issue k → ∃ t, exec (.jal rd imm) s = .next t ∧ t.pc = s.pc + imm ∧
      t.rat = s.rat ∧ t.bp = s.bp ∧
      t.rob = s.rob ++ [⟨s.nextTag, .jal, rd, s.pc, false, 0, false, 0⟩]) ∧
    (∀ p k st, s.stage = .execute p k → s.station? p k = some st →
      exec (.jal rd imm) s = .next ((s.broadcast st.dest 0).freeStationAt p k st)) ∧
    (∀ h tl, s.stage = .commit → s.rob = h :: tl →
      exec (.jal rd imm) s = .next (s.afterCommit 0 h))

/-- R173: under `JALR_MODE = nop` every stage treats it as `NOP`, whatever its fields; under `refuse` the
sequential reading refuses it by name (log 18). -/
def Obligations.JalrActsAsNop : Prop :=
  ∀ (rd rs1 : Reg) (imm : Word) (s : State),
    (s.stage = .reference → s.cfg.jalrMode = .nop →
      exec (.jalr rd rs1 imm) s = .next { s with pc := s.pc + 4 }) ∧
    (s.stage = .reference → s.cfg.jalrMode = .refuse →
      exec (.jalr rd rs1 imm) s = .refused (.jalrReserved s.pc)) ∧
    (∀ k, s.stage = .issue k → ∃ t, exec (.jalr rd rs1 imm) s = .next t ∧ t.pc = s.pc + 4 ∧
      t.rat = s.rat ∧ t.bp = s.bp ∧
      t.rob = s.rob ++ [⟨s.nextTag, .jalr, rd, s.pc, false, 0, false, 0⟩]) ∧
    (∀ p k st, s.stage = .execute p k → s.station? p k = some st →
      exec (.jalr rd rs1 imm) s = .next ((s.broadcast st.dest 0).freeStationAt p k st)) ∧
    (∀ h tl, s.stage = .commit → s.rob = h :: tl →
      exec (.jalr rd rs1 imm) s = .next (s.afterCommit 0 h))

/-! ## Issue -/

/-- R206: the value and tag of a source register. That register 0 gives 0 and never waits, in every state,
is R22, derived for `Rename` in R207 and hard-wired in the model's accessors (log 15). -/
def Obligations.RenameReadsTheNewestProducer : Prop :=
  ∀ s : State, s.rename 0 = (0, none) ∧ ∀ i : Reg, i ≠ 0 →
    (s.rat[i] = .architectural → s.rename i = (s.arf[i], none)) ∧
    (∀ p e, s.rat[i] = .renamed p → robFind s.rob p = some e → e.ready = true →
      s.rename i = (e.result, none)) ∧
    (∀ p e, s.rat[i] = .renamed p → robFind s.rob p = some e → e.ready = false →
      s.rename i = (0, some p))

/-- R205, R208 to R213 for each of the 14 instructions: what one issue attempt allocates, and that it
changes nothing else. The table is written out per constructor: the record (R113), the registers of the
slots j and k (R205), and pool, latency, LSQ kind, `writes_reg` and `is_cond_branch` (R116). -/
def Obligations.IssueAllocatesInOrder : Prop :=
  ∀ (i : Instr) (k : Nat) (s : State) (r : Record) (j2 k2 : Reg) (pool : PoolId) (lat : Nat)
    (kind : Option LsqKind) (writes cond : Bool),
    (r, j2, k2, pool, lat, kind, writes, cond) = (match i with
      | .add rd rs1 rs2 => (⟨s.pc, .add, rd, rs1, rs2, 0⟩, rs1, rs2, .alu, s.cfg.latAlu, none, true, false)
      | .sub rd rs1 rs2 => (⟨s.pc, .sub, rd, rs1, rs2, 0⟩, rs1, rs2, .alu, s.cfg.latAlu, none, true, false)
      | .and rd rs1 rs2 => (⟨s.pc, .and, rd, rs1, rs2, 0⟩, rs1, rs2, .alu, s.cfg.latAlu, none, true, false)
      | .or rd rs1 rs2 => (⟨s.pc, .or, rd, rs1, rs2, 0⟩, rs1, rs2, .alu, s.cfg.latAlu, none, true, false)
      | .xor rd rs1 rs2 => (⟨s.pc, .xor, rd, rs1, rs2, 0⟩, rs1, rs2, .alu, s.cfg.latAlu, none, true, false)
      | .slt rd rs1 rs2 => (⟨s.pc, .slt, rd, rs1, rs2, 0⟩, rs1, rs2, .alu, s.cfg.latAlu, none, true, false)
      | .addi rd rs1 imm => (⟨s.pc, .addi, rd, rs1, 0, imm⟩, rs1, 0, .alu, s.cfg.latAlu, none, true, false)
      | .lw rd rs1 imm => (⟨s.pc, .lw, rd, rs1, 0, imm⟩, rs1, 0, .ls, s.cfg.latLoad, some .load, true, false)
      | .sw rs1 rs2 imm =>
        (⟨s.pc, .sw, 0, rs1, rs2, imm⟩, rs1, rs2, .ls, s.cfg.latStore, some .store, false, false)
      | .beq rs1 rs2 imm => (⟨s.pc, .beq, 0, rs1, rs2, imm⟩, rs1, rs2, .alu, s.cfg.latBranch, none, false, true)
      | .bne rs1 rs2 imm => (⟨s.pc, .bne, 0, rs1, rs2, imm⟩, rs1, rs2, .alu, s.cfg.latBranch, none, false, true)
      | .jal rd imm => (⟨s.pc, .jal, rd, 0, 0, imm⟩, 0, 0, .alu, s.cfg.latBranch, none, false, false)
      | .jalr rd rs1 imm => (⟨s.pc, .jalr, rd, rs1, 0, imm⟩, 0, 0, .alu, s.cfg.latAlu, none, false, false)
      | .nop => (⟨s.pc, .nop, 0, 0, 0, 0⟩, 0, 0, .alu, s.cfg.latAlu, none, false, false)) →
    s.stage = .issue k → ∃ t, exec i s = .next t ∧
    t.nextTag = s.nextTag + 1 ∧
    t.rob = s.rob ++ [⟨s.nextTag, r.op, r.rd, s.pc, false, 0, cond && s.bp.predict s.pc, 0⟩] ∧
    t.pool pool = (s.pool pool).set k
      { busy := true, op := r.op, vj := (s.rename j2).1, vk := (s.rename k2).1
        qj := (s.rename j2).2, qk := (s.rename k2).2, dest := s.nextTag
        rem := lat, total := lat, instr := r, ea := none } ∧
    (∀ p, p ≠ pool → t.pool p = s.pool p) ∧
    t.lsq = s.lsq ++ (match kind with
      | some kind => [⟨s.nextTag, kind, none, none, false⟩]
      | none => []) ∧
    (∀ x : Reg, t.rat[x] = if x = r.rd ∧ x ≠ 0 ∧ writes = true then .renamed s.nextTag else s.rat[x]) ∧
    t.pc = (match i with
      | .beq _ _ imm | .bne _ _ imm => if s.bp.predict s.pc then s.pc + imm else s.pc + 4
      | .jal _ imm => s.pc + imm
      | _ => s.pc + 4) ∧
    t.l1i = (s.l1i.access s.cfg.l1iHit s.cfg.missPenalty s.pc false).1 ∧
    t.arf = s.arf ∧ t.mem = s.mem ∧ t.bp = s.bp ∧ t.l1d = s.l1d ∧ t.counters = s.counters ∧
    t.fault = s.fault ∧ t.log = s.log ∧ t.cfg = s.cfg ∧ t.program = s.program

/-- R201, R202, R216: an attempt that a stop test ends changes nothing and ends the stage. -/
def Obligations.BlockedIssueChangesNothing : Prop :=
  ∀ (s : State) (n : Nat),
    (s.cfg.robSize ≤ s.rob.length ∨ s.program.lookup s.pc = none ∨
      (∃ r, s.program.lookup s.pc = some r ∧
        ∀ st ∈ (if r.op = .lw ∨ r.op = .sw then s.ls else s.alu), st.busy = true)) →
    issueStage n s = .next s

/-- R203: the station taken is a free one of the instruction's pool, and no station of a lower index is.
Where the stop tests of R201 and R202 pass, an attempt takes it: the instruction at `pc` is issued into
that station and the stage goes on with the attempts left (R215). -/
def Obligations.LowestFreeStationIsTaken : Prop :=
  (∀ (s : State) (i : Instr) (k : Nat) (l : List Station), s.nextIssue = some (i, k) →
    l = (match i with
      | .lw _ _ _ | .sw _ _ _ => s.ls
      | _ => s.alu) →
    (∃ st, l[k]? = some st ∧ st.busy = false) ∧ ∀ j st, j < k → l[j]? = some st → st.busy = true) ∧
  ∀ (s : State) (r : Record) (k : Nat) (l : List Station),
    s.rob.length < s.cfg.robSize → s.program.lookup s.pc = some r →
    l = (if r.op = .lw ∨ r.op = .sw then s.ls else s.alu) →
    (∃ st, l[k]? = some st ∧ st.busy = false) → (∀ j st, j < k → l[j]? = some st → st.busy = true) →
    s.nextIssue = some (r.instr, k) ∧
    ∃ t, exec r.instr (s.atStage (.issue k)) = .next t ∧ ∀ n, issueStage (n + 1) s = issueStage n t

/-! ## Execute -/

/-- R230, R233, R235: one visit. A station that is not busy is skipped; one still waiting after capture
has only captured; one with cycles left only counts; otherwise its instruction completes in this visit.
R231, R245: the Execute stage is the visits of `ALU[0], ALU[1], ..` and then `LS[0], LS[1], ..`, each
station once, each visit on the state the visit before it left. -/
def Obligations.VisitCapturesCountsAndCompletes : Prop :=
  (∀ (s : State) (p : PoolId) (k : Nat) (st : Station), s.station? p k = some st →
    (st.busy = false → visit p k s = .next s) ∧
    (st.busy = true → (st.captureFrom s.rob).wakeable = false →
      visit p k s = .next (s.setStation p k (st.captureFrom s.rob))) ∧
    (st.busy = true → (st.captureFrom s.rob).wakeable = true → 2 ≤ st.rem →
      visit p k s = .next (s.setStation p k (st.captureFrom s.rob).countdown)) ∧
    (st.busy = true → (st.captureFrom s.rob).wakeable = true → st.rem ≤ 1 →
      visit p k s = exec st.instr.instr
        ((s.setStation p k (st.captureFrom s.rob).countdown).atStage (.execute p k)))) ∧
  ∀ s : State, ∃ f : Nat → State, f 0 = s ∧
    (∀ j, j < s.alu.length → visit .alu j (f j) = .next (f (j + 1))) ∧
    (∀ j, j < s.ls.length → visit .ls j (f (s.alu.length + j)) = .next (f (s.alu.length + j + 1))) ∧
    executeStage s = .next (f (s.alu.length + s.ls.length))

/-- R232: each slot that waits for a live, ready entry takes its result and its tag is cleared; any other
slot and every other field is left as it is. -/
def Obligations.CaptureTakesReadyResults : Prop :=
  ∀ (rob : List RobEntry) (st : Station), ∃ vj qj vk qk,
    st.captureFrom rob = { st with vj := vj, qj := qj, vk := vk, qk := qk } ∧
    (∀ p e, st.qj = some p → robFind rob p = some e → e.ready = true → vj = e.result ∧ qj = none) ∧
    ((∀ p e, st.qj = some p → robFind rob p = some e → e.ready = false) → vj = st.vj ∧ qj = st.qj) ∧
    (∀ p e, st.qk = some p → robFind rob p = some e → e.ready = true → vk = e.result ∧ qk = none) ∧
    ((∀ p e, st.qk = some p → robFind rob p = some e → e.ready = false) → vk = st.vk ∧ qk = st.qk)

/-- R234: the first count of a `LW` or `SW` computes the effective address, and no later one changes it;
every count takes one cycle off and nothing else changes. -/
def Obligations.CountdownComputesTheAddress : Prop :=
  ∀ st : Station,
    (st.rem = 0 → st.countdown = st) ∧
    (0 < st.rem → st.countdown = { st with
      rem := st.rem - 1
      ea := if st.rem = st.total ∧ (st.instr.op = .lw ∨ st.instr.op = .sw)
        then some (st.vj + st.instr.imm) else st.ea })

/-- R241: the broadcast fills the entry of the tag and no other; the station is freed and no other
changes. -/
def Obligations.BroadcastFillsTheEntry : Prop :=
  ∀ (s : State) (t : Nat) (v : Word) (p : PoolId) (k : Nat) (st : Station), s.station? p k = some st →
    ∃ u, u = (s.broadcast t v).freeStationAt p k st ∧
      robFind u.rob t = (robFind s.rob t).map (fun e => { e with result := v, ready := true }) ∧
      (∀ t', t' ≠ t → robFind u.rob t' = robFind s.rob t') ∧
      u.station? p k = some { st with busy := false } ∧
      ∀ p' k', (p', k') ≠ (p, k) → u.station? p' k' = s.station? p' k'

/-- R80, R161, R238: a load completes exactly when its gate is open: the L1D read access, the word read,
the LSQ entry, the broadcast; a closed gate changes nothing. -/
def Obligations.LoadWaitsForOlderStores : Prop :=
  ∀ (rd rs1 : Reg) (imm : Word) (s : State) (p : PoolId) (k : Nat) (st : Station) (ea : Word),
    s.stage = .execute p k → s.station? p k = some st → st.ea = some ea →
    (s.cfg.loadGate = .olderStores →
      (∃ pre q post, s.lsq = pre ++ q :: post ∧ q.kind = .store ∧
        ∀ x ∈ pre ++ [q], x.tag ≠ st.dest) →
      exec (.lw rd rs1 imm) s = .next s) ∧
    ((s.cfg.loadGate = .none ∨ ∀ q ∈ s.lsq.takeWhile (fun x => x.tag != st.dest), q.kind = .load) →
      exec (.lw rd rs1 imm) s = .next (({ s with
          l1d := (s.l1d.access s.cfg.l1dHit s.cfg.missPenalty ea false).1
          lsq := lsqUpdate st.dest (fun q => { q with addr := some ea, memReady := true }) s.lsq }.broadcast
        st.dest (if ea.toNat / 4 < s.cfg.memWords then memWord s.mem (ea.toNat / 4) else 0)).freeStationAt
          p k st))

/-- R239: a store's Execute records address and data in its LSQ entry and touches neither memory nor the
L1D. -/
def Obligations.StoreExecutesIntoTheQueue : Prop :=
  ∀ (rs1 rs2 : Reg) (imm : Word) (s : State) (p : PoolId) (k : Nat) (st : Station) (ea : Word),
    s.stage = .execute p k → s.station? p k = some st → st.ea = some ea →
    ∃ t, exec (.sw rs1 rs2 imm) s = .next t ∧ t.mem = s.mem ∧ t.l1d = s.l1d ∧
      t.lsq = lsqUpdate st.dest
        (fun q => { q with addr := some ea, data := some st.vk, memReady := true }) s.lsq ∧
      t.rob = robUpdate st.dest (fun e => { e with result := st.vk, ready := true }) s.rob ∧
      t.pool p = (s.pool p).set k { st with busy := false }

/-- R21, R34, R78: the Execute stage always answers, and it changes neither the register file, the RAT,
`pc`, memory, the predictor, the tag counter nor any counter; it adds no queue entry and removes none. -/
def Obligations.ExecuteStageKeepsTheArchitecture : Prop :=
  ∀ s : State, ∃ t, executeStage s = .next t ∧
    t.arf = s.arf ∧ t.rat = s.rat ∧ t.pc = s.pc ∧ t.mem = s.mem ∧ t.bp = s.bp ∧
    t.nextTag = s.nextTag ∧ t.counters = s.counters ∧ t.fault = s.fault ∧ t.log = s.log ∧
    t.l1i = s.l1i ∧ t.cfg = s.cfg ∧ t.program = s.program ∧
    t.rob.map RobEntry.identity = s.rob.map RobEntry.identity ∧
    t.lsq.map (fun q => (q.tag, q.kind)) = s.lsq.map (fun q => (q.tag, q.kind))

/-! ## Commit -/

/-- R264, R267, R268: the commit of the eight variants that write a register, a load among them once its
checks have passed: the register, the RAT entry, the waiting stations, the pop and the count. -/
def Obligations.CommitWritesTheRegister : Prop :=
  ∀ (rd rs1 rs2 : Reg) (imm : Word) (s : State) (h : RobEntry) (tl : List RobEntry),
    s.stage = .commit → s.rob = h :: tl →
    (∀ i ∈ [Instr.add rd rs1 rs2, .sub rd rs1 rs2, .and rd rs1 rs2, .or rd rs1 rs2, .xor rd rs1 rs2,
        .slt rd rs1 rs2, .addi rd rs1 imm], exec i s = .next (s.afterCommit rd h)) ∧
    (∀ q ql a, s.lsq = q :: ql → q.tag = h.tag → q.memReady = true → q.addr = some a →
      a.toNat % 4 = 0 → a.toNat / 4 < s.cfg.memWords →
      exec (.lw rd rs1 imm) s = .next { s.afterCommit rd h with lsq := ql })

/-- R262, R265, R266, R267, R268: the commit of a store writes its word, from the LSQ entry, through one
L1D write access; every byte outside the word reads as before and no register changes. -/
def Obligations.CommitStoresTheWord : Prop :=
  ∀ (rs1 rs2 : Reg) (imm : Word) (s : State) (h : RobEntry) (tl : List RobEntry) (q : LsqEntry)
    (ql : List LsqEntry) (a v : Word),
    s.stage = .commit → s.rob = h :: tl → s.lsq = q :: ql → q.tag = h.tag → q.memReady = true →
    q.addr = some a → q.data = some v → s.mem.wf = true → a.toNat % 4 = 0 →
    a.toNat / 4 < s.cfg.memWords →
    ∃ m : Memory,
      exec (.sw rs1 rs2 imm) s = .next { s.afterCommit 0 h with
        lsq := ql, mem := m, l1d := (s.l1d.access s.cfg.l1dHit s.cfg.missPenalty a true).1 } ∧
      m.wf = true ∧ memWord m (a.toNat / 4) = v ∧
      ∀ x : Nat, ¬ (a.toNat ≤ x ∧ x < a.toNat + 4) → readByte m x = readByte s.mem x

/-- R261: while the head load or store is not the ready LSQ head, the stage ends and nothing has changed
(but the model's `stage`, log 2). Commit runs only in a machine without a fault (R180). -/
def Obligations.MemoryCommitStalls : Prop :=
  ∀ (s : State) (h : RobEntry) (tl : List RobEntry) (n : Nat),
    s.fault = none → s.rob = h :: tl → h.ready = true → (h.op = .lw ∨ h.op = .sw) →
    (s.lsq = [] ∨ ∃ q ql, s.lsq = q :: ql ∧ (q.tag ≠ h.tag ∨ q.memReady = false)) →
    commitStage (n + 1) s = .next (s.atStage .commit, false)

/-- R180, R262, R335: a step whose head is a load or store with a bad address counts the cycle, latches
and logs the fault, takes the sample, and changes nothing else; every later step does nothing. -/
def Obligations.BadAddressLatchesTheFault : Prop :=
  ∀ (s : State) (h : RobEntry) (tl : List RobEntry) (q : LsqEntry) (ql : List LsqEntry) (a : Word),
    s.Admitted → s.fault = none → s.stage = .reference → s.rob = h :: tl → h.ready = true →
    (h.op = .lw ∨ h.op = .sw) → s.lsq = q :: ql → q.tag = h.tag → q.memReady = true →
    q.addr = some a → (a.toNat % 4 ≠ 0 ∨ s.cfg.memWords ≤ a.toNat / 4) →
    ∃ f k t, (f = if a.toNat % 4 ≠ 0 then Fault.memMisaligned h.pc a else .memOutOfRange h.pc a) ∧
      k = { s.counters with
        cycle := s.counters.cycle + 1
        occRob := ⟨s.counters.occRob.sum + s.rob.length, max s.counters.occRob.max s.rob.length⟩
        occAlu := ⟨s.counters.occAlu.sum + busyCount s.alu, max s.counters.occAlu.max (busyCount s.alu)⟩
        occLs := ⟨s.counters.occLs.sum + busyCount s.ls, max s.counters.occLs.max (busyCount s.ls)⟩
        occLsq := ⟨s.counters.occLsq.sum + s.lsq.length, max s.counters.occLsq.max s.lsq.length⟩ } ∧
      t = { s with
        fault := some f
        log := s.log ++ [.fault (s.counters.cycle + 1) f]
        counters := k } ∧
      step s = .next t ∧ step t = .next t

/-- R187: a faulted state does not change. -/
def Obligations.FaultedStateIsAbsorbing : Prop :=
  ∀ s : State, s.Admitted → s.fault ≠ none → step s = .next s

/-- R263, R272, R273, R274: a step whose head is a mispredicted branch trains the predictor, discards
everything speculative, restarts fetch at the branch's target, counts the branch and the flush, and
leaves registers, memory, caches and the tag counter alone. -/
def Obligations.MispredictFlushes : Prop :=
  ∀ (s : State) (h : RobEntry) (tl : List RobEntry),
    s.Admitted → s.fault = none → s.rob = h :: tl → h.ready = true →
    (h.op = .beq ∨ h.op = .bne) → h.pred ≠ decide (h.result = 1) →
    ∃ t, step s = .next t ∧
      t.rob = [] ∧ t.lsq = [] ∧ (∀ st ∈ t.stations, st.busy = false) ∧
      (∀ i : Reg, t.rat[i] = .architectural) ∧ t.pc = h.target ∧
      t.bp = s.bp.update h.pc (decide (h.result = 1)) ∧
      t.counters.flushes = s.counters.flushes + 1 ∧
      t.counters.bpTotal = s.counters.bpTotal + 1 ∧
      t.counters.bpCorrect = s.counters.bpCorrect ∧
      t.counters.committed = s.counters.committed ∧
      t.counters.cycle = s.counters.cycle + 1 ∧
      t.log = s.log ++ [.mispredict (s.counters.cycle + 1) h.pc h.target] ∧
      t.arf = s.arf ∧ t.mem = s.mem ∧ t.l1i = s.l1i ∧ t.l1d = s.l1d ∧ t.nextTag = s.nextTag ∧
      t.fault = none

/-- R263, R268: a correctly predicted branch trains the predictor, is counted and is popped. -/
def Obligations.CorrectBranchRetires : Prop :=
  ∀ (rs1 rs2 : Reg) (imm : Word) (s : State) (h : RobEntry) (tl : List RobEntry),
    s.stage = .commit → s.rob = h :: tl → h.pred = decide (h.result = 1) →
    ∀ i ∈ [Instr.beq rs1 rs2 imm, .bne rs1 rs2 imm],
      exec i s = .next { s.afterCommit 0 h with
        bp := s.bp.update h.pc h.pred
        counters := { s.counters with
          committed := s.counters.committed + 1
          bpTotal := s.counters.bpTotal + 1
          bpCorrect := s.counters.bpCorrect + 1 } }

/-- R26, R183, R269, R330: one step commits at most `COMMIT_WIDTH`, allocates at most `WIDTH` tags, never
lowers the tag counter, and flushes at most once. It issues fewer than `WIDTH` only where it flushed or
faulted or a stop test holds of the state it ends in (R201, R202). It commits fewer than `COMMIT_WIDTH`,
`n`, only where the ROB has no entry at `n`, the entry there is not ready, is a load or store that fails
the memory check (R261; an entry with an unknown field waits, log 10) or has the bad address that is
latched (R262), or the step flushes there (R269, R270). Each attempt is the commit of the head. -/
def Obligations.WidthsBoundTheStep : Prop :=
  (∀ s t : State, s.Admitted → step s = .next t →
    s.counters.committed ≤ t.counters.committed ∧ s.counters.flushes ≤ t.counters.flushes ∧
    t.counters.committed + t.counters.flushes ≤
      s.counters.committed + s.counters.flushes + s.cfg.commitWidth ∧
    t.counters.flushes ≤ s.counters.flushes + 1 ∧
    s.nextTag ≤ t.nextTag ∧ t.nextTag ≤ s.nextTag + s.cfg.width) ∧
  (∀ s t : State, s.Admitted → s.fault = none → step s = .next t →
    t.nextTag < s.nextTag + s.cfg.width →
    t.fault ≠ none ∨ t.counters.flushes = s.counters.flushes + 1 ∨ s.cfg.robSize ≤ t.rob.length ∨
      t.program.lookup t.pc = none ∨ ∃ r, t.program.lookup t.pc = some r ∧
        ∀ st ∈ (if r.op = .lw ∨ r.op = .sw then t.ls else t.alu), st.busy = true) ∧
  (∀ (s t : State) (n : Nat) (q : Option LsqEntry), s.Admitted → s.fault = none → step s = .next t →
    t.counters.committed = s.counters.committed + n →
    q = s.lsq[(s.rob.take n).countP (fun e => e.op = .lw ∨ e.op = .sw)]? →
    (t.fault = none → n < s.cfg.commitWidth → t.counters.flushes = s.counters.flushes →
      s.rob[n]? = none ∨ ∃ e, s.rob[n]? = some e ∧ (e.ready = false ∨ ((e.op = .lw ∨ e.op = .sw) ∧
        ∀ l, q = some l → l.tag ≠ e.tag ∨ l.memReady = false ∨ l.addr = none ∨
          (e.op = .sw ∧ l.data = none)))) ∧
    ∀ f, t.fault = some f → ∃ e l a, s.rob[n]? = some e ∧ e.ready = true ∧ (e.op = .lw ∨ e.op = .sw) ∧
      q = some l ∧ l.tag = e.tag ∧ l.memReady = true ∧ l.addr = some a ∧
      ((a.toNat % 4 ≠ 0 ∧ f = .memMisaligned e.pc a) ∨
        (a.toNat % 4 = 0 ∧ s.cfg.memWords ≤ a.toNat / 4 ∧ f = .memOutOfRange e.pc a))) ∧
  ∀ (s u : State) (h : RobEntry) (tl : List RobEntry) (i : Instr) (n : Nat),
    s.fault = none → s.rob = h :: tl → h.ready = true → i.op = h.op →
    (h.op ∈ [Op.add, .sub, .and, .or, .xor, .slt, .addi, .lw] → i.rd = h.rd) →
    exec i (s.atStage .commit) = .next u →
    (u.counters.committed = s.counters.committed + 1 → commitStage (n + 1) s = commitStage n u) ∧
    (u.fault ≠ none ∨ u.counters.flushes ≠ s.counters.flushes → commitStage (n + 1) s = .next (u, true))

/-- R28, R260: the ROB is a queue: a step that does not flush removes the committed entries at the head and
appends the issued ones at the tail, each with the next tags, and keeps the others with what Issue set;
a step that flushes empties it and issues nothing. Every entry committed was ready, so a head that is not
ready keeps everything behind it, and no branch among them was mispredicted (R263). A flush is at a ready
conditional branch that was, behind those committed, and fetch goes on at its target (R272). -/
def Obligations.RobIsAQueue : Prop :=
  ∀ s t : State, s.Admitted → s.fault = none → step s = .next t →
    ∃ (n : Nat) (new : List (Nat × Op × Reg × Word × Bool)),
      t.counters.committed = s.counters.committed + n ∧
      t.nextTag = s.nextTag + new.length ∧
      new.map (·.1) = (List.range new.length).map (s.nextTag + ·) ∧
      (∀ e ∈ s.rob.take n, e.ready = true ∧
        ((e.op = .beq ∨ e.op = .bne) → e.pred = decide (e.result = 1))) ∧
      ((t.counters.flushes = s.counters.flushes ∧
          t.rob.map RobEntry.identity = (s.rob.drop n).map RobEntry.identity ++ new) ∨
       (t.counters.flushes = s.counters.flushes + 1 ∧ t.rob = [] ∧ new = [] ∧
          ∃ e, s.rob[n]? = some e ∧ e.ready = true ∧ (e.op = .beq ∨ e.op = .bne) ∧
            e.pred ≠ decide (e.result = 1) ∧ t.pc = e.target))

/-- R41 I6, R79, R260: memory changes only in a step in which a store commits: the entries that committed
are the first of the ROB, as many as `committed` grew by. -/
def Obligations.OnlyStoreCommitsChangeMemory : Prop :=
  ∀ s t : State, step s = .next t →
    (∀ e ∈ s.rob.take (t.counters.committed - s.counters.committed), e.op ≠ .sw) → t.mem = s.mem

/-- R21, R22, R260, R264: a register changes only in a step in which an entry that writes it commits, and
register 0 in none. -/
def Obligations.OnlyWritersChangeARegister : Prop :=
  ∀ (s t : State) (r : Reg), step s = .next t →
    (∀ e ∈ s.rob.take (t.counters.committed - s.counters.committed), e.rd = r → r ≠ 0 →
      e.op ∉ [Op.add, .sub, .and, .or, .xor, .slt, .addi, .lw]) → t.arf[r] = s.arf[r]

/-- R260, R294, R296: the predictor changes only in a step in which a conditional branch commits or
flushes; the entry a step flushes at follows those it committed. -/
def Obligations.OnlyBranchesTrainThePredictor : Prop :=
  ∀ s t : State, step s = .next t →
    (∀ e ∈ s.rob.take (t.counters.committed - s.counters.committed +
      (t.counters.flushes - s.counters.flushes)), e.op ≠ .beq ∧ e.op ≠ .bne) → t.bp = s.bp

/-! ## Predictor and caches -/

/-- R291, R293: one counter moves, saturating, at the index of the history before the shift; every other
counter stays; the direction is shifted into the history. -/
def Obligations.PredictorUpdateMovesOneCounter : Prop :=
  ∀ (p : Predictor) (pc : Word) (taken : Bool) (i j : BitVec 10), p.Ok →
    i = (pc ^^^ p.ghr.setWidth 32).extractLsb' 0 10 →
    (p.predict pc = true ↔ 2 ≤ (p.counter i).toNat) ∧
    ((p.update pc taken).counter i).toNat =
      (if taken then min 3 ((p.counter i).toNat + 1) else (p.counter i).toNat - 1) ∧
    (j ≠ i → (p.update pc taken).counter j = p.counter j) ∧
    (p.update pc taken).ghr.toNat = (2 * p.ghr.toNat + if taken then 1 else 0) % 1024

/-- R301, R303, R304, R305: the set of an address is given by its bits 10 to 6 and its tag by bits 31 to 11. After an
access the set holds the tag with the newest rank; a hit keeps the other way and adds dirtiness only by a
write; a miss replaces a way of the smallest rank, way 0 on a tie; every other set stays; the counters
count. -/
def Obligations.CacheAccessHitsOrFills : Prop :=
  ∀ (c : Cache) (hitLat penalty : Nat) (a : Word) (isWrite : Bool) (c' : Cache) (hit : Bool) (n : Nat)
    (x : Fin 32) (tag : BitVec 21),
    c.access hitLat penalty a isWrite = (c', hit, n) →
    x.val = (a.extractLsb' 6 5).toNat → tag = a.extractLsb' 11 21 →
    c'.accesses = c.accesses + 1 ∧ c'.lruCounter = c.lruCounter + 1 ∧
    (∀ i : Fin 32, i ≠ x → c'.sets[i] = c.sets[i]) ∧
    (hit = true ↔ ((c.sets[x]).way0.valid = true ∧ (c.sets[x]).way0.tag = tag) ∨
      ((c.sets[x]).way1.valid = true ∧ (c.sets[x]).way1.tag = tag)) ∧
    (hit = true → n = hitLat ∧ c'.hits = c.hits + 1 ∧ c'.misses = c.misses) ∧
    (hit = false → n = hitLat + penalty ∧ c'.hits = c.hits ∧ c'.misses = c.misses + 1 ∧
      c'.sets[x] =
        (if (c.sets[x]).way0.lru ≤ (c.sets[x]).way1.lru
         then { c.sets[x] with way0 := ⟨true, tag, c.lruCounter + 1, isWrite⟩ }
         else { c.sets[x] with way1 := ⟨true, tag, c.lruCounter + 1, isWrite⟩ })) ∧
    ((c.sets[x]).way0.valid = true ∧ (c.sets[x]).way0.tag = tag →
      c'.sets[x] = { c.sets[x] with
        way0 := ⟨true, tag, c.lruCounter + 1, (c.sets[x]).way0.dirty || isWrite⟩ }) ∧
    (¬ ((c.sets[x]).way0.valid = true ∧ (c.sets[x]).way0.tag = tag) →
      (c.sets[x]).way1.valid = true ∧ (c.sets[x]).way1.tag = tag →
      c'.sets[x] = { c.sets[x] with
        way1 := ⟨true, tag, c.lruCounter + 1, (c.sets[x]).way1.dirty || isWrite⟩ })

/-- R300: the caches change nothing a program computes: the step of a state with other caches is the same
step with other caches. -/
def Obligations.CachesNeverChangeTheRest : Prop :=
  ∀ (s t : State) (c d : Cache), step s = .next t →
    ∃ c' d', step { s with l1i := c, l1d := d } = .next { t with l1i := c', l1d := d' }

/-- R36, R330, R335: no rule reads a counter or the log: the step of a state with other counters and
another log is the same step with other counters and another log. -/
def Obligations.CountersAndLogAreNeverRead : Prop :=
  ∀ (s t : State) (k : Counters) (l : List LogEvent), step s = .next t →
    ∃ k' l', step { s with counters := k, log := l } = .next { t with counters := k', log := l' }

/-! ## Reset, the step and the end of a run -/

/-- R44, R350: every piece of state after reset (values the source leaves open are the spec's decision
D3; the fields of an idle station beside `busy`, `log` and `stage` are the model's, logs 2, 7, 14). -/
def Obligations.ResetLoadsTheTable : Prop :=
  ∀ (c : Config) (p : Program) (s : State), s = State.resetWith c p →
    (∀ i : Reg, s.arf[i] = 0) ∧ (∀ i : Reg, s.rat[i] = .architectural) ∧ s.pc = c.resetPc ∧
    s.nextTag = c.firstTag ∧ s.rob = [] ∧ s.lsq = [] ∧
    s.alu.length = c.aluRs ∧ s.ls.length = c.lsRs ∧ (∀ st ∈ s.stations, st.busy = false) ∧
    (∀ x ∈ [s.l1i, s.l1d], (∀ i : Fin 32, x.sets[i] = ⟨⟨false, 0, 0, false⟩, ⟨false, 0, 0, false⟩⟩) ∧
      x.lruCounter = 0 ∧ x.accesses = 0 ∧ x.hits = 0 ∧ x.misses = 0) ∧
    s.bp.ghr = 0 ∧ (∀ i : BitVec 10, s.bp.counter i = 1) ∧
    s.mem = c.memInit ∧ s.fault = none ∧
    s.counters = ⟨0, 0, 0, 0, 0, 0, ⟨0, 0⟩, ⟨0, 0⟩, ⟨0, 0⟩, ⟨0, 0⟩⟩

/-- R8, R115, R329: a step refuses exactly the states whose parameters or program store are not well
formed, and answers a next state in every other. The spec makes these checks before a run; that every
step makes them is the model's choice (log 9), as is the reading of the constraints (logs 12, 13) and
that no step ends in a fault outcome, the fault being latched in the state (log 8). -/
def Obligations.StepRefusesExactlyTheIllFormed : Prop :=
  ∀ s : State,
    ((∃ t, step s = .next t) ↔ (s.cfg.wf = true ∧ s.program.wf s.cfg.jalrMode = true)) ∧
    ((∃ r, step s = .refused r) ↔ ¬ (s.cfg.wf = true ∧ s.program.wf s.cfg.jalrMode = true))

/-- R35, R43: no step changes the parameters or the program store. -/
def Obligations.ParametersAndProgramAreFixed : Prop :=
  ∀ s t : State, step s = .next t → t.cfg = s.cfg ∧ t.program = s.program

/-- R180, R201 to R203, R215: the step runs the decoded instruction: after a Commit that did not abort and
the Execute stage, where the ROB is not full, an instruction stands at `pc` and station `k` is the lowest
free one of its pool, the first issue attempt is `exec` of that instruction, and the rest of the step is
the remaining attempts and the end of the cycle. -/
def Obligations.StepRunsTheDecodedInstruction : Prop :=
  ∀ (s t u : State) (r : Record) (k n : Nat) (l : List Station),
    s.Admitted → s.fault = none → commitStage s.cfg.commitWidth s.beginCycle = .next (t, false) →
    executeStage t = .next u → u.cfg.width = n + 1 →
    u.rob.length < u.cfg.robSize → u.program.lookup u.pc = some r →
    l = (if r.op = .lw ∨ r.op = .sw then u.ls else u.alu) →
    (∃ st, l[k]? = some st ∧ st.busy = false) → (∀ j st, j < k → l[j]? = some st → st.busy = true) →
    ∃ v w, exec r.instr (u.atStage (.issue k)) = .next v ∧ issueStage n v = .next w ∧
      step s = .next w.endCycle

/-- R117, R180, R215: from a drained machine the next step fetches the word placed at `pc` and issues
exactly its instruction, into station 0 of its pool; then only the remaining attempts, the sample and
the cycle count follow. -/
def Obligations.DrainedStepIssuesTheFetchedWord : Prop :=
  ∀ (s : State) (w : Word) (i : Instr), s.Drained → s.ComponentInv →
    (s.withFetchWord 32 w.toNat).Admitted → decode w = some i →
    ∃ v, exec i ((s.withFetchWord 32 w.toNat).beginCycle.atStage (.issue 0)) = .next v ∧
      ∀ u, issueStage (s.cfg.width - 1) v = .next u →
        step (s.withFetchWord 32 w.toNat) = .next u.endCycle

/-- R186: in a halted state (with the invariants, which the empty ROB then makes an empty machine) a step
changes only the cycle count. The occupancy sums take a 0. -/
def Obligations.HaltedStepOnlyCountsTheCycle : Prop :=
  ∀ s : State, s.CoreInv → s.ComponentInv → s.Admitted → s.halted = true →
    step s = .next { s with counters := { s.counters with cycle := s.counters.cycle + 1 } }

/-- R180, R332: every step of a machine without a fault counts one cycle and samples the occupancies of
the state it ends in. -/
def Obligations.EveryCycleIsSampled : Prop :=
  ∀ s t : State, s.Admitted → s.fault = none → step s = .next t →
    t.counters.cycle = s.counters.cycle + 1 ∧
    t.counters.occRob = ⟨s.counters.occRob.sum + t.rob.length, max s.counters.occRob.max t.rob.length⟩ ∧
    t.counters.occAlu = ⟨s.counters.occAlu.sum + busyCount t.alu, max s.counters.occAlu.max (busyCount t.alu)⟩ ∧
    t.counters.occLs = ⟨s.counters.occLs.sum + busyCount t.ls, max s.counters.occLs.max (busyCount t.ls)⟩ ∧
    t.counters.occLsq = ⟨s.counters.occLsq.sum + t.lsq.length, max s.counters.occLsq.max t.lsq.length⟩

/-! ## Invariants -/

/-- R22, R41 I8: register 0 stays 0 and is never renamed. -/
def Obligations.ZeroRegisterIsKept : Prop :=
  ∀ s t : State, s.ZeroRegister → step s = .next t → t.ZeroRegister

/-- The invariants hold after reset: the components' under every admitted configuration and program
(R44), those of R41 (R352) and those of the data in flight under every one. -/
def Obligations.InvariantsHoldAtReset : Prop :=
  ∀ (c : Config) (p : Program), (State.resetWith c p).CoreInv ∧ (State.resetWith c p).DataInv ∧
    (startRefusal c p = none → (State.resetWith c p).ComponentInv)

/-- Every step keeps the component invariants: canonical memory inside its size, pool and ROB sizes,
cache order and counts (R307, R310), predictor form, `stage` at rest (log 2). -/
def Obligations.ComponentInvariantsAreKept : Prop :=
  ∀ s t : State, s.ComponentInv → step s = .next t → t.ComponentInv

/-- Every step keeps the invariants of R41. -/
def Obligations.CoreInvariantsAreKept : Prop :=
  ∀ s t : State, s.CoreInv → s.Admitted → step s = .next t → t.CoreInv

/-- The machine never waits for ever: with the invariants, a head that is not ready is one execute cycle
nearer to completion after a step, or ready; a ready head retires, flushes or latches a fault (what
R267 is for, 90_conflicts.md C4). -/
def Obligations.HeadAlwaysProgresses : Prop :=
  ∀ (s t : State) (h : RobEntry) (tl : List RobEntry),
    s.CoreInv → s.Admitted → s.fault = none → s.rob = h :: tl → step s = .next t →
    (h.ready = true → s.counters.committed < t.counters.committed ∨
      s.counters.flushes < t.counters.flushes ∨ t.fault ≠ none) ∧
    (h.ready = false → ∃ e tl', t.rob = e :: tl' ∧ e.tag = h.tag ∧
      (e.ready = true ∨ t.remaining h.tag < s.remaining h.tag))

/-! ## The core and the sequential reference -/

/-- An instruction alone in a drained machine, no conditional branch and with nothing at its successor,
is issued, executed and committed in `latency + 2` cycles, and leaves registers, memory and `pc` as
its architectural effect does (R148, R163, R164, R178, R190). -/
def Obligations.AloneInstructionReachesItsEffect : Prop :=
  ∀ (s u : State) (r : Record), s.Drained → s.ComponentInv → s.Admitted →
    s.program.lookup s.pc = some r → r.op ≠ .beq → r.op ≠ .bne → refStep s = .next u →
    s.program.lookup u.pc = none →
    ∃ lat t, (lat = match r.op with
      | .add | .sub | .and | .or | .xor | .slt | .addi | .nop | .jalr => s.cfg.latAlu
      | .lw => s.cfg.latLoad
      | .sw => s.cfg.latStore
      | .beq | .bne | .jal => s.cfg.latBranch) ∧
      Host.Core.run Sys2Proof.core (lat + 2) s = .next t ∧
      t.arf = u.arf ∧ t.mem = u.mem ∧ t.pc = u.pc ∧ t.Drained ∧
      t.counters.committed = s.counters.committed + 1

/-- One step of the core is as many instructions of the sequential reference as it commits and flushes
(R190, R260, R276), and keeps what the queues hold: from every state with the invariants, with the load
gate (R80), a reference state `u` that has the registers, memory and architectural pc of `s` reaches by
that many instructions one that has those of `t`; a fault latched is the one the reference raises there.
Committed and flushed are counted alike, as the branch a step flushes at has taken effect. -/
def Obligations.StepFollowsTheReference : Prop :=
  ∀ s t u : State, s.CoreInv → s.DataInv → s.cfg.loadGate = .olderStores → Tracks u s →
    (∀ f, s.fault = some f → refStep u = .fault f) → step s = .next t →
    t.DataInv ∧ ∃ k v,
      t.counters.committed + t.counters.flushes = s.counters.committed + s.counters.flushes + k ∧
      refRun k u = .next v ∧ Tracks v t ∧ ∀ f, t.fault = some f → refStep v = .fault f

/-- Precise state (R260, R276, and the safety half of R191, which the spec derives and has not proved):
with the load gate, in every reachable state of every program the register file, memory and
architectural pc are those of the sequential reference after `committed + flushes` instructions, and a
latched fault is the one the reference raises next. -/
def Obligations.CoreStateIsAReferencePrefix : Prop :=
  ∀ (c : Config) (p : Program) (s : State), c.loadGate = .olderStores → Reachable c p s →
    ∃ t, refRun (s.counters.committed + s.counters.flushes) (State.resetWith c p) = .next t ∧
      t.arf = s.arf ∧ t.mem = s.mem ∧ t.pc = s.archPc ∧
      ∀ f, s.fault = some f → refStep t = .fault f

/-- The liveness half of R191: with the load gate, where the sequential reference ends the core's run
reaches a halted state with its registers, memory and pc, and where it faults the core latches the same
fault. -/
def Obligations.CoreEndsAsTheReferenceEnds : Prop :=
  ∀ (c : Config) (p : Program) (n : Nat) (t : State), startRefusal c p = none →
    c.loadGate = .olderStores → refRun n (State.resetWith c p) = .next t →
    (t.refEnded = true → ∃ s, Reachable c p s ∧ s.halted = true ∧ s.arf = t.arf ∧ s.mem = t.mem ∧
      s.pc = t.pc) ∧
    (∀ f, refStep t = .fault f → ∃ s, Reachable c p s ∧ s.fault = some f ∧ s.arf = t.arf ∧
      s.mem = t.mem)
end

