-- ==== Sys2Proof/Laws/PerInstr.lean ====
section
/-! SUPPORT. What holds of every instruction as syntax, one lemma per constructor: the record made of an
instruction at `pc` gives the instruction back, with its variant, destination and address, and its
unused fields are 0 (spec/30_encoding.md R111, R113, R115). -/

namespace Sys2Proof.Laws

/-- The record of `i` at `pc` spells `i`. -/
def RecordRoundTrip.Statement (i : Instr) : Prop :=
  ∀ pc : Word, (i.record pc).instr = i ∧ (i.record pc).pc = pc ∧ (i.record pc).op = i.op ∧
    (i.record pc).rd = i.rd ∧ (i.record pc).unusedZero = true

theorem RecordRoundTrip.add (rd rs1 rs2 : Reg) : RecordRoundTrip.Statement (.add rd rs1 rs2) :=
  fun _ => ⟨rfl, rfl, rfl, rfl, rfl⟩

theorem RecordRoundTrip.sub (rd rs1 rs2 : Reg) : RecordRoundTrip.Statement (.sub rd rs1 rs2) :=
  fun _ => ⟨rfl, rfl, rfl, rfl, rfl⟩

theorem RecordRoundTrip.and (rd rs1 rs2 : Reg) : RecordRoundTrip.Statement (.and rd rs1 rs2) :=
  fun _ => ⟨rfl, rfl, rfl, rfl, rfl⟩

theorem RecordRoundTrip.or (rd rs1 rs2 : Reg) : RecordRoundTrip.Statement (.or rd rs1 rs2) :=
  fun _ => ⟨rfl, rfl, rfl, rfl, rfl⟩

theorem RecordRoundTrip.xor (rd rs1 rs2 : Reg) : RecordRoundTrip.Statement (.xor rd rs1 rs2) :=
  fun _ => ⟨rfl, rfl, rfl, rfl, rfl⟩

theorem RecordRoundTrip.slt (rd rs1 rs2 : Reg) : RecordRoundTrip.Statement (.slt rd rs1 rs2) :=
  fun _ => ⟨rfl, rfl, rfl, rfl, rfl⟩

theorem RecordRoundTrip.addi (rd rs1 : Reg) (imm : Word) : RecordRoundTrip.Statement (.addi rd rs1 imm) :=
  fun _ => ⟨rfl, rfl, rfl, rfl, rfl⟩

theorem RecordRoundTrip.lw (rd rs1 : Reg) (imm : Word) : RecordRoundTrip.Statement (.lw rd rs1 imm) :=
  fun _ => ⟨rfl, rfl, rfl, rfl, rfl⟩

theorem RecordRoundTrip.sw (rs1 rs2 : Reg) (imm : Word) : RecordRoundTrip.Statement (.sw rs1 rs2 imm) :=
  fun _ => ⟨rfl, rfl, rfl, rfl, rfl⟩

theorem RecordRoundTrip.beq (rs1 rs2 : Reg) (imm : Word) : RecordRoundTrip.Statement (.beq rs1 rs2 imm) :=
  fun _ => ⟨rfl, rfl, rfl, rfl, rfl⟩

theorem RecordRoundTrip.bne (rs1 rs2 : Reg) (imm : Word) : RecordRoundTrip.Statement (.bne rs1 rs2 imm) :=
  fun _ => ⟨rfl, rfl, rfl, rfl, rfl⟩

theorem RecordRoundTrip.jal (rd : Reg) (imm : Word) : RecordRoundTrip.Statement (.jal rd imm) :=
  fun _ => ⟨rfl, rfl, rfl, rfl, rfl⟩

theorem RecordRoundTrip.jalr (rd rs1 : Reg) (imm : Word) : RecordRoundTrip.Statement (.jalr rd rs1 imm) :=
  fun _ => ⟨rfl, rfl, rfl, rfl, rfl⟩

theorem RecordRoundTrip.nop : RecordRoundTrip.Statement .nop :=
  fun _ => ⟨rfl, rfl, rfl, rfl, rfl⟩

end Sys2Proof.Laws
end

