-- ==== Sys2Proof/Laws/State.lean ====
section
/-! SUPPORT. One lemma per field and named update of State, so that no later proof unfolds a record
update: the fields an update leaves alone, and the plain value of those it sets. -/

namespace Sys2Proof.Machine

variable (s : State)

/-! ### setPc -/

@[simp] theorem State.setPc_cfg (v : Word) : (s.setPc v).cfg = s.cfg := rfl
@[simp] theorem State.setPc_program (v : Word) : (s.setPc v).program = s.program := rfl
@[simp] theorem State.setPc_arf (v : Word) : (s.setPc v).arf = s.arf := rfl
@[simp] theorem State.setPc_rat (v : Word) : (s.setPc v).rat = s.rat := rfl
@[simp] theorem State.setPc_pc (v : Word) : (s.setPc v).pc = v := rfl
@[simp] theorem State.setPc_nextTag (v : Word) : (s.setPc v).nextTag = s.nextTag := rfl
@[simp] theorem State.setPc_rob (v : Word) : (s.setPc v).rob = s.rob := rfl
@[simp] theorem State.setPc_alu (v : Word) : (s.setPc v).alu = s.alu := rfl
@[simp] theorem State.setPc_ls (v : Word) : (s.setPc v).ls = s.ls := rfl
@[simp] theorem State.setPc_lsq (v : Word) : (s.setPc v).lsq = s.lsq := rfl
@[simp] theorem State.setPc_l1i (v : Word) : (s.setPc v).l1i = s.l1i := rfl
@[simp] theorem State.setPc_l1d (v : Word) : (s.setPc v).l1d = s.l1d := rfl
@[simp] theorem State.setPc_bp (v : Word) : (s.setPc v).bp = s.bp := rfl
@[simp] theorem State.setPc_mem (v : Word) : (s.setPc v).mem = s.mem := rfl
@[simp] theorem State.setPc_counters (v : Word) : (s.setPc v).counters = s.counters := rfl
@[simp] theorem State.setPc_fault (v : Word) : (s.setPc v).fault = s.fault := rfl
@[simp] theorem State.setPc_log (v : Word) : (s.setPc v).log = s.log := rfl
@[simp] theorem State.setPc_stage (v : Word) : (s.setPc v).stage = s.stage := rfl

/-! ### atStage -/

@[simp] theorem State.atStage_cfg (st : Stage) : (s.atStage st).cfg = s.cfg := rfl
@[simp] theorem State.atStage_program (st : Stage) : (s.atStage st).program = s.program := rfl
@[simp] theorem State.atStage_arf (st : Stage) : (s.atStage st).arf = s.arf := rfl
@[simp] theorem State.atStage_rat (st : Stage) : (s.atStage st).rat = s.rat := rfl
@[simp] theorem State.atStage_pc (st : Stage) : (s.atStage st).pc = s.pc := rfl
@[simp] theorem State.atStage_nextTag (st : Stage) : (s.atStage st).nextTag = s.nextTag := rfl
@[simp] theorem State.atStage_rob (st : Stage) : (s.atStage st).rob = s.rob := rfl
@[simp] theorem State.atStage_alu (st : Stage) : (s.atStage st).alu = s.alu := rfl
@[simp] theorem State.atStage_ls (st : Stage) : (s.atStage st).ls = s.ls := rfl
@[simp] theorem State.atStage_lsq (st : Stage) : (s.atStage st).lsq = s.lsq := rfl
@[simp] theorem State.atStage_l1i (st : Stage) : (s.atStage st).l1i = s.l1i := rfl
@[simp] theorem State.atStage_l1d (st : Stage) : (s.atStage st).l1d = s.l1d := rfl
@[simp] theorem State.atStage_bp (st : Stage) : (s.atStage st).bp = s.bp := rfl
@[simp] theorem State.atStage_mem (st : Stage) : (s.atStage st).mem = s.mem := rfl
@[simp] theorem State.atStage_counters (st : Stage) : (s.atStage st).counters = s.counters := rfl
@[simp] theorem State.atStage_fault (st : Stage) : (s.atStage st).fault = s.fault := rfl
@[simp] theorem State.atStage_log (st : Stage) : (s.atStage st).log = s.log := rfl
@[simp] theorem State.atStage_stage (st : Stage) : (s.atStage st).stage = st := rfl

/-! ### memWrite -/

@[simp] theorem State.memWrite_cfg (a v : Word) : (s.memWrite a v).cfg = s.cfg := rfl
@[simp] theorem State.memWrite_program (a v : Word) : (s.memWrite a v).program = s.program := rfl
@[simp] theorem State.memWrite_arf (a v : Word) : (s.memWrite a v).arf = s.arf := rfl
@[simp] theorem State.memWrite_rat (a v : Word) : (s.memWrite a v).rat = s.rat := rfl
@[simp] theorem State.memWrite_pc (a v : Word) : (s.memWrite a v).pc = s.pc := rfl
@[simp] theorem State.memWrite_nextTag (a v : Word) : (s.memWrite a v).nextTag = s.nextTag := rfl
@[simp] theorem State.memWrite_rob (a v : Word) : (s.memWrite a v).rob = s.rob := rfl
@[simp] theorem State.memWrite_alu (a v : Word) : (s.memWrite a v).alu = s.alu := rfl
@[simp] theorem State.memWrite_ls (a v : Word) : (s.memWrite a v).ls = s.ls := rfl
@[simp] theorem State.memWrite_lsq (a v : Word) : (s.memWrite a v).lsq = s.lsq := rfl
@[simp] theorem State.memWrite_l1i (a v : Word) : (s.memWrite a v).l1i = s.l1i := rfl
@[simp] theorem State.memWrite_l1d (a v : Word) : (s.memWrite a v).l1d = s.l1d := rfl
@[simp] theorem State.memWrite_bp (a v : Word) : (s.memWrite a v).bp = s.bp := rfl
@[simp] theorem State.memWrite_mem (a v : Word) : (s.memWrite a v).mem = setMemWord (wordIndex a) v s.mem := rfl
@[simp] theorem State.memWrite_counters (a v : Word) : (s.memWrite a v).counters = s.counters := rfl
@[simp] theorem State.memWrite_fault (a v : Word) : (s.memWrite a v).fault = s.fault := rfl
@[simp] theorem State.memWrite_log (a v : Word) : (s.memWrite a v).log = s.log := rfl
@[simp] theorem State.memWrite_stage (a v : Word) : (s.memWrite a v).stage = s.stage := rfl

/-! ### accessL1I -/

@[simp] theorem State.accessL1I_cfg (a : Word) : (s.accessL1I a).cfg = s.cfg := rfl
@[simp] theorem State.accessL1I_program (a : Word) : (s.accessL1I a).program = s.program := rfl
@[simp] theorem State.accessL1I_arf (a : Word) : (s.accessL1I a).arf = s.arf := rfl
@[simp] theorem State.accessL1I_rat (a : Word) : (s.accessL1I a).rat = s.rat := rfl
@[simp] theorem State.accessL1I_pc (a : Word) : (s.accessL1I a).pc = s.pc := rfl
@[simp] theorem State.accessL1I_nextTag (a : Word) : (s.accessL1I a).nextTag = s.nextTag := rfl
@[simp] theorem State.accessL1I_rob (a : Word) : (s.accessL1I a).rob = s.rob := rfl
@[simp] theorem State.accessL1I_alu (a : Word) : (s.accessL1I a).alu = s.alu := rfl
@[simp] theorem State.accessL1I_ls (a : Word) : (s.accessL1I a).ls = s.ls := rfl
@[simp] theorem State.accessL1I_lsq (a : Word) : (s.accessL1I a).lsq = s.lsq := rfl
@[simp] theorem State.accessL1I_l1i (a : Word) : (s.accessL1I a).l1i = (s.l1i.access s.cfg.l1iHit s.cfg.missPenalty a false).1 := rfl
@[simp] theorem State.accessL1I_l1d (a : Word) : (s.accessL1I a).l1d = s.l1d := rfl
@[simp] theorem State.accessL1I_bp (a : Word) : (s.accessL1I a).bp = s.bp := rfl
@[simp] theorem State.accessL1I_mem (a : Word) : (s.accessL1I a).mem = s.mem := rfl
@[simp] theorem State.accessL1I_counters (a : Word) : (s.accessL1I a).counters = s.counters := rfl
@[simp] theorem State.accessL1I_fault (a : Word) : (s.accessL1I a).fault = s.fault := rfl
@[simp] theorem State.accessL1I_log (a : Word) : (s.accessL1I a).log = s.log := rfl
@[simp] theorem State.accessL1I_stage (a : Word) : (s.accessL1I a).stage = s.stage := rfl

/-! ### accessL1D -/

@[simp] theorem State.accessL1D_cfg (a : Word) (w : Bool) : (s.accessL1D a w).cfg = s.cfg := rfl
@[simp] theorem State.accessL1D_program (a : Word) (w : Bool) : (s.accessL1D a w).program = s.program := rfl
@[simp] theorem State.accessL1D_arf (a : Word) (w : Bool) : (s.accessL1D a w).arf = s.arf := rfl
@[simp] theorem State.accessL1D_rat (a : Word) (w : Bool) : (s.accessL1D a w).rat = s.rat := rfl
@[simp] theorem State.accessL1D_pc (a : Word) (w : Bool) : (s.accessL1D a w).pc = s.pc := rfl
@[simp] theorem State.accessL1D_nextTag (a : Word) (w : Bool) : (s.accessL1D a w).nextTag = s.nextTag := rfl
@[simp] theorem State.accessL1D_rob (a : Word) (w : Bool) : (s.accessL1D a w).rob = s.rob := rfl
@[simp] theorem State.accessL1D_alu (a : Word) (w : Bool) : (s.accessL1D a w).alu = s.alu := rfl
@[simp] theorem State.accessL1D_ls (a : Word) (w : Bool) : (s.accessL1D a w).ls = s.ls := rfl
@[simp] theorem State.accessL1D_lsq (a : Word) (w : Bool) : (s.accessL1D a w).lsq = s.lsq := rfl
@[simp] theorem State.accessL1D_l1i (a : Word) (w : Bool) : (s.accessL1D a w).l1i = s.l1i := rfl
@[simp] theorem State.accessL1D_l1d (a : Word) (w : Bool) : (s.accessL1D a w).l1d = (s.l1d.access s.cfg.l1dHit s.cfg.missPenalty a w).1 := rfl
@[simp] theorem State.accessL1D_bp (a : Word) (w : Bool) : (s.accessL1D a w).bp = s.bp := rfl
@[simp] theorem State.accessL1D_mem (a : Word) (w : Bool) : (s.accessL1D a w).mem = s.mem := rfl
@[simp] theorem State.accessL1D_counters (a : Word) (w : Bool) : (s.accessL1D a w).counters = s.counters := rfl
@[simp] theorem State.accessL1D_fault (a : Word) (w : Bool) : (s.accessL1D a w).fault = s.fault := rfl
@[simp] theorem State.accessL1D_log (a : Word) (w : Bool) : (s.accessL1D a w).log = s.log := rfl
@[simp] theorem State.accessL1D_stage (a : Word) (w : Bool) : (s.accessL1D a w).stage = s.stage := rfl

/-! ### setPool -/

@[simp] theorem State.setPool_cfg (p : PoolId) (l : List Station) : (s.setPool p l).cfg = s.cfg := by cases p <;> rfl
@[simp] theorem State.setPool_program (p : PoolId) (l : List Station) : (s.setPool p l).program = s.program := by cases p <;> rfl
@[simp] theorem State.setPool_arf (p : PoolId) (l : List Station) : (s.setPool p l).arf = s.arf := by cases p <;> rfl
@[simp] theorem State.setPool_rat (p : PoolId) (l : List Station) : (s.setPool p l).rat = s.rat := by cases p <;> rfl
@[simp] theorem State.setPool_pc (p : PoolId) (l : List Station) : (s.setPool p l).pc = s.pc := by cases p <;> rfl
@[simp] theorem State.setPool_nextTag (p : PoolId) (l : List Station) : (s.setPool p l).nextTag = s.nextTag := by cases p <;> rfl
@[simp] theorem State.setPool_rob (p : PoolId) (l : List Station) : (s.setPool p l).rob = s.rob := by cases p <;> rfl
@[simp] theorem State.setPool_lsq (p : PoolId) (l : List Station) : (s.setPool p l).lsq = s.lsq := by cases p <;> rfl
@[simp] theorem State.setPool_l1i (p : PoolId) (l : List Station) : (s.setPool p l).l1i = s.l1i := by cases p <;> rfl
@[simp] theorem State.setPool_l1d (p : PoolId) (l : List Station) : (s.setPool p l).l1d = s.l1d := by cases p <;> rfl
@[simp] theorem State.setPool_bp (p : PoolId) (l : List Station) : (s.setPool p l).bp = s.bp := by cases p <;> rfl
@[simp] theorem State.setPool_mem (p : PoolId) (l : List Station) : (s.setPool p l).mem = s.mem := by cases p <;> rfl
@[simp] theorem State.setPool_counters (p : PoolId) (l : List Station) : (s.setPool p l).counters = s.counters := by cases p <;> rfl
@[simp] theorem State.setPool_fault (p : PoolId) (l : List Station) : (s.setPool p l).fault = s.fault := by cases p <;> rfl
@[simp] theorem State.setPool_log (p : PoolId) (l : List Station) : (s.setPool p l).log = s.log := by cases p <;> rfl
@[simp] theorem State.setPool_stage (p : PoolId) (l : List Station) : (s.setPool p l).stage = s.stage := by cases p <;> rfl

/-! ### setStation -/

@[simp] theorem State.setStation_cfg (p : PoolId) (k : Nat) (st : Station) : (s.setStation p k st).cfg = s.cfg := by cases p <;> rfl
@[simp] theorem State.setStation_program (p : PoolId) (k : Nat) (st : Station) : (s.setStation p k st).program = s.program := by cases p <;> rfl
@[simp] theorem State.setStation_arf (p : PoolId) (k : Nat) (st : Station) : (s.setStation p k st).arf = s.arf := by cases p <;> rfl
@[simp] theorem State.setStation_rat (p : PoolId) (k : Nat) (st : Station) : (s.setStation p k st).rat = s.rat := by cases p <;> rfl
@[simp] theorem State.setStation_pc (p : PoolId) (k : Nat) (st : Station) : (s.setStation p k st).pc = s.pc := by cases p <;> rfl
@[simp] theorem State.setStation_nextTag (p : PoolId) (k : Nat) (st : Station) : (s.setStation p k st).nextTag = s.nextTag := by cases p <;> rfl
@[simp] theorem State.setStation_rob (p : PoolId) (k : Nat) (st : Station) : (s.setStation p k st).rob = s.rob := by cases p <;> rfl
@[simp] theorem State.setStation_lsq (p : PoolId) (k : Nat) (st : Station) : (s.setStation p k st).lsq = s.lsq := by cases p <;> rfl
@[simp] theorem State.setStation_l1i (p : PoolId) (k : Nat) (st : Station) : (s.setStation p k st).l1i = s.l1i := by cases p <;> rfl
@[simp] theorem State.setStation_l1d (p : PoolId) (k : Nat) (st : Station) : (s.setStation p k st).l1d = s.l1d := by cases p <;> rfl
@[simp] theorem State.setStation_bp (p : PoolId) (k : Nat) (st : Station) : (s.setStation p k st).bp = s.bp := by cases p <;> rfl
@[simp] theorem State.setStation_mem (p : PoolId) (k : Nat) (st : Station) : (s.setStation p k st).mem = s.mem := by cases p <;> rfl
@[simp] theorem State.setStation_counters (p : PoolId) (k : Nat) (st : Station) : (s.setStation p k st).counters = s.counters := by cases p <;> rfl
@[simp] theorem State.setStation_fault (p : PoolId) (k : Nat) (st : Station) : (s.setStation p k st).fault = s.fault := by cases p <;> rfl
@[simp] theorem State.setStation_log (p : PoolId) (k : Nat) (st : Station) : (s.setStation p k st).log = s.log := by cases p <;> rfl
@[simp] theorem State.setStation_stage (p : PoolId) (k : Nat) (st : Station) : (s.setStation p k st).stage = s.stage := by cases p <;> rfl

/-! ### broadcast -/

@[simp] theorem State.broadcast_cfg (t : Nat) (v : Word) : (s.broadcast t v).cfg = s.cfg := rfl
@[simp] theorem State.broadcast_program (t : Nat) (v : Word) : (s.broadcast t v).program = s.program := rfl
@[simp] theorem State.broadcast_arf (t : Nat) (v : Word) : (s.broadcast t v).arf = s.arf := rfl
@[simp] theorem State.broadcast_rat (t : Nat) (v : Word) : (s.broadcast t v).rat = s.rat := rfl
@[simp] theorem State.broadcast_pc (t : Nat) (v : Word) : (s.broadcast t v).pc = s.pc := rfl
@[simp] theorem State.broadcast_nextTag (t : Nat) (v : Word) : (s.broadcast t v).nextTag = s.nextTag := rfl
@[simp] theorem State.broadcast_alu (t : Nat) (v : Word) : (s.broadcast t v).alu = s.alu := rfl
@[simp] theorem State.broadcast_ls (t : Nat) (v : Word) : (s.broadcast t v).ls = s.ls := rfl
@[simp] theorem State.broadcast_lsq (t : Nat) (v : Word) : (s.broadcast t v).lsq = s.lsq := rfl
@[simp] theorem State.broadcast_l1i (t : Nat) (v : Word) : (s.broadcast t v).l1i = s.l1i := rfl
@[simp] theorem State.broadcast_l1d (t : Nat) (v : Word) : (s.broadcast t v).l1d = s.l1d := rfl
@[simp] theorem State.broadcast_bp (t : Nat) (v : Word) : (s.broadcast t v).bp = s.bp := rfl
@[simp] theorem State.broadcast_mem (t : Nat) (v : Word) : (s.broadcast t v).mem = s.mem := rfl
@[simp] theorem State.broadcast_counters (t : Nat) (v : Word) : (s.broadcast t v).counters = s.counters := rfl
@[simp] theorem State.broadcast_fault (t : Nat) (v : Word) : (s.broadcast t v).fault = s.fault := rfl
@[simp] theorem State.broadcast_log (t : Nat) (v : Word) : (s.broadcast t v).log = s.log := rfl
@[simp] theorem State.broadcast_stage (t : Nat) (v : Word) : (s.broadcast t v).stage = s.stage := rfl

/-! ### freeStationAt -/

@[simp] theorem State.freeStationAt_cfg (p : PoolId) (k : Nat) (st : Station) : (s.freeStationAt p k st).cfg = s.cfg := by cases p <;> rfl
@[simp] theorem State.freeStationAt_program (p : PoolId) (k : Nat) (st : Station) : (s.freeStationAt p k st).program = s.program := by cases p <;> rfl
@[simp] theorem State.freeStationAt_arf (p : PoolId) (k : Nat) (st : Station) : (s.freeStationAt p k st).arf = s.arf := by cases p <;> rfl
@[simp] theorem State.freeStationAt_rat (p : PoolId) (k : Nat) (st : Station) : (s.freeStationAt p k st).rat = s.rat := by cases p <;> rfl
@[simp] theorem State.freeStationAt_pc (p : PoolId) (k : Nat) (st : Station) : (s.freeStationAt p k st).pc = s.pc := by cases p <;> rfl
@[simp] theorem State.freeStationAt_nextTag (p : PoolId) (k : Nat) (st : Station) : (s.freeStationAt p k st).nextTag = s.nextTag := by cases p <;> rfl
@[simp] theorem State.freeStationAt_rob (p : PoolId) (k : Nat) (st : Station) : (s.freeStationAt p k st).rob = s.rob := by cases p <;> rfl
@[simp] theorem State.freeStationAt_lsq (p : PoolId) (k : Nat) (st : Station) : (s.freeStationAt p k st).lsq = s.lsq := by cases p <;> rfl
@[simp] theorem State.freeStationAt_l1i (p : PoolId) (k : Nat) (st : Station) : (s.freeStationAt p k st).l1i = s.l1i := by cases p <;> rfl
@[simp] theorem State.freeStationAt_l1d (p : PoolId) (k : Nat) (st : Station) : (s.freeStationAt p k st).l1d = s.l1d := by cases p <;> rfl
@[simp] theorem State.freeStationAt_bp (p : PoolId) (k : Nat) (st : Station) : (s.freeStationAt p k st).bp = s.bp := by cases p <;> rfl
@[simp] theorem State.freeStationAt_mem (p : PoolId) (k : Nat) (st : Station) : (s.freeStationAt p k st).mem = s.mem := by cases p <;> rfl
@[simp] theorem State.freeStationAt_counters (p : PoolId) (k : Nat) (st : Station) : (s.freeStationAt p k st).counters = s.counters := by cases p <;> rfl
@[simp] theorem State.freeStationAt_fault (p : PoolId) (k : Nat) (st : Station) : (s.freeStationAt p k st).fault = s.fault := by cases p <;> rfl
@[simp] theorem State.freeStationAt_log (p : PoolId) (k : Nat) (st : Station) : (s.freeStationAt p k st).log = s.log := by cases p <;> rfl
@[simp] theorem State.freeStationAt_stage (p : PoolId) (k : Nat) (st : Station) : (s.freeStationAt p k st).stage = s.stage := by cases p <;> rfl

/-! ### writeReg -/

@[simp] theorem State.writeReg_cfg (i : Reg) (v : Word) : (s.writeReg i v).cfg = s.cfg := by unfold State.writeReg; split <;> rfl
@[simp] theorem State.writeReg_program (i : Reg) (v : Word) : (s.writeReg i v).program = s.program := by unfold State.writeReg; split <;> rfl
@[simp] theorem State.writeReg_rat (i : Reg) (v : Word) : (s.writeReg i v).rat = s.rat := by unfold State.writeReg; split <;> rfl
@[simp] theorem State.writeReg_pc (i : Reg) (v : Word) : (s.writeReg i v).pc = s.pc := by unfold State.writeReg; split <;> rfl
@[simp] theorem State.writeReg_nextTag (i : Reg) (v : Word) : (s.writeReg i v).nextTag = s.nextTag := by unfold State.writeReg; split <;> rfl
@[simp] theorem State.writeReg_rob (i : Reg) (v : Word) : (s.writeReg i v).rob = s.rob := by unfold State.writeReg; split <;> rfl
@[simp] theorem State.writeReg_alu (i : Reg) (v : Word) : (s.writeReg i v).alu = s.alu := by unfold State.writeReg; split <;> rfl
@[simp] theorem State.writeReg_ls (i : Reg) (v : Word) : (s.writeReg i v).ls = s.ls := by unfold State.writeReg; split <;> rfl
@[simp] theorem State.writeReg_lsq (i : Reg) (v : Word) : (s.writeReg i v).lsq = s.lsq := by unfold State.writeReg; split <;> rfl
@[simp] theorem State.writeReg_l1i (i : Reg) (v : Word) : (s.writeReg i v).l1i = s.l1i := by unfold State.writeReg; split <;> rfl
@[simp] theorem State.writeReg_l1d (i : Reg) (v : Word) : (s.writeReg i v).l1d = s.l1d := by unfold State.writeReg; split <;> rfl
@[simp] theorem State.writeReg_bp (i : Reg) (v : Word) : (s.writeReg i v).bp = s.bp := by unfold State.writeReg; split <;> rfl
@[simp] theorem State.writeReg_mem (i : Reg) (v : Word) : (s.writeReg i v).mem = s.mem := by unfold State.writeReg; split <;> rfl
@[simp] theorem State.writeReg_counters (i : Reg) (v : Word) : (s.writeReg i v).counters = s.counters := by unfold State.writeReg; split <;> rfl
@[simp] theorem State.writeReg_fault (i : Reg) (v : Word) : (s.writeReg i v).fault = s.fault := by unfold State.writeReg; split <;> rfl
@[simp] theorem State.writeReg_log (i : Reg) (v : Word) : (s.writeReg i v).log = s.log := by unfold State.writeReg; split <;> rfl
@[simp] theorem State.writeReg_stage (i : Reg) (v : Word) : (s.writeReg i v).stage = s.stage := by unfold State.writeReg; split <;> rfl

/-! ### commitReg -/

@[simp] theorem State.commitReg_cfg (rd : Reg) (h : RobEntry) : (s.commitReg rd h).cfg = s.cfg := by unfold State.commitReg; split <;> rfl
@[simp] theorem State.commitReg_program (rd : Reg) (h : RobEntry) : (s.commitReg rd h).program = s.program := by unfold State.commitReg; split <;> rfl
@[simp] theorem State.commitReg_pc (rd : Reg) (h : RobEntry) : (s.commitReg rd h).pc = s.pc := by unfold State.commitReg; split <;> rfl
@[simp] theorem State.commitReg_nextTag (rd : Reg) (h : RobEntry) : (s.commitReg rd h).nextTag = s.nextTag := by unfold State.commitReg; split <;> rfl
@[simp] theorem State.commitReg_rob (rd : Reg) (h : RobEntry) : (s.commitReg rd h).rob = s.rob := by unfold State.commitReg; split <;> rfl
@[simp] theorem State.commitReg_alu (rd : Reg) (h : RobEntry) : (s.commitReg rd h).alu = s.alu := by unfold State.commitReg; split <;> rfl
@[simp] theorem State.commitReg_ls (rd : Reg) (h : RobEntry) : (s.commitReg rd h).ls = s.ls := by unfold State.commitReg; split <;> rfl
@[simp] theorem State.commitReg_lsq (rd : Reg) (h : RobEntry) : (s.commitReg rd h).lsq = s.lsq := by unfold State.commitReg; split <;> rfl
@[simp] theorem State.commitReg_l1i (rd : Reg) (h : RobEntry) : (s.commitReg rd h).l1i = s.l1i := by unfold State.commitReg; split <;> rfl
@[simp] theorem State.commitReg_l1d (rd : Reg) (h : RobEntry) : (s.commitReg rd h).l1d = s.l1d := by unfold State.commitReg; split <;> rfl
@[simp] theorem State.commitReg_bp (rd : Reg) (h : RobEntry) : (s.commitReg rd h).bp = s.bp := by unfold State.commitReg; split <;> rfl
@[simp] theorem State.commitReg_mem (rd : Reg) (h : RobEntry) : (s.commitReg rd h).mem = s.mem := by unfold State.commitReg; split <;> rfl
@[simp] theorem State.commitReg_counters (rd : Reg) (h : RobEntry) : (s.commitReg rd h).counters = s.counters := by unfold State.commitReg; split <;> rfl
@[simp] theorem State.commitReg_fault (rd : Reg) (h : RobEntry) : (s.commitReg rd h).fault = s.fault := by unfold State.commitReg; split <;> rfl
@[simp] theorem State.commitReg_log (rd : Reg) (h : RobEntry) : (s.commitReg rd h).log = s.log := by unfold State.commitReg; split <;> rfl
@[simp] theorem State.commitReg_stage (rd : Reg) (h : RobEntry) : (s.commitReg rd h).stage = s.stage := by unfold State.commitReg; split <;> rfl

/-! ### wake -/

@[simp] theorem State.wake_cfg (h : RobEntry) : (s.wake h).cfg = s.cfg := rfl
@[simp] theorem State.wake_program (h : RobEntry) : (s.wake h).program = s.program := rfl
@[simp] theorem State.wake_arf (h : RobEntry) : (s.wake h).arf = s.arf := rfl
@[simp] theorem State.wake_rat (h : RobEntry) : (s.wake h).rat = s.rat := rfl
@[simp] theorem State.wake_pc (h : RobEntry) : (s.wake h).pc = s.pc := rfl
@[simp] theorem State.wake_nextTag (h : RobEntry) : (s.wake h).nextTag = s.nextTag := rfl
@[simp] theorem State.wake_rob (h : RobEntry) : (s.wake h).rob = s.rob := rfl
@[simp] theorem State.wake_lsq (h : RobEntry) : (s.wake h).lsq = s.lsq := rfl
@[simp] theorem State.wake_l1i (h : RobEntry) : (s.wake h).l1i = s.l1i := rfl
@[simp] theorem State.wake_l1d (h : RobEntry) : (s.wake h).l1d = s.l1d := rfl
@[simp] theorem State.wake_bp (h : RobEntry) : (s.wake h).bp = s.bp := rfl
@[simp] theorem State.wake_mem (h : RobEntry) : (s.wake h).mem = s.mem := rfl
@[simp] theorem State.wake_counters (h : RobEntry) : (s.wake h).counters = s.counters := rfl
@[simp] theorem State.wake_fault (h : RobEntry) : (s.wake h).fault = s.fault := rfl
@[simp] theorem State.wake_log (h : RobEntry) : (s.wake h).log = s.log := rfl
@[simp] theorem State.wake_stage (h : RobEntry) : (s.wake h).stage = s.stage := rfl

/-! ### retire -/

@[simp] theorem State.retire_cfg (h : RobEntry) : (s.retire h).cfg = s.cfg := rfl
@[simp] theorem State.retire_program (h : RobEntry) : (s.retire h).program = s.program := rfl
@[simp] theorem State.retire_arf (h : RobEntry) : (s.retire h).arf = s.arf := rfl
@[simp] theorem State.retire_rat (h : RobEntry) : (s.retire h).rat = s.rat := rfl
@[simp] theorem State.retire_pc (h : RobEntry) : (s.retire h).pc = s.pc := rfl
@[simp] theorem State.retire_nextTag (h : RobEntry) : (s.retire h).nextTag = s.nextTag := rfl
@[simp] theorem State.retire_rob (h : RobEntry) : (s.retire h).rob = s.rob.tail := rfl
@[simp] theorem State.retire_lsq (h : RobEntry) : (s.retire h).lsq = s.lsq := rfl
@[simp] theorem State.retire_l1i (h : RobEntry) : (s.retire h).l1i = s.l1i := rfl
@[simp] theorem State.retire_l1d (h : RobEntry) : (s.retire h).l1d = s.l1d := rfl
@[simp] theorem State.retire_bp (h : RobEntry) : (s.retire h).bp = s.bp := rfl
@[simp] theorem State.retire_mem (h : RobEntry) : (s.retire h).mem = s.mem := rfl
@[simp] theorem State.retire_fault (h : RobEntry) : (s.retire h).fault = s.fault := rfl
@[simp] theorem State.retire_log (h : RobEntry) : (s.retire h).log = s.log := rfl
@[simp] theorem State.retire_stage (h : RobEntry) : (s.retire h).stage = s.stage := rfl

/-! ### popLsq -/

@[simp] theorem State.popLsq_cfg : (s.popLsq).cfg = s.cfg := rfl
@[simp] theorem State.popLsq_program : (s.popLsq).program = s.program := rfl
@[simp] theorem State.popLsq_arf : (s.popLsq).arf = s.arf := rfl
@[simp] theorem State.popLsq_rat : (s.popLsq).rat = s.rat := rfl
@[simp] theorem State.popLsq_pc : (s.popLsq).pc = s.pc := rfl
@[simp] theorem State.popLsq_nextTag : (s.popLsq).nextTag = s.nextTag := rfl
@[simp] theorem State.popLsq_rob : (s.popLsq).rob = s.rob := rfl
@[simp] theorem State.popLsq_alu : (s.popLsq).alu = s.alu := rfl
@[simp] theorem State.popLsq_ls : (s.popLsq).ls = s.ls := rfl
@[simp] theorem State.popLsq_lsq : (s.popLsq).lsq = s.lsq.tail := rfl
@[simp] theorem State.popLsq_l1i : (s.popLsq).l1i = s.l1i := rfl
@[simp] theorem State.popLsq_l1d : (s.popLsq).l1d = s.l1d := rfl
@[simp] theorem State.popLsq_bp : (s.popLsq).bp = s.bp := rfl
@[simp] theorem State.popLsq_mem : (s.popLsq).mem = s.mem := rfl
@[simp] theorem State.popLsq_counters : (s.popLsq).counters = s.counters := rfl
@[simp] theorem State.popLsq_fault : (s.popLsq).fault = s.fault := rfl
@[simp] theorem State.popLsq_log : (s.popLsq).log = s.log := rfl
@[simp] theorem State.popLsq_stage : (s.popLsq).stage = s.stage := rfl

/-! ### latchFault -/

@[simp] theorem State.latchFault_cfg (f : Fault) : (s.latchFault f).cfg = s.cfg := rfl
@[simp] theorem State.latchFault_program (f : Fault) : (s.latchFault f).program = s.program := rfl
@[simp] theorem State.latchFault_arf (f : Fault) : (s.latchFault f).arf = s.arf := rfl
@[simp] theorem State.latchFault_rat (f : Fault) : (s.latchFault f).rat = s.rat := rfl
@[simp] theorem State.latchFault_pc (f : Fault) : (s.latchFault f).pc = s.pc := rfl
@[simp] theorem State.latchFault_nextTag (f : Fault) : (s.latchFault f).nextTag = s.nextTag := rfl
@[simp] theorem State.latchFault_rob (f : Fault) : (s.latchFault f).rob = s.rob := rfl
@[simp] theorem State.latchFault_alu (f : Fault) : (s.latchFault f).alu = s.alu := rfl
@[simp] theorem State.latchFault_ls (f : Fault) : (s.latchFault f).ls = s.ls := rfl
@[simp] theorem State.latchFault_lsq (f : Fault) : (s.latchFault f).lsq = s.lsq := rfl
@[simp] theorem State.latchFault_l1i (f : Fault) : (s.latchFault f).l1i = s.l1i := rfl
@[simp] theorem State.latchFault_l1d (f : Fault) : (s.latchFault f).l1d = s.l1d := rfl
@[simp] theorem State.latchFault_bp (f : Fault) : (s.latchFault f).bp = s.bp := rfl
@[simp] theorem State.latchFault_mem (f : Fault) : (s.latchFault f).mem = s.mem := rfl
@[simp] theorem State.latchFault_counters (f : Fault) : (s.latchFault f).counters = s.counters := rfl
@[simp] theorem State.latchFault_fault (f : Fault) : (s.latchFault f).fault = some f := rfl
@[simp] theorem State.latchFault_log (f : Fault) : (s.latchFault f).log = s.log ++ [.fault s.counters.cycle f] := rfl
@[simp] theorem State.latchFault_stage (f : Fault) : (s.latchFault f).stage = s.stage := rfl

/-! ### flush -/

@[simp] theorem State.flush_cfg (t : Word) : (s.flush t).cfg = s.cfg := rfl
@[simp] theorem State.flush_program (t : Word) : (s.flush t).program = s.program := rfl
@[simp] theorem State.flush_arf (t : Word) : (s.flush t).arf = s.arf := rfl
@[simp] theorem State.flush_rat (t : Word) : (s.flush t).rat = Vector.replicate 32 .architectural := rfl
@[simp] theorem State.flush_pc (t : Word) : (s.flush t).pc = t := rfl
@[simp] theorem State.flush_nextTag (t : Word) : (s.flush t).nextTag = s.nextTag := rfl
@[simp] theorem State.flush_rob (t : Word) : (s.flush t).rob = [] := rfl
@[simp] theorem State.flush_lsq (t : Word) : (s.flush t).lsq = [] := rfl
@[simp] theorem State.flush_l1i (t : Word) : (s.flush t).l1i = s.l1i := rfl
@[simp] theorem State.flush_l1d (t : Word) : (s.flush t).l1d = s.l1d := rfl
@[simp] theorem State.flush_bp (t : Word) : (s.flush t).bp = s.bp := rfl
@[simp] theorem State.flush_mem (t : Word) : (s.flush t).mem = s.mem := rfl
@[simp] theorem State.flush_fault (t : Word) : (s.flush t).fault = s.fault := rfl
@[simp] theorem State.flush_log (t : Word) : (s.flush t).log = s.log := rfl
@[simp] theorem State.flush_stage (t : Word) : (s.flush t).stage = s.stage := rfl

/-! ### trainBranch -/

@[simp] theorem State.trainBranch_cfg (h : RobEntry) (b : Bool) : (s.trainBranch h b).cfg = s.cfg := rfl
@[simp] theorem State.trainBranch_program (h : RobEntry) (b : Bool) : (s.trainBranch h b).program = s.program := rfl
@[simp] theorem State.trainBranch_arf (h : RobEntry) (b : Bool) : (s.trainBranch h b).arf = s.arf := rfl
@[simp] theorem State.trainBranch_rat (h : RobEntry) (b : Bool) : (s.trainBranch h b).rat = s.rat := rfl
@[simp] theorem State.trainBranch_pc (h : RobEntry) (b : Bool) : (s.trainBranch h b).pc = s.pc := rfl
@[simp] theorem State.trainBranch_nextTag (h : RobEntry) (b : Bool) : (s.trainBranch h b).nextTag = s.nextTag := rfl
@[simp] theorem State.trainBranch_rob (h : RobEntry) (b : Bool) : (s.trainBranch h b).rob = s.rob := rfl
@[simp] theorem State.trainBranch_alu (h : RobEntry) (b : Bool) : (s.trainBranch h b).alu = s.alu := rfl
@[simp] theorem State.trainBranch_ls (h : RobEntry) (b : Bool) : (s.trainBranch h b).ls = s.ls := rfl
@[simp] theorem State.trainBranch_lsq (h : RobEntry) (b : Bool) : (s.trainBranch h b).lsq = s.lsq := rfl
@[simp] theorem State.trainBranch_l1i (h : RobEntry) (b : Bool) : (s.trainBranch h b).l1i = s.l1i := rfl
@[simp] theorem State.trainBranch_l1d (h : RobEntry) (b : Bool) : (s.trainBranch h b).l1d = s.l1d := rfl
@[simp] theorem State.trainBranch_bp (h : RobEntry) (b : Bool) : (s.trainBranch h b).bp = s.bp.update h.pc b := rfl
@[simp] theorem State.trainBranch_mem (h : RobEntry) (b : Bool) : (s.trainBranch h b).mem = s.mem := rfl
@[simp] theorem State.trainBranch_fault (h : RobEntry) (b : Bool) : (s.trainBranch h b).fault = s.fault := rfl
@[simp] theorem State.trainBranch_log (h : RobEntry) (b : Bool) : (s.trainBranch h b).log = s.log := rfl
@[simp] theorem State.trainBranch_stage (h : RobEntry) (b : Bool) : (s.trainBranch h b).stage = s.stage := rfl

/-! ### logMispredict -/

@[simp] theorem State.logMispredict_cfg (h : RobEntry) : (s.logMispredict h).cfg = s.cfg := rfl
@[simp] theorem State.logMispredict_program (h : RobEntry) : (s.logMispredict h).program = s.program := rfl
@[simp] theorem State.logMispredict_arf (h : RobEntry) : (s.logMispredict h).arf = s.arf := rfl
@[simp] theorem State.logMispredict_rat (h : RobEntry) : (s.logMispredict h).rat = s.rat := rfl
@[simp] theorem State.logMispredict_pc (h : RobEntry) : (s.logMispredict h).pc = s.pc := rfl
@[simp] theorem State.logMispredict_nextTag (h : RobEntry) : (s.logMispredict h).nextTag = s.nextTag := rfl
@[simp] theorem State.logMispredict_rob (h : RobEntry) : (s.logMispredict h).rob = s.rob := rfl
@[simp] theorem State.logMispredict_alu (h : RobEntry) : (s.logMispredict h).alu = s.alu := rfl
@[simp] theorem State.logMispredict_ls (h : RobEntry) : (s.logMispredict h).ls = s.ls := rfl
@[simp] theorem State.logMispredict_lsq (h : RobEntry) : (s.logMispredict h).lsq = s.lsq := rfl
@[simp] theorem State.logMispredict_l1i (h : RobEntry) : (s.logMispredict h).l1i = s.l1i := rfl
@[simp] theorem State.logMispredict_l1d (h : RobEntry) : (s.logMispredict h).l1d = s.l1d := rfl
@[simp] theorem State.logMispredict_bp (h : RobEntry) : (s.logMispredict h).bp = s.bp := rfl
@[simp] theorem State.logMispredict_mem (h : RobEntry) : (s.logMispredict h).mem = s.mem := rfl
@[simp] theorem State.logMispredict_counters (h : RobEntry) : (s.logMispredict h).counters = s.counters := rfl
@[simp] theorem State.logMispredict_fault (h : RobEntry) : (s.logMispredict h).fault = s.fault := rfl
@[simp] theorem State.logMispredict_log (h : RobEntry) : (s.logMispredict h).log = s.log ++ [.mispredict s.counters.cycle h.pc h.target] := rfl
@[simp] theorem State.logMispredict_stage (h : RobEntry) : (s.logMispredict h).stage = s.stage := rfl

/-! ### beginCycle -/

@[simp] theorem State.beginCycle_cfg : (s.beginCycle).cfg = s.cfg := rfl
@[simp] theorem State.beginCycle_program : (s.beginCycle).program = s.program := rfl
@[simp] theorem State.beginCycle_arf : (s.beginCycle).arf = s.arf := rfl
@[simp] theorem State.beginCycle_rat : (s.beginCycle).rat = s.rat := rfl
@[simp] theorem State.beginCycle_pc : (s.beginCycle).pc = s.pc := rfl
@[simp] theorem State.beginCycle_nextTag : (s.beginCycle).nextTag = s.nextTag := rfl
@[simp] theorem State.beginCycle_rob : (s.beginCycle).rob = s.rob := rfl
@[simp] theorem State.beginCycle_alu : (s.beginCycle).alu = s.alu := rfl
@[simp] theorem State.beginCycle_ls : (s.beginCycle).ls = s.ls := rfl
@[simp] theorem State.beginCycle_lsq : (s.beginCycle).lsq = s.lsq := rfl
@[simp] theorem State.beginCycle_l1i : (s.beginCycle).l1i = s.l1i := rfl
@[simp] theorem State.beginCycle_l1d : (s.beginCycle).l1d = s.l1d := rfl
@[simp] theorem State.beginCycle_bp : (s.beginCycle).bp = s.bp := rfl
@[simp] theorem State.beginCycle_mem : (s.beginCycle).mem = s.mem := rfl
@[simp] theorem State.beginCycle_fault : (s.beginCycle).fault = s.fault := rfl
@[simp] theorem State.beginCycle_log : (s.beginCycle).log = s.log := rfl
@[simp] theorem State.beginCycle_stage : (s.beginCycle).stage = s.stage := rfl

/-! ### sample -/

@[simp] theorem State.sample_cfg : (s.sample).cfg = s.cfg := rfl
@[simp] theorem State.sample_program : (s.sample).program = s.program := rfl
@[simp] theorem State.sample_arf : (s.sample).arf = s.arf := rfl
@[simp] theorem State.sample_rat : (s.sample).rat = s.rat := rfl
@[simp] theorem State.sample_pc : (s.sample).pc = s.pc := rfl
@[simp] theorem State.sample_nextTag : (s.sample).nextTag = s.nextTag := rfl
@[simp] theorem State.sample_rob : (s.sample).rob = s.rob := rfl
@[simp] theorem State.sample_alu : (s.sample).alu = s.alu := rfl
@[simp] theorem State.sample_ls : (s.sample).ls = s.ls := rfl
@[simp] theorem State.sample_lsq : (s.sample).lsq = s.lsq := rfl
@[simp] theorem State.sample_l1i : (s.sample).l1i = s.l1i := rfl
@[simp] theorem State.sample_l1d : (s.sample).l1d = s.l1d := rfl
@[simp] theorem State.sample_bp : (s.sample).bp = s.bp := rfl
@[simp] theorem State.sample_mem : (s.sample).mem = s.mem := rfl
@[simp] theorem State.sample_fault : (s.sample).fault = s.fault := rfl
@[simp] theorem State.sample_log : (s.sample).log = s.log := rfl
@[simp] theorem State.sample_stage : (s.sample).stage = s.stage := rfl

/-! ### endCycle -/

@[simp] theorem State.endCycle_cfg : (s.endCycle).cfg = s.cfg := rfl
@[simp] theorem State.endCycle_program : (s.endCycle).program = s.program := rfl
@[simp] theorem State.endCycle_arf : (s.endCycle).arf = s.arf := rfl
@[simp] theorem State.endCycle_rat : (s.endCycle).rat = s.rat := rfl
@[simp] theorem State.endCycle_pc : (s.endCycle).pc = s.pc := rfl
@[simp] theorem State.endCycle_nextTag : (s.endCycle).nextTag = s.nextTag := rfl
@[simp] theorem State.endCycle_rob : (s.endCycle).rob = s.rob := rfl
@[simp] theorem State.endCycle_alu : (s.endCycle).alu = s.alu := rfl
@[simp] theorem State.endCycle_ls : (s.endCycle).ls = s.ls := rfl
@[simp] theorem State.endCycle_lsq : (s.endCycle).lsq = s.lsq := rfl
@[simp] theorem State.endCycle_l1i : (s.endCycle).l1i = s.l1i := rfl
@[simp] theorem State.endCycle_l1d : (s.endCycle).l1d = s.l1d := rfl
@[simp] theorem State.endCycle_bp : (s.endCycle).bp = s.bp := rfl
@[simp] theorem State.endCycle_mem : (s.endCycle).mem = s.mem := rfl
@[simp] theorem State.endCycle_counters : (s.endCycle).counters = s.sample.counters := rfl
@[simp] theorem State.endCycle_fault : (s.endCycle).fault = s.fault := rfl
@[simp] theorem State.endCycle_log : (s.endCycle).log = s.log := rfl
@[simp] theorem State.endCycle_stage : (s.endCycle).stage = .reference := rfl

/-! ### issue -/

@[simp] theorem State.issue_cfg (i : Instr) (k : Nat) (b : Bool) (n : Word) : (s.issue i k b n).cfg = s.cfg := by simp [State.issue]
@[simp] theorem State.issue_program (i : Instr) (k : Nat) (b : Bool) (n : Word) : (s.issue i k b n).program = s.program := by simp [State.issue]
@[simp] theorem State.issue_arf (i : Instr) (k : Nat) (b : Bool) (n : Word) : (s.issue i k b n).arf = s.arf := by simp [State.issue]
@[simp] theorem State.issue_rat (i : Instr) (k : Nat) (b : Bool) (n : Word) : (s.issue i k b n).rat = ratName i s.nextTag s.rat := by simp [State.issue]
@[simp] theorem State.issue_pc (i : Instr) (k : Nat) (b : Bool) (n : Word) : (s.issue i k b n).pc = n := by simp [State.issue]
@[simp] theorem State.issue_nextTag (i : Instr) (k : Nat) (b : Bool) (n : Word) : (s.issue i k b n).nextTag = s.nextTag + 1 := by simp [State.issue]
@[simp] theorem State.issue_rob (i : Instr) (k : Nat) (b : Bool) (n : Word) : (s.issue i k b n).rob = s.rob ++ [s.issuedEntry i b] := by simp [State.issue]
@[simp] theorem State.issue_lsq (i : Instr) (k : Nat) (b : Bool) (n : Word) : (s.issue i k b n).lsq = lsqPush i s.nextTag s.lsq := by simp [State.issue]
@[simp] theorem State.issue_l1i (i : Instr) (k : Nat) (b : Bool) (n : Word) : (s.issue i k b n).l1i = (s.l1i.access s.cfg.l1iHit s.cfg.missPenalty s.pc false).1 := by simp [State.issue]
@[simp] theorem State.issue_l1d (i : Instr) (k : Nat) (b : Bool) (n : Word) : (s.issue i k b n).l1d = s.l1d := by simp [State.issue]
@[simp] theorem State.issue_bp (i : Instr) (k : Nat) (b : Bool) (n : Word) : (s.issue i k b n).bp = s.bp := by simp [State.issue]
@[simp] theorem State.issue_mem (i : Instr) (k : Nat) (b : Bool) (n : Word) : (s.issue i k b n).mem = s.mem := by simp [State.issue]
@[simp] theorem State.issue_counters (i : Instr) (k : Nat) (b : Bool) (n : Word) : (s.issue i k b n).counters = s.counters := by simp [State.issue]
@[simp] theorem State.issue_fault (i : Instr) (k : Nat) (b : Bool) (n : Word) : (s.issue i k b n).fault = s.fault := by simp [State.issue]
@[simp] theorem State.issue_log (i : Instr) (k : Nat) (b : Bool) (n : Word) : (s.issue i k b n).log = s.log := by simp [State.issue]
@[simp] theorem State.issue_stage (i : Instr) (k : Nat) (b : Bool) (n : Word) : (s.issue i k b n).stage = s.stage := by simp [State.issue]

/-! ### The pools -/

@[simp] theorem State.pool_alu : s.pool .alu = s.alu := rfl
@[simp] theorem State.pool_ls : s.pool .ls = s.ls := rfl
@[simp] theorem State.setPool_alu_alu (l : List Station) : (s.setPool .alu l).alu = l := rfl
@[simp] theorem State.setPool_alu_ls (l : List Station) : (s.setPool .alu l).ls = s.ls := rfl
@[simp] theorem State.setPool_ls_alu (l : List Station) : (s.setPool .ls l).alu = s.alu := rfl
@[simp] theorem State.setPool_ls_ls (l : List Station) : (s.setPool .ls l).ls = l := rfl

/-- The pool a replacement names holds the new stations. -/
@[simp] theorem State.setPool_pool_self (p : PoolId) (l : List Station) :
    (s.setPool p l).pool p = l := by cases p <;> rfl

@[simp] theorem State.setStation_alu_alu (k : Nat) (st : Station) :
    (s.setStation .alu k st).alu = s.alu.set k st := rfl
@[simp] theorem State.setStation_alu_ls (k : Nat) (st : Station) :
    (s.setStation .alu k st).ls = s.ls := rfl
@[simp] theorem State.setStation_ls_alu (k : Nat) (st : Station) :
    (s.setStation .ls k st).alu = s.alu := rfl
@[simp] theorem State.setStation_ls_ls (k : Nat) (st : Station) :
    (s.setStation .ls k st).ls = s.ls.set k st := rfl

/-- The pool of a replaced station has it in its place. -/
@[simp] theorem State.setStation_pool_self (p : PoolId) (k : Nat) (st : Station) :
    (s.setStation p k st).pool p = (s.pool p).set k st := by cases p <;> rfl

/-- Reading back a replaced station. -/
theorem State.station?_setStation_self (p : PoolId) (k : Nat) (st st0 : Station)
    (h : s.station? p k = some st0) : (s.setStation p k st).station? p k = some st := by
  simp only [State.station?, State.setStation_pool_self] at h ⊢
  have hk : k < (s.pool p).length := by
    by_contra hk
    rw [List.getElem?_eq_none (by omega)] at h
    exact absurd h (by simp)
  simp [hk]

@[simp] theorem State.wake_alu (h : RobEntry) : (s.wake h).alu =
    s.alu.map fun st => if st.busy then st.capture h.tag h.result else st := rfl
@[simp] theorem State.wake_ls (h : RobEntry) : (s.wake h).ls =
    s.ls.map fun st => if st.busy then st.capture h.tag h.result else st := rfl
@[simp] theorem State.retire_alu (h : RobEntry) : (s.retire h).alu = (s.wake h).alu := rfl
@[simp] theorem State.retire_ls (h : RobEntry) : (s.retire h).ls = (s.wake h).ls := rfl
@[simp] theorem State.flush_alu (t : Word) :
    (s.flush t).alu = s.alu.map fun st => { st with busy := false } := rfl
@[simp] theorem State.flush_ls (t : Word) :
    (s.flush t).ls = s.ls.map fun st => { st with busy := false } := rfl

/-! ### Counters -/

@[simp] theorem State.retire_counters (h : RobEntry) : (s.retire h).counters =
    { s.counters with committed := s.counters.committed + 1 } := rfl
@[simp] theorem State.flush_counters (t : Word) : (s.flush t).counters =
    { s.counters with
      flushes := s.counters.flushes + 1, discarded := s.counters.discarded + s.rob.length } := rfl
@[simp] theorem State.trainBranch_counters (h : RobEntry) (b : Bool) : (s.trainBranch h b).counters =
    { s.counters with
      bpTotal := s.counters.bpTotal + 1
      bpCorrect := s.counters.bpCorrect + if b = h.pred then 1 else 0 } := rfl
@[simp] theorem State.beginCycle_counters : s.beginCycle.counters =
    { s.counters with cycle := s.counters.cycle + 1 } := rfl
@[simp] theorem State.sample_counters : s.sample.counters =
    { s.counters with
      occRob := s.counters.occRob.add s.rob.length
      occAlu := s.counters.occAlu.add (busyCount s.alu)
      occLs := s.counters.occLs.add (busyCount s.ls)
      occLsq := s.counters.occLsq.add s.lsq.length } := rfl

/-! ### The queues and registers -/

@[simp] theorem State.broadcast_rob (t : Nat) (v : Word) : (s.broadcast t v).rob =
    robUpdate t (fun e => { e with result := v, ready := true }) s.rob := rfl

/-- A register write is seen by a read of the same register, unless it is register 0 (R22). -/
theorem State.readReg_writeReg_self (i : Reg) (v : Word) :
    (s.writeReg i v).readReg i = if i = 0 then 0 else v := by
  unfold State.readReg State.writeReg
  split <;> simp_all

/-- A register write is not seen by a read of another register. -/
theorem State.readReg_writeReg_ne (i j : Reg) (v : Word) (h : j ≠ i) :
    (s.writeReg i v).readReg j = s.readReg j := by
  unfold State.readReg State.writeReg
  have : (i : Nat) ≠ (j : Nat) := fun hij => h (Fin.ext hij.symm)
  by_cases hj : j = 0
  · simp [hj]
  · by_cases hi : i = 0 <;> simp [hj, hi, this]

@[simp] theorem State.readReg_zero : s.readReg 0 = 0 := by simp [State.readReg]

/-- Register commit of register 0 changes nothing (R264). -/
@[simp] theorem State.commitReg_zero (h : RobEntry) : s.commitReg 0 h = s := by simp [State.commitReg]

@[simp] theorem State.rename_zero : s.rename 0 = (0, none) := by simp [State.rename]

end Sys2Proof.Machine
end

