-- ==== Sys2Proof/Laws/Exec.lean ====
section
/-! SUPPORT. What `exec` answers in each stage of the cycle, for every instruction at once: in Issue, in
Execute and in Commit it always answers a next state. -/

namespace Sys2Proof.Machine

/-! ## Issue -/

/-- The prediction Issue records (R213). -/
def predicted (i : Instr) (s : State) : Bool := i.op.isCondBranch && s.bp.predict s.pc

/-- In Issue every instruction allocates by the one shared operation. -/
theorem exec_issue (i : Instr) (s : State) (k : Nat) (h : s.stage = .issue k) :
    exec i s = .next (s.issue i k (predicted i s) (nextFetch i (predicted i s) s.pc)) := by
  cases i <;>
    simp [exec, execAdd, execSub, execAnd, execOr, execXor, execSlt, execAddi, execLw, execSw, execBeq,
      execBne, execJal, execJalr, execNop, computing, inert, branching, h, predicted, nextFetch, Instr.op,
      Op.isCondBranch]

/-! ## Execute -/

/-- What the completion of `i` in station `k` of pool `p`, which holds `st`, can do. -/
inductive Completed (i : Instr) (p : PoolId) (k : Nat) (st : Station) (s : State) : State → Prop where
  /-- A computed result is broadcast. -/
  | plain (h : i.op.isMem = false) (hb : i.op.isCondBranch = false) :
      Completed i p k st s ((s.broadcast st.dest (resultOf i st.vj st.vk)).freeStationAt p k st)
  /-- A branch is resolved. -/
  | branch (h : i.op.isCondBranch = true) :
      Completed i p k st s (({ s with rob := robUpdate st.dest (fun e => { e with
          target := nextFetch i (takenOf i st.vj st.vk) st.instr.pc }) s.rob }.broadcast st.dest
        (resultOf i st.vj st.vk)).freeStationAt p k st)
  /-- A load reads its word. -/
  | load (h : i.op = .lw) (ea : Word) (hea : st.ea = some ea) (hg : s.loadGateOpen st.dest = true) :
      Completed i p k st s (({ s.accessL1D ea false with
          lsq := lsqUpdate st.dest (fun q => { q with addr := some ea, memReady := true }) s.lsq }.broadcast
        st.dest (s.memRead ea)).freeStationAt p k st)
  /-- A store records its address and data. -/
  | store (h : i.op = .sw) (ea : Word) (hea : st.ea = some ea) :
      Completed i p k st s (({ s with
          lsq := lsqUpdate st.dest (fun q => { q with addr := some ea, data := some st.vk, memReady := true })
            s.lsq }.broadcast st.dest st.vk).freeStationAt p k st)
  /-- A load behind its gate, or a load or store without an address, stays. -/
  | stay (h : i.op.isMem = true)
      (hw : st.ea = none ∨ (i.op = .lw ∧ s.loadGateOpen st.dest = false)) : Completed i p k st s s

/-- In Execute every instruction answers a next state, and this is what it can be. -/
theorem exec_execute (i : Instr) (s : State) (p : PoolId) (k : Nat) (st : Station)
    (h : s.stage = .execute p k) (hs : s.station? p k = some st) :
    ∃ t, exec i s = .next t ∧ Completed i p k st s t := by
  cases i with
  | lw rd rs1 imm =>
    simp only [exec, execLw, h]
    refine ⟨_, rfl, ?_⟩
    simp only [State.completeLoad, hs]
    split
    · rename_i hg
      split
      · rename_i he; exact .stay rfl (.inl he)
      · rename_i ea he; exact .load rfl ea he hg
    · rename_i hg; exact .stay rfl (.inr ⟨rfl, by simpa using hg⟩)
  | sw rs1 rs2 imm =>
    simp only [exec, execSw, h]
    refine ⟨_, rfl, ?_⟩
    simp only [State.completeStore, hs]
    split
    · rename_i he; exact .stay rfl (.inl he)
    · rename_i ea he; exact .store rfl ea he
  | beq rs1 rs2 imm =>
    simp only [exec, execBeq, branching, h]
    refine ⟨_, rfl, ?_⟩
    simp only [State.completeBranch, hs]
    exact .branch (i := .beq rs1 rs2 imm) rfl
  | bne rs1 rs2 imm =>
    simp only [exec, execBne, branching, h]
    refine ⟨_, rfl, ?_⟩
    simp only [State.completeBranch, hs]
    exact .branch (i := .bne rs1 rs2 imm) rfl
  | jalr rd rs1 imm =>
    simp only [exec, execJalr, inert, h, reduceCtorEq, false_and, if_false]
    refine ⟨_, rfl, ?_⟩
    simp only [State.completeWith, hs]
    exact .plain (i := .jalr rd rs1 imm) rfl rfl
  | _ =>
    simp only [exec, execAdd, execSub, execAnd, execOr, execXor, execSlt, execAddi, execJal, execNop,
      computing, inert, h]
    refine ⟨_, rfl, ?_⟩
    simp only [State.completeWith, hs]
    exact .plain rfl rfl

/-! ## Commit -/

/-- The commit of a head of variant `op` with destination `rd`. -/
def commitOf (op : Op) (rd : Reg) (s : State) : State :=
  match op with
  | .add | .sub | .and | .or | .xor | .slt | .addi => s.commitWriting rd
  | .lw => s.commitLoad rd
  | .sw => s.commitStore
  | .beq | .bne => s.commitBranch
  | .jal | .jalr | .nop => s.commitPlain

/-- In Commit every instruction answers a next state. -/
theorem exec_commit (op : Op) (rd : Reg) (s : State) (h : s.stage = .commit) :
    exec (op.withDest rd) s = .next (commitOf op rd s) := by
  cases op <;>
    simp [exec, Op.withDest, Record.instr, execAdd, execSub, execAnd, execOr, execXor, execSlt, execAddi,
      execLw, execSw, execBeq, execBne, execJal, execJalr, execNop, computing, inert, branching, h, commitOf]

/-- In Commit an instruction is read by its variant and, where it writes a register, its destination. -/
theorem exec_commit_of (i : Instr) (rd : Reg) (s : State) (hs : s.stage = .commit)
    (hr : i.op.writesReg = true → i.rd = rd) : exec i s = .next (commitOf i.op rd s) := by
  rw [← exec_commit i.op rd s hs]
  cases i with
  | sw | beq | bne | jal | jalr | nop =>
    simp [exec, Instr.op, Op.withDest, Record.instr, execSw, execBeq, execBne, execJal, execJalr, execNop,
      inert, branching, hs]
  | _ => rw [← hr rfl]; simp [exec, Instr.op, Instr.rd, Op.withDest, Record.instr, execAdd, execSub, execAnd,
      execOr, execXor, execSlt, execAddi, execLw, computing, hs]

/-- The memory check passes at the first LSQ entry, when it is the resolved one of the head (R261). -/
theorem memoryHead_eq_some {h : RobEntry} {lsq : List LsqEntry} {q : LsqEntry} {a : Word} :
    memoryHead h lsq = some (q, a) ↔
      lsq.head? = some q ∧ q.tag = h.tag ∧ q.memReady = true ∧ q.addr = some a := by
  cases lsq with
  | nil => simp [memoryHead]
  | cons x l =>
    simp only [memoryHead, List.head?_cons, Option.some.injEq]
    split
    · rename_i hx
      simp only [Option.map_eq_some_iff, Prod.mk.injEq]
      constructor
      · rintro ⟨b, hb, rfl, rfl⟩; exact ⟨rfl, hx.1, hx.2, hb⟩
      · rintro ⟨rfl, -, -, hb⟩; exact ⟨a, hb, rfl, rfl⟩
    · rename_i hx
      constructor
      · simp
      · rintro ⟨rfl, h1, h2, -⟩; exact absurd ⟨h1, h2⟩ hx

/-- R261: the commit of the head stalls: a load or store that is not the resolved LSQ head. -/
def Stalls (h : RobEntry) (s : State) : Prop :=
  h.op.isMem = true ∧
    (memoryHead h s.lsq = none ∨ ∃ q a, memoryHead h s.lsq = some (q, a) ∧ h.op = .sw ∧ q.data = none)

/-- The commit of the head `h` aborts the cycle. -/
inductive Aborts (h : RobEntry) (s : State) : State → Prop where
  /-- R262. -/
  | fault (hm : h.op.isMem = true) (q : LsqEntry) (a : Word) (hq : memoryHead h s.lsq = some (q, a))
      (f : Fault) (hf : addressFault s.cfg h.pc a = some f) : Aborts h s (s.latchFault f)
  /-- R263, R272. -/
  | flush (hb : h.op.isCondBranch = true) (hp : decide (h.result = 1) ≠ h.pred) :
      Aborts h s (((s.trainBranch h (decide (h.result = 1))).logMispredict h).flush h.target)

/-- The commit of the head `h` retires it. -/
inductive Retires (h : RobEntry) (s : State) : State → Prop where
  /-- R263, R268. -/
  | branch (hb : h.op.isCondBranch = true) (hp : decide (h.result = 1) = h.pred) :
      Retires h s ((s.trainBranch h (decide (h.result = 1))).retire h)
  /-- R264, R268. -/
  | writing (hw : h.op.writesReg = true) (hm : h.op.isMem = false) :
      Retires h s ((s.commitReg h.rd h).retire h)
  /-- R264, R266, R268. -/
  | load (ho : h.op = .lw) (q : LsqEntry) (a : Word) (hq : memoryHead h s.lsq = some (q, a))
      (hf : addressFault s.cfg h.pc a = none) : Retires h s (((s.commitReg h.rd h).popLsq).retire h)
  /-- R265, R266, R268. -/
  | store (ho : h.op = .sw) (q : LsqEntry) (a v : Word) (hq : memoryHead h s.lsq = some (q, a))
      (hf : addressFault s.cfg h.pc a = none) (hv : q.data = some v) :
      Retires h s ((((s.accessL1D a true).memWrite a v).popLsq).retire h)
  /-- R268. -/
  | plain (hw : h.op.writesReg = false) (hm : h.op.isMem = false) (hb : h.op.isCondBranch = false) :
      Retires h s (s.retire h)

/-- The commit of a head stalls, aborts or retires. -/
theorem commitOf_cases (s : State) (h : RobEntry) (tl : List RobEntry) (hr : s.rob = h :: tl) :
    (Stalls h s ∧ commitOf h.op h.rd s = s) ∨ Aborts h s (commitOf h.op h.rd s) ∨
      Retires h s (commitOf h.op h.rd s) := by
  have hw : ∀ rd, s.commitWriting rd = (s.commitReg rd h).retire h := fun rd => by
    simp only [State.commitWriting, hr]
  have hp : s.commitPlain = s.retire h := by simp only [State.commitPlain, hr]
  have hbr : h.op.isCondBranch = true → Aborts h s s.commitBranch ∨ Retires h s s.commitBranch := fun hb => by
    have e : ∀ w : Word, (w == 1) = decide (w = 1) := fun w => rfl
    simp only [State.commitBranch, hr, e]
    split
    · rename_i h1; exact .inr (.branch hb h1)
    · rename_i h1; exact .inl (.flush hb h1)
  cases ho : h.op with
  | lw =>
    simp only [commitOf, State.commitLoad, hr]
    split
    · rename_i hq; exact .inl ⟨⟨by rw [ho]; rfl, .inl hq⟩, rfl⟩
    · rename_i q a hq
      split
      · rename_i f hf; exact .inr (.inl (.fault (by rw [ho]; rfl) q a hq f hf))
      · rename_i hf; exact .inr (.inr (.load ho q a hq hf))
  | sw =>
    simp only [commitOf, State.commitStore, hr]
    split
    · rename_i hq; exact .inl ⟨⟨by rw [ho]; rfl, .inl hq⟩, rfl⟩
    · rename_i q a hq
      cases hf : addressFault s.cfg h.pc a with
      | some f => exact .inr (.inl (.fault (by rw [ho]; rfl) q a hq f hf))
      | none =>
        cases hv : q.data with
        | none => exact .inl ⟨⟨by rw [ho]; rfl, .inr ⟨q, a, hq, ho, hv⟩⟩, rfl⟩
        | some v => exact .inr (.inr (.store ho q a v hq hf hv))
  | beq => exact .inr (hbr (by rw [ho]; rfl))
  | bne => exact .inr (hbr (by rw [ho]; rfl))
  | jal => rw [commitOf, hp]; exact .inr (.inr (.plain (by rw [ho]; rfl) (by rw [ho]; rfl) (by rw [ho]; rfl)))
  | jalr => rw [commitOf, hp]; exact .inr (.inr (.plain (by rw [ho]; rfl) (by rw [ho]; rfl) (by rw [ho]; rfl)))
  | nop => rw [commitOf, hp]; exact .inr (.inr (.plain (by rw [ho]; rfl) (by rw [ho]; rfl) (by rw [ho]; rfl)))
  | _ => simp only [commitOf]; rw [hw]; exact .inr (.inr (.writing (by rw [ho]; rfl) (by rw [ho]; rfl)))

/-- A retiring commit counts one instruction and pops the head, and neither flushes nor faults. -/
theorem Retires.counts {h : RobEntry} {s t : State} (r : Retires h s t) :
    t.counters.committed = s.counters.committed + 1 ∧ t.counters.flushes = s.counters.flushes ∧
      t.fault = s.fault ∧ t.rob = s.rob.tail := by
  cases r <;> simp [State.commitReg] <;> split <;> simp

/-- A retiring commit takes the first LSQ entry with it when the head is a load or store (R266). -/
theorem Retires.lsq {h : RobEntry} {s t : State} (r : Retires h s t) :
    t.lsq = if h.op.isMem then s.lsq.tail else s.lsq := by
  cases r with
  | branch hb => revert hb; cases h.op <;> simp [Op.isCondBranch, Op.isMem, Op.lsqKind]
  | writing _ hm => rw [hm]; simp [State.commitReg]; split <;> simp
  | load ho => rw [ho]; simp [Op.isMem, Op.lsqKind, State.commitReg]; split <;> simp
  | store ho => rw [ho]; simp [Op.isMem, Op.lsqKind]
  | plain _ hm => rw [hm]; simp

/-- An aborting commit latches a fault or counts a flush. -/
theorem Aborts.marks {h : RobEntry} {s t : State} (r : Aborts h s t) :
    t.fault.isSome = true ∨ t.counters.flushes = s.counters.flushes + 1 := by
  cases r <;> simp

end Sys2Proof.Machine
end

