-- ==== Sys2Proof/Laws/Stages.lean ====
section
/-! SUPPORT. What each stage and a step can do, once and for all: every stage answers a next state, and
the inductive relations below list what that state can be. -/

namespace Sys2Proof.Machine

/-! ## Commit -/

/-- The Commit stage with `n` attempts from `s` ends in `t`; `b` says whether it aborted the cycle (R270). -/
inductive Committed : Nat → State → State → Bool → Prop where
  | zero (s : State) : Committed 0 s s false
  | empty (n : Nat) (s : State) (hr : s.rob = []) : Committed (n + 1) s s false
  | notReady (n : Nat) (s : State) (h : RobEntry) (tl : List RobEntry) (hr : s.rob = h :: tl)
      (hd : h.ready = false) : Committed (n + 1) s s false
  | stall (n : Nat) (s : State) (h : RobEntry) (tl : List RobEntry) (hr : s.rob = h :: tl)
      (hd : h.ready = true) (hs : Stalls h s) : Committed (n + 1) s (s.atStage .commit) false
  | abort (n : Nat) (s t : State) (h : RobEntry) (tl : List RobEntry) (hr : s.rob = h :: tl)
      (hd : h.ready = true) (ha : Aborts h (s.atStage .commit) t) : Committed (n + 1) s t true
  | retire (n : Nat) (s u t : State) (b : Bool) (h : RobEntry) (tl : List RobEntry) (hr : s.rob = h :: tl)
      (hd : h.ready = true) (hu : Retires h (s.atStage .commit) u) (ht : Committed n u t b) :
      Committed (n + 1) s t b

/-- The Commit stage of a machine without a fault always answers, by `Committed`. -/
theorem commitStage_total (n : Nat) (s : State) (hf : s.fault = none) :
    ∃ t b, commitStage n s = .next (t, b) ∧ Committed n s t b := by
  induction n generalizing s with
  | zero => exact ⟨s, false, rfl, .zero s⟩
  | succ n ih =>
    cases hr : s.rob with
    | nil => exact ⟨s, false, by simp only [commitStage, hr], .empty n s hr⟩
    | cons h tl =>
      cases hd : h.ready with
      | false => exact ⟨s, false, by simp [commitStage, hr, hd], .notReady n s h tl hr hd⟩
      | true =>
        have he := exec_commit h.op h.rd (s.atStage .commit) rfl
        rcases commitOf_cases (s.atStage .commit) h tl hr with ⟨hs, hc⟩ | ha | hu
        · rw [hc] at he
          refine ⟨s.atStage .commit, false, ?_, .stall n s h tl hr hd hs⟩
          simp [commitStage, hr, hd, he, attemptAborted, attemptRetired, hf]
        · refine ⟨_, true, ?_, .abort n s _ h tl hr hd ha⟩
          have hm := ha.marks
          simp only [State.atStage_counters] at hm
          simp only [commitStage, hr, hd, he, attemptAborted, if_true]
          rcases hm with hm | hm <;> simp [hm]
        · obtain ⟨hc, hfl, hft, -⟩ := hu.counts
          simp only [State.atStage_counters, State.atStage_fault] at hc hfl hft
          obtain ⟨t, b, h1, h2⟩ := ih _ (hft.trans hf)
          refine ⟨t, b, ?_, .retire n s _ t b h tl hr hd hu h2⟩
          simp [commitStage, hr, hd, he, attemptAborted, attemptRetired, hc, hfl, hft, hf, h1]

/-- A commit attempt that retires its head goes on with the next one, one that flushes or latches a fault
aborts (R269, R270). -/
theorem commitStage_succ {s u : State} {h : RobEntry} {tl : List RobEntry} (n : Nat) (hf : s.fault = none)
    (hr : s.rob = h :: tl) (hd : h.ready = true) (he : commitOf h.op h.rd (s.atStage .commit) = u) :
    (u.counters.committed = s.counters.committed + 1 → commitStage (n + 1) s = commitStage n u) ∧
    (u.fault ≠ none ∨ u.counters.flushes ≠ s.counters.flushes → commitStage (n + 1) s = .next (u, true)) := by
  have hx := exec_commit h.op h.rd (s.atStage .commit) rfl
  rw [he] at hx
  have hc := commitOf_cases (s.atStage .commit) h tl hr
  rw [he] at hc
  refine ⟨fun h1 => ?_, fun h1 => ?_⟩
  · have h2 : u.fault = none ∧ u.counters.flushes = s.counters.flushes := by
      rcases hc with ⟨-, rfl⟩ | ha | hu
      · simp at h1
      · cases ha <;> simp at h1
      · obtain ⟨-, h3, h4, -⟩ := hu.counts
        exact ⟨h4.trans hf, h3⟩
    simp [commitStage, hr, hd, hx, attemptAborted, attemptRetired, h1, h2.1, h2.2]
  · have h2 : attemptAborted s u = true := by
      simpa [attemptAborted, Option.isSome_iff_ne_none] using h1
    simp [commitStage, hr, hd, hx, h2]

/-- What a Commit stage that answered has done. -/
theorem commitStage_committed {n : Nat} {s t : State} {b : Bool} (hf : s.fault = none)
    (h : commitStage n s = .next (t, b)) : Committed n s t b := by
  obtain ⟨t', b', h1, h2⟩ := commitStage_total n s hf
  rw [h] at h1
  cases h1
  exact h2

/-- A property that the commit attempts and the change of `stage` keep holds after the Commit stage. -/
theorem Committed.keeps {P : State → Prop} (hst : ∀ s x, P s → P (s.atStage x))
    (hab : ∀ h tl s t, P s → s.rob = h :: tl → h.ready = true → Aborts h s t → P t)
    (hre : ∀ h tl s t, P s → s.rob = h :: tl → h.ready = true → Retires h s t → P t)
    {n : Nat} {s t : State} {b : Bool} (c : Committed n s t b) : P s → P t := by
  induction c with
  | zero | empty | notReady => exact id
  | stall n s => exact hst s _
  | abort n s t h tl hr hd ha => exact fun hs => hab h tl _ t (hst s .commit hs) hr hd ha
  | retire n s u t b h tl hr hd hu _ ih => exact fun hs => ih (hre h tl _ u (hst s .commit hs) hr hd hu)

/-! ## Execute -/

/-- A visit of station `k` of pool `p` from `s` ends in `t` (R230, R245). -/
inductive Visited (p : PoolId) (k : Nat) (s : State) : State → Prop where
  | skip (h : ∀ st, s.station? p k = some st → st.busy = false) : Visited p k s s
  | wait (st : Station) (hs : s.station? p k = some st) (hb : st.busy = true)
      (hw : (st.captureFrom s.rob).wakeable = false) : Visited p k s (s.setStation p k (st.captureFrom s.rob))
  | count (st : Station) (hs : s.station? p k = some st) (hb : st.busy = true)
      (hw : (st.captureFrom s.rob).wakeable = true) (hr : (st.captureFrom s.rob).countdown.rem ≠ 0) :
      Visited p k s (s.setStation p k (st.captureFrom s.rob).countdown)
  | complete (st : Station) (t : State) (hs : s.station? p k = some st) (hb : st.busy = true)
      (hw : (st.captureFrom s.rob).wakeable = true) (hr : (st.captureFrom s.rob).countdown.rem = 0)
      (hc : Completed st.instr.instr p k (st.captureFrom s.rob).countdown
        ((s.setStation p k (st.captureFrom s.rob).countdown).atStage (.execute p k)) t) : Visited p k s t

@[simp] theorem Station.captureFrom_instr (st : Station) (rob : List RobEntry) :
    (st.captureFrom rob).instr = st.instr := rfl
@[simp] theorem Station.captureFrom_rem (st : Station) (rob : List RobEntry) :
    (st.captureFrom rob).rem = st.rem := rfl
@[simp] theorem Station.captureFrom_total (st : Station) (rob : List RobEntry) :
    (st.captureFrom rob).total = st.total := rfl
@[simp] theorem Station.captureFrom_dest (st : Station) (rob : List RobEntry) :
    (st.captureFrom rob).dest = st.dest := rfl
@[simp] theorem Station.captureFrom_busy (st : Station) (rob : List RobEntry) :
    (st.captureFrom rob).busy = st.busy := rfl
@[simp] theorem Station.captureFrom_ea (st : Station) (rob : List RobEntry) :
    (st.captureFrom rob).ea = st.ea := rfl
@[simp] theorem Station.countdown_instr (st : Station) : st.countdown.instr = st.instr := by
  unfold Station.countdown; split <;> rfl
@[simp] theorem Station.countdown_total (st : Station) : st.countdown.total = st.total := by
  unfold Station.countdown; split <;> rfl
@[simp] theorem Station.countdown_dest (st : Station) : st.countdown.dest = st.dest := by
  unfold Station.countdown; split <;> rfl
@[simp] theorem Station.countdown_busy (st : Station) : st.countdown.busy = st.busy := by
  unfold Station.countdown; split <;> rfl
@[simp] theorem Station.countdown_vj (st : Station) : st.countdown.vj = st.vj := by
  unfold Station.countdown; split <;> rfl
@[simp] theorem Station.countdown_vk (st : Station) : st.countdown.vk = st.vk := by
  unfold Station.countdown; split <;> rfl
@[simp] theorem Station.countdown_qj (st : Station) : st.countdown.qj = st.qj := by
  unfold Station.countdown; split <;> rfl
@[simp] theorem Station.countdown_qk (st : Station) : st.countdown.qk = st.qk := by
  unfold Station.countdown; split <;> rfl
theorem Station.countdown_rem (st : Station) : st.countdown.rem = st.rem - 1 := by
  unfold Station.countdown; split
  · rfl
  · omega

/-- Every other station reads as before. -/
theorem station?_setStation_ne (s : State) (p p' : PoolId) (k k' : Nat) (st : Station)
    (h : (p', k') ≠ (p, k)) : (s.setStation p k st).station? p' k' = s.station? p' k' := by
  cases p <;> cases p' <;>
    simp_all [State.station?, State.setStation, State.setPool, State.pool, List.getElem?_set] <;> grind

/-- A visit always answers, by `Visited`. -/
theorem visit_total (p : PoolId) (k : Nat) (s : State) : ∃ t, visit p k s = .next t ∧ Visited p k s t := by
  cases hs : s.station? p k with
  | none => exact ⟨s, by simp only [visit, hs], .skip (by simp [hs])⟩
  | some st =>
    cases hb : st.busy with
    | false => exact ⟨s, by simp [visit, hs, hb], .skip (by simp [hs, hb])⟩
    | true =>
      cases hw : (st.captureFrom s.rob).wakeable with
      | false => exact ⟨_, by simp [visit, hs, hb, hw], .wait st hs hb hw⟩
      | true =>
        by_cases hr : (st.captureFrom s.rob).countdown.rem = 0
        · obtain ⟨t, h1, h2⟩ := exec_execute st.instr.instr
            ((s.setStation p k (st.captureFrom s.rob).countdown).atStage (.execute p k)) p k
            (st.captureFrom s.rob).countdown rfl (State.station?_setStation_self s p k _ st hs)
          exact ⟨t, by simp [visit, hs, hb, hw, hr, h1], .complete st t hs hb hw hr h2⟩
        · exact ⟨_, by simp [visit, hs, hb, hw, hr], .count st hs hb hw hr⟩

/-- The visits of a list of stations from `s` end in `t`. -/
inductive Scanned : List (PoolId × Nat) → State → State → Prop where
  | nil (s : State) : Scanned [] s s
  | cons (p : PoolId) (k : Nat) (l : List (PoolId × Nat)) (s u t : State) (hv : Visited p k s u)
      (hl : Scanned l u t) : Scanned ((p, k) :: l) s t

/-- A scan always answers, by `Scanned`. -/
theorem scan_total (l : List (PoolId × Nat)) (s : State) : ∃ t, scan l s = .next t ∧ Scanned l s t := by
  induction l generalizing s with
  | nil => exact ⟨s, rfl, .nil s⟩
  | cons x l ih =>
    obtain ⟨u, h1, h2⟩ := visit_total x.1 x.2 s
    obtain ⟨t, h3, h4⟩ := ih u
    exact ⟨t, by simp only [scan, h1, h3], .cons _ _ l s u t h2 h4⟩

/-- A scan is the visits of its list, one after the other: the states between them (R230, R231). -/
theorem scan_visits (l : List (PoolId × Nat)) (s : State) : ∃ f : Nat → State, f 0 = s ∧
    (∀ j p k, l[j]? = some (p, k) → visit p k (f j) = .next (f (j + 1))) ∧ scan l s = .next (f l.length) := by
  induction l generalizing s with
  | nil => exact ⟨fun _ => s, rfl, by simp, rfl⟩
  | cons x l ih =>
    obtain ⟨u, hu, -⟩ := visit_total x.1 x.2 s
    obtain ⟨f, h0, hv, ht⟩ := ih u
    refine ⟨fun j => if j = 0 then s else f (j - 1), rfl, fun j p k hj => ?_, by simp only [scan, hu]; simpa using ht⟩
    cases j with
    | zero => simp only [List.getElem?_cons_zero, Option.some.injEq] at hj; subst hj; simpa [h0] using hu
    | succ j => simpa using hv j p k (by simpa using hj)

/-- The Execute stage always answers, by `Scanned`. -/
theorem executeStage_total (s : State) : ∃ t, executeStage s = .next t ∧ Scanned (scanOrder s) s t :=
  scan_total _ _

/-- What an Execute stage that answered has done. -/
theorem executeStage_scanned {s t : State} (h : executeStage s = .next t) : Scanned (scanOrder s) s t := by
  obtain ⟨t', h1, h2⟩ := executeStage_total s
  rw [h] at h1
  cases h1
  exact h2

/-- A property that every visit keeps holds after the scan. -/
theorem Scanned.keeps {P : State → Prop} (hv : ∀ p k s t, P s → Visited p k s t → P t)
    {l : List (PoolId × Nat)} {s t : State} (c : Scanned l s t) : P s → P t := by
  induction c with
  | nil => exact id
  | cons p k l s u t h _ ih => exact fun hs => ih (hv p k s u hs h)

/-! ## Issue -/

/-- The Issue stage with `n` attempts from `s` ends in `t` (R215). -/
inductive Issued : Nat → State → State → Prop where
  | zero (s : State) : Issued 0 s s
  | stop (n : Nat) (s : State) (h : s.nextIssue = none) : Issued (n + 1) s s
  | issue (n : Nat) (s t : State) (i : Instr) (k : Nat) (h : s.nextIssue = some (i, k))
      (ht : Issued n ((s.atStage (.issue k)).issue i k (predicted i s) (nextFetch i (predicted i s) s.pc)) t) :
      Issued (n + 1) s t

/-- The Issue stage always answers, by `Issued`. -/
theorem issueStage_total (n : Nat) (s : State) : ∃ t, issueStage n s = .next t ∧ Issued n s t := by
  induction n generalizing s with
  | zero => exact ⟨s, rfl, .zero s⟩
  | succ n ih =>
    cases h : s.nextIssue with
    | none => exact ⟨s, by simp only [issueStage, h], .stop n s h⟩
    | some x =>
      obtain ⟨i, k⟩ := x
      have he := exec_issue i (s.atStage (.issue k)) k rfl
      obtain ⟨t, h1, h2⟩ := ih ((s.atStage (.issue k)).issue i k (predicted i s)
        (nextFetch i (predicted i s) s.pc))
      refine ⟨t, ?_, .issue n s t i k h h2⟩
      simp only [issueStage, h, he]
      exact h1

/-- What an Issue stage that answered has done. -/
theorem issueStage_issued {n : Nat} {s t : State} (h : issueStage n s = .next t) : Issued n s t := by
  obtain ⟨t', h1, h2⟩ := issueStage_total n s
  rw [h] at h1
  cases h1
  exact h2

/-- What holds when an instruction is about to issue (R201 to R203). -/
theorem nextIssue_some {s : State} {i : Instr} {k : Nat} (h : s.nextIssue = some (i, k)) :
    s.rob.length < s.cfg.robSize ∧ (∃ r, s.program.lookup s.pc = some r ∧ r.instr = i) ∧
    (∃ st, s.station? i.op.pool k = some st ∧ st.busy = false) ∧
    ∀ j st, j < k → s.station? i.op.pool j = some st → st.busy = true := by
  unfold State.nextIssue at h
  split at h
  · rename_i hr
    split at h
    · simp at h
    · rename_i r hl
      simp only [Option.map_eq_some_iff, Prod.mk.injEq, freeStation] at h
      obtain ⟨j, hj, rfl, rfl⟩ := h
      rw [List.findIdx?_eq_some_iff_getElem] at hj
      obtain ⟨hlt, hb, hmin⟩ := hj
      refine ⟨hr, ⟨r, hl, rfl⟩, ⟨_, List.getElem?_eq_getElem hlt, by simpa using hb⟩, ?_⟩
      intro j' st hlt' hst
      simp only [State.station?] at hst
      obtain ⟨hb', he⟩ := List.getElem?_eq_some_iff.1 hst
      have := hmin j' hlt'
      rw [he] at this
      simpa using this
  · simp at h

/-- Where the stop tests pass, the next attempt is the instruction at `pc` in the free station of the lowest
index (R201 to R203). -/
theorem nextIssue_eq_some {s : State} {r : Record} {k : Nat} (hr : s.rob.length < s.cfg.robSize)
    (hl : s.program.lookup s.pc = some r)
    (hk : ∃ st, s.station? r.instr.op.pool k = some st ∧ st.busy = false)
    (hj : ∀ j st, j < k → s.station? r.instr.op.pool j = some st → st.busy = true) :
    s.nextIssue = some (r.instr, k) := by
  obtain ⟨st, hs, hb⟩ := hk
  obtain ⟨hlt, he⟩ := List.getElem?_eq_some_iff.1 hs
  simp only [State.nextIssue, hr, if_true, hl, freeStation]
  rw [List.findIdx?_eq_some_iff_getElem.2 ⟨hlt, by simp [he, hb], fun j hjk => ?_⟩]
  · rfl
  · have hx := hj j _ hjk (List.getElem?_eq_getElem (Nat.lt_trans hjk hlt))
    rw [hx]
    decide

/-- An attempt whose stop tests pass issues, and the remaining attempts follow (R215). -/
theorem issueStage_succ {s : State} {i : Instr} {k : Nat} (h : s.nextIssue = some (i, k)) :
    ∃ t, exec i (s.atStage (.issue k)) = .next t ∧ ∀ n, issueStage (n + 1) s = issueStage n t :=
  ⟨_, exec_issue i (s.atStage (.issue k)) k rfl, fun n => by
    simp only [issueStage, h, exec_issue i (s.atStage (.issue k)) k rfl]⟩

/-- When a stop test ends the Issue stage (R201, R202). -/
theorem nextIssue_none {s : State} : s.nextIssue = none ↔
    s.cfg.robSize ≤ s.rob.length ∨ s.program.lookup s.pc = none ∨
      ∃ r, s.program.lookup s.pc = some r ∧ ∀ st ∈ s.pool r.instr.op.pool, st.busy = true := by
  unfold State.nextIssue
  split
  · rename_i h
    split
    · rename_i hl; simp [hl]
    · rename_i r hl
      simp only [Option.map_eq_none_iff, freeStation, List.findIdx?_eq_none_iff, hl]
      constructor
      · intro hh; exact .inr (.inr ⟨r, rfl, fun st hst => by simpa using hh st hst⟩)
      · rintro (hh | hh | ⟨r', hr', hh⟩)
        · omega
        · simp at hh
        · cases hr'; intro st hst; simp [hh st hst]
  · rename_i h; simp only [true_iff]; exact .inl (by omega)

/-- A property that an issue and the change of `stage` keep holds after the Issue stage. -/
theorem Issued.keeps {P : State → Prop} (hst : ∀ s x, P s → P (s.atStage x))
    (hi : ∀ s i k, P s → s.nextIssue = some (i, k) →
      P (s.issue i k (predicted i s) (nextFetch i (predicted i s) s.pc)))
    {n : Nat} {s t : State} (c : Issued n s t) : P s → P t := by
  induction c with
  | zero | stop => exact id
  | issue n s t i k h _ ih => exact fun hs => ih (hi (s.atStage (.issue k)) i k (hst s _ hs) h)

/-! ## The step -/

/-- One cycle of a machine without a fault, from `s` to `t` (R180). -/
inductive Cycled (s : State) : State → Prop where
  | aborted (t : State) (hc : Committed s.cfg.commitWidth s.beginCycle t true) : Cycled s t.endCycle
  | full (t u v : State) (hc : Committed s.cfg.commitWidth s.beginCycle t false)
      (he : Scanned (scanOrder t) t u) (hi : Issued u.cfg.width u v) : Cycled s v.endCycle

/-- A step of an admitted machine without a fault answers, by `Cycled`. -/
theorem step_total (s : State) (ha : s.Admitted) (hf : s.fault = none) :
    ∃ t, step s = .next t ∧ Cycled s t := by
  obtain ⟨t, b, h1, h2⟩ := commitStage_total s.cfg.commitWidth s.beginCycle hf
  have ha' : startRefusal s.cfg s.program = none := ha
  cases b with
  | true => exact ⟨_, by simp [step, ha', hf, cycle, h1], .aborted t h2⟩
  | false =>
    obtain ⟨u, h3, h4⟩ := executeStage_total t
    obtain ⟨v, h5, h6⟩ := issueStage_total u.cfg.width u
    exact ⟨_, by simp [step, ha', hf, cycle, h1, backEnd, h3, h5], .full t u v h2 h4 h6⟩

/-- What a step that answered has done. -/
theorem step_cases {s t : State} (h : step s = .next t) :
    s.Admitted ∧ ((s.fault ≠ none ∧ t = s) ∨ (s.fault = none ∧ Cycled s t)) := by
  have ha : s.Admitted := by
    unfold step at h
    split at h
    · simp at h
    · assumption
  refine ⟨ha, ?_⟩
  cases hf : s.fault with
  | none =>
    obtain ⟨t', h1, h2⟩ := step_total s ha hf
    rw [h] at h1
    cases h1
    exact .inr ⟨rfl, h2⟩
  | some f =>
    have ha' : startRefusal s.cfg s.program = none := ha
    simp [step, ha', hf] at h
    exact .inl ⟨by simp, h.symm⟩

/-- A property that everything a step does keeps holds after the step. -/
theorem step_keeps {P : State → Prop} (hbegin : ∀ s, P s → P s.beginCycle) (hend : ∀ s, P s → P s.endCycle)
    (hst : ∀ s x, P s → P (s.atStage x))
    (hab : ∀ h tl s t, P s → s.rob = h :: tl → h.ready = true → Aborts h s t → P t)
    (hre : ∀ h tl s t, P s → s.rob = h :: tl → h.ready = true → Retires h s t → P t)
    (hv : ∀ p k s t, P s → Visited p k s t → P t)
    (hi : ∀ s i k, P s → s.nextIssue = some (i, k) →
      P (s.issue i k (predicted i s) (nextFetch i (predicted i s) s.pc)))
    {s t : State} (h : step s = .next t) (hs : P s) : P t := by
  obtain ⟨-, ⟨-, rfl⟩ | ⟨-, c⟩⟩ := step_cases h
  · exact hs
  · cases c with
    | aborted t hc => exact hend t (hc.keeps hst hab hre (hbegin s hs))
    | full t u v hc he hi' =>
      exact hend v (hi'.keeps hst hi (he.keeps hv (hc.keeps hst hab hre (hbegin s hs))))

end Sys2Proof.Machine
end

