-- ==== Sys2Proof/Laws/Queues.lean ====
section
/-! SUPPORT. The queues and pools: finding and updating entries by tag, replacing a station, and what a
station takes over at a capture. -/

namespace Sys2Proof.Machine

/-! ## The ROB -/

/-- Entries of one tag are one entry, where tags rise. -/
theorem rob_unique {rob : List RobEntry} (h : rob.Pairwise fun a b => a.tag < b.tag) {a b : RobEntry}
    (ha : a ∈ rob) (hb : b ∈ rob) (ht : a.tag = b.tag) : a = b := by
  induction rob with
  | nil => simp at ha
  | cons x l ih =>
    obtain ⟨hx, hl⟩ := List.pairwise_cons.1 h
    simp only [List.mem_cons] at ha hb
    rcases ha with rfl | ha <;> rcases hb with rfl | hb
    · rfl
    · have := hx _ hb; omega
    · have := hx _ ha; omega
    · exact ih hl ha hb

/-- A found entry is in the ROB and has the tag. -/
theorem robFind_some {rob : List RobEntry} {t : Nat} {e : RobEntry} (h : robFind rob t = some e) :
    e ∈ rob ∧ e.tag = t :=
  ⟨List.mem_of_find?_eq_some h, by have := List.find?_some h; simpa using this⟩

/-- An entry is found under its tag, where tags rise. -/
theorem robFind_mem {rob : List RobEntry} (h : rob.Pairwise fun a b => a.tag < b.tag) {e : RobEntry}
    (he : e ∈ rob) : robFind rob e.tag = some e := by
  cases hf : robFind rob e.tag with
  | none => exact (List.find?_eq_none.1 hf e he (by simp)).elim
  | some e' =>
    obtain ⟨h1, h2⟩ := robFind_some hf
    rw [rob_unique h h1 he h2]

/-- Nothing is found exactly when no entry has the tag. -/
theorem robFind_none {rob : List RobEntry} {t : Nat} : robFind rob t = none ↔ ∀ e ∈ rob, e.tag ≠ t := by
  simp [robFind, List.find?_eq_none]

/-- The entries after an update of tag `t`. -/
theorem mem_robUpdate {t : Nat} {f : RobEntry → RobEntry} {rob : List RobEntry} {e : RobEntry} :
    e ∈ robUpdate t f rob ↔ ∃ e' ∈ rob, e = if e'.tag = t then f e' else e' := by
  simp only [robUpdate, List.mem_map]
  constructor
  · rintro ⟨a, h, rfl⟩; exact ⟨a, h, rfl⟩
  · rintro ⟨a, h, rfl⟩; exact ⟨a, h, rfl⟩

/-- An update that leaves `g` of every entry alone leaves the list of `g` alone. -/
theorem robUpdate_map {α : Type} (g : RobEntry → α) {f : RobEntry → RobEntry} (hf : ∀ e, g (f e) = g e)
    (t : Nat) (rob : List RobEntry) : (robUpdate t f rob).map g = rob.map g := by
  simp only [robUpdate, List.map_map]
  refine List.map_congr_left fun e _ => ?_
  simp only [Function.comp]
  split
  · exact hf e
  · rfl

/-- Two updates of one tag are one update. -/
theorem robUpdate_robUpdate (t : Nat) (f g : RobEntry → RobEntry) (hg : ∀ e, (g e).tag = e.tag)
    (rob : List RobEntry) : robUpdate t f (robUpdate t g rob) = robUpdate t (fun e => f (g e)) rob := by
  simp only [robUpdate, List.map_map]
  refine List.map_congr_left fun e _ => ?_
  simp only [Function.comp]
  by_cases h : e.tag = t <;> simp [h, hg]

/-- Finding after an update that keeps tags. -/
theorem robFind_robUpdate (t t' : Nat) (f : RobEntry → RobEntry) (hf : ∀ e, (f e).tag = e.tag)
    (rob : List RobEntry) : robFind (robUpdate t f rob) t' =
      if t' = t then (robFind rob t').map f else robFind rob t' := by
  induction rob with
  | nil => simp [robFind, robUpdate]
  | cons e l ih =>
    simp only [robFind, robUpdate, List.map_cons, List.find?_cons] at ih ⊢
    by_cases h : e.tag = t
    · simp only [h, if_true, hf]
      by_cases ht : t = t'
      · subst ht; simp
      · have : (t == t') = false := by simpa using ht
        simp only [this]; rw [ih]
    · simp only [h, if_false]
      by_cases ht : e.tag = t'
      · have : t' ≠ t := by rintro rfl; exact h ht
        simp [ht, this]
      · have : (e.tag == t') = false := by simpa using ht
        simp only [this]; rw [ih]

/-! ## The LSQ -/

/-- The entries after an update of tag `t`. -/
theorem mem_lsqUpdate {t : Nat} {f : LsqEntry → LsqEntry} {lsq : List LsqEntry} {q : LsqEntry} :
    q ∈ lsqUpdate t f lsq ↔ ∃ q' ∈ lsq, q = if q'.tag = t then f q' else q' := by
  simp only [lsqUpdate, List.mem_map]
  constructor
  · rintro ⟨a, h, rfl⟩; exact ⟨a, h, rfl⟩
  · rintro ⟨a, h, rfl⟩; exact ⟨a, h, rfl⟩

/-- An update that leaves `g` of every entry alone leaves the list of `g` alone. -/
theorem lsqUpdate_map {α : Type} (g : LsqEntry → α) {f : LsqEntry → LsqEntry} (hf : ∀ e, g (f e) = g e)
    (t : Nat) (lsq : List LsqEntry) : (lsqUpdate t f lsq).map g = lsq.map g := by
  simp only [lsqUpdate, List.map_map]
  refine List.map_congr_left fun e _ => ?_
  simp only [Function.comp]
  split
  · exact hf e
  · rfl

/-- The memory commit check passes only for the LSQ head itself (R261). -/
theorem memoryHead_some {h : RobEntry} {lsq : List LsqEntry} {q : LsqEntry} {a : Word}
    (hq : memoryHead h lsq = some (q, a)) :
    ∃ ql, lsq = q :: ql ∧ q.tag = h.tag ∧ q.memReady = true ∧ q.addr = some a := by
  unfold memoryHead at hq
  split at hq
  · simp at hq
  · rename_i q' ql
    split at hq
    · rename_i hc
      simp only [Option.map_eq_some_iff, Prod.mk.injEq] at hq
      obtain ⟨a', ha, rfl, rfl⟩ := hq
      exact ⟨ql, rfl, hc.1, hc.2, ha⟩
    · simp at hq

/-! ## The pools -/

/-- A station is one of the stations. -/
theorem station?_mem {s : State} {p : PoolId} {k : Nat} {st : Station} (h : s.station? p k = some st) :
    st ∈ s.stations := by
  have := List.mem_of_getElem? h
  cases p <;> simp_all [State.pool, State.stations]

/-- Replacing a station of a pool replaces one station in the list of all. -/
theorem stations_setStation {s : State} {p : PoolId} {k : Nat} {st : Station}
    (h : s.station? p k = some st) :
    ∃ j, s.stations[j]? = some st ∧ ∀ st', (s.setStation p k st').stations = s.stations.set j st' := by
  obtain ⟨hk, -⟩ := List.getElem?_eq_some_iff.1 h
  cases p with
  | alu =>
    have hk' : k < s.alu.length := hk
    refine ⟨k, ?_, fun st' => ?_⟩
    · rw [State.stations, List.getElem?_append_left hk']; exact h
    · simp [State.stations, State.setStation, State.pool, List.set_append_left _ _ hk']
  | ls =>
    have hk' : k < s.ls.length := hk
    refine ⟨s.alu.length + k, ?_, fun st' => ?_⟩
    · rw [State.stations, List.getElem?_append_right (by omega), Nat.add_sub_cancel_left]; exact h
    · simp [State.stations, State.setStation, State.pool, List.set_append_right _ _ (Nat.le_add_right _ k)]

/-- Counting after one element of a list was replaced. -/
theorem countP_set {α : Type} (f : α → Bool) {l : List α} {j : Nat} {x y : α} (h : l[j]? = some x) :
    (l.set j y).countP f + (if f x then 1 else 0) = l.countP f + (if f y then 1 else 0) := by
  induction l generalizing j with
  | nil => simp at h
  | cons a l ih =>
    cases j with
    | zero => simp at h; subst h; simp [List.countP_cons]; omega
    | succ j => simp at h; have := ih h; simp [List.countP_cons]; omega

/-- An element of a list after one was replaced. -/
theorem mem_set_cases {α : Type} {l : List α} {j : Nat} {y z : α} (h : z ∈ l.set j y) : z = y ∨ z ∈ l := by
  rcases List.mem_or_eq_of_mem_set h with h | h
  · exact .inr h
  · exact .inl h

/-! ## Capture -/

/-- What one slot takes at a capture from the ROB (R232): it keeps its tag, or has a live, ready
producer's result. -/
theorem captureLive_cases (rob : List RobEntry) (v : Word) (q : Option Nat) :
    captureLive rob (v, q) = (v, q) ∨
      ∃ p e, q = some p ∧ robFind rob p = some e ∧ e.ready = true ∧ captureLive rob (v, q) = (e.result, none) := by
  unfold captureLive
  cases q with
  | none => exact .inl rfl
  | some p =>
    cases hf : robFind rob p with
    | none => simp [hf]
    | some e => cases hr : e.ready <;> simp [hf, hr]

/-- What one slot takes at a commit-time capture (R267). -/
theorem captureSlot_cases (t : Nat) (x v : Word) (q : Option Nat) :
    (q ≠ some t ∧ captureSlot t x (v, q) = (v, q)) ∨ (q = some t ∧ captureSlot t x (v, q) = (x, none)) := by
  unfold captureSlot
  by_cases h : q = some t <;> simp [h]

end Sys2Proof.Machine
end

