-- ==== Sys2Proof/Laws/Check.lean ====
section
/-! SUPPORT. The checks before a run (spec/60_exceptions.md R329): what passing them means, and what the
program store gives a machine that passed them. -/

namespace Sys2Proof.Machine

/-- A slot is refused exactly when it is not well formed (R115). -/
theorem slotRefusal_none (mode : JalrMode) (a : Word) (x : Slot) :
    slotRefusal mode a x = none ↔ x.wf mode a = true := by
  cases x with
  | unknown w => simp [slotRefusal, Slot.wf]
  | record r =>
    simp only [slotRefusal, Slot.wf]
    cases hr : r.wf a with
    | false => simp
    | true =>
      by_cases hm : mode = .refuse <;> by_cases ho : r.op = .jalr <;> simp [hm, ho]

/-- A machine is admitted exactly when its parameters and its program store are well formed (R8, R115). -/
theorem startRefusal_none (c : Config) (p : Program) :
    startRefusal c p = none ↔ c.wf = true ∧ p.wf c.jalrMode = true := by
  unfold startRefusal
  cases hc : c.wf with
  | false => simp
  | true =>
    simp only [if_true, true_and, Program.wf, Bool.and_eq_true]
    have hf : (p.findSome? fun e => slotRefusal c.jalrMode e.1 e.2) = none ↔
        p.all (fun e => e.2.wf c.jalrMode e.1) = true := by
      simp [List.findSome?_eq_none_iff, slotRefusal_none]
    cases h : p.findSome? fun e => slotRefusal c.jalrMode e.1 e.2 with
    | some r =>
      rw [h] at hf
      simp only [reduceCtorEq, false_iff] at hf
      simp [hf]
    | none =>
      rw [h] at hf
      have := hf.1 rfl
      cases hk : Program.keysRise p <;> simp [this]

/-- What R8 asks, one part at a time. -/
theorem Config.wf_parts {c : Config} (h : c.wf = true) :
    1 ≤ c.robSize ∧ 1 ≤ c.width ∧ 1 ≤ c.aluRs ∧ 1 ≤ c.lsRs ∧ 1 ≤ c.commitWidth ∧ c.commitWidth ≤ c.width ∧
      1 ≤ c.latAlu ∧ 1 ≤ c.latLoad ∧ 1 ≤ c.latStore ∧ 1 ≤ c.latBranch ∧ 1 ≤ c.memWords ∧
      c.memInit.wf = true ∧ c.memInit.inRange c.memWords = true := by
  simp only [Config.wf, Config.sizesFixed, Config.sizesOk, Config.commitWidthOk, Config.latenciesOk, Config.memWordsOk,
    Config.memInitOk, Bool.and_eq_true, decide_eq_true_eq] at h
  tauto

/-- Every latency of an admitted machine is at least 1 (R8). -/
theorem State.Admitted.latency {s : State} (h : s.Admitted) (o : Op) : 1 ≤ o.latency s.cfg := by
  have := Config.wf_parts ((startRefusal_none _ _).1 h).1
  unfold Op.latency
  split <;> tauto

/-- The record `PROGRAM(a)` is a slot of the store at `a`. -/
theorem lookup_mem {p : Program} {a : Word} {r : Record} (h : p.lookup a = some r) :
    (a, Slot.record r) ∈ p := by
  induction p with
  | nil => simp [Program.lookup] at h
  | cons x p ih =>
    obtain ⟨k, v⟩ := x
    cases v with
    | record r' =>
      simp only [Program.lookup] at h
      split at h
      · rename_i hk; cases h; rw [hk]; exact List.mem_cons_self
      · exact List.mem_cons_of_mem _ (ih h)
    | unknown w =>
      simp only [Program.lookup] at h
      split at h
      · simp at h
      · exact List.mem_cons_of_mem _ (ih h)

/-- A fetched record of an admitted machine is well formed at its address, and no `JALR` where that is
refused. -/
theorem State.Admitted.fetched {s : State} (h : s.Admitted) {a : Word} {r : Record}
    (hl : s.program.lookup a = some r) : r.wf a = true ∧ (s.cfg.jalrMode = .refuse → r.op ≠ .jalr) := by
  have hp := ((startRefusal_none _ _).1 h).2
  simp only [Program.wf, Bool.and_eq_true, List.all_eq_true] at hp
  have := hp.2 _ (lookup_mem hl)
  simp only [Slot.wf, Bool.and_eq_true, Bool.not_eq_true', Bool.and_eq_false_iff] at this
  exact ⟨this.1, fun hm ho => by simp [hm, ho] at this⟩

/-- The record placed at an address is the one looked up there. -/
theorem lookup_place (p : Program) (a : Word) (r : Record) : (p.place a (.record r)).lookup a = some r := by
  induction p with
  | nil => simp [Program.place, Program.lookup]
  | cons x p ih =>
    obtain ⟨k, v⟩ := x
    simp only [Program.place]
    split
    · simp [Program.lookup]
    · split
      · simp [Program.lookup]
      · rename_i hn
        have hn' : ¬ k = a := fun hk => hn hk.symm
        cases v <;> simp [Program.lookup, hn', ih]

end Sys2Proof.Machine
end

