-- ==== Sys2Proof/Laws/Sparse.lean ====
section
/-! SUPPORT. Sparse maps in canonical form, and data memory over them: what is read after a write, and
that every memory operation keeps the canonical form. -/

namespace Sys2Proof.Machine

/-! ## Sparse maps -/

section
variable {α : Type} (dflt : α)

@[simp] theorem sparseGet_nil (a : Nat) : sparseGet dflt ([] : List (Nat × α)) a = dflt := rfl

@[simp] theorem sparseGet_cons (k : Nat) (b : α) (m : List (Nat × α)) (a : Nat) :
    sparseGet dflt ((k, b) :: m) a = if k = a then b else sparseGet dflt m a := rfl

/-- Below the first key nothing is listed. -/
theorem sparseGet_below (m : List (Nat × α)) (a : Nat) (h : ∀ c ∈ m, a < c.1) :
    sparseGet dflt m a = dflt := by
  induction m with
  | nil => rfl
  | cons c m ih =>
    obtain ⟨k, b⟩ := c
    have hk : k ≠ a := by have := h (k, b) (by simp); simp at this; omega
    simp [hk, ih fun c hc => h c (by simp [hc])]

variable [DecidableEq α]

/-- The canonical form of a nonempty map, entry by entry. -/
theorem sparseWf_cons (k : Nat) (b : α) (m : List (Nat × α)) :
    sparseWf dflt ((k, b) :: m) = true ↔
      (∀ c ∈ m, k < c.1) ∧ b ≠ dflt ∧ sparseWf dflt m = true := by
  simp only [sparseWf, List.pairwise_cons, List.all_cons, Bool.and_eq_true, decide_eq_true_eq]
  tauto

@[simp] theorem sparseWf_nil : sparseWf dflt ([] : List (Nat × α)) = true := by simp [sparseWf]

/-- The value set is the value read. -/
theorem sparseGet_set_self (m : List (Nat × α)) (a : Nat) (v : α) (h : sparseWf dflt m = true) :
    sparseGet dflt (sparseSet dflt a v m) a = v := by
  induction m with
  | nil => by_cases hv : v = dflt <;> simp [sparseSet, hv]
  | cons c m ih =>
    obtain ⟨k, b⟩ := c
    obtain ⟨hk, hb, hm⟩ := (sparseWf_cons dflt k b m).1 h
    unfold sparseSet
    split
    · rename_i hlt
      split
      · rename_i hv
        rw [hv]
        exact sparseGet_below dflt _ a (by
          intro c hc; simp only [List.mem_cons] at hc
          rcases hc with rfl | hc
          · exact hlt
          · exact Nat.lt_trans hlt (hk c hc))
      · simp
    · split
      · rename_i heq
        split
        · rename_i hv
          rw [hv]
          exact sparseGet_below dflt _ a (heq ▸ hk)
        · simp
      · rename_i h1 h2
        simp [Ne.symm h2, ih hm]

/-- Every other key reads as before. -/
theorem sparseGet_set_ne (m : List (Nat × α)) (a : Nat) (v : α) (x : Nat) (hx : x ≠ a) :
    sparseGet dflt (sparseSet dflt a v m) x = sparseGet dflt m x := by
  induction m with
  | nil => by_cases hv : v = dflt <;> simp [sparseSet, hv, Ne.symm hx]
  | cons c m ih =>
    obtain ⟨k, b⟩ := c
    unfold sparseSet
    split
    · split <;> simp [Ne.symm hx]
    · split
      · rename_i heq
        subst heq
        split <;> simp [Ne.symm hx]
      · simp [ih]

/-- The keys of a map after a set are old ones or the key set. -/
theorem mem_sparseSet (m : List (Nat × α)) (a : Nat) (v : α) (c : Nat × α)
    (h : c ∈ sparseSet dflt a v m) : c = (a, v) ∨ c ∈ m := by
  induction m with
  | nil =>
    unfold sparseSet at h
    split at h <;> simp_all
  | cons d m ih =>
    obtain ⟨k, b⟩ := d
    unfold sparseSet at h
    split at h
    · split at h <;> simp_all
    · split at h
      · split at h
        · exact Or.inr (List.mem_cons_of_mem _ h)
        · simp only [List.mem_cons] at h ⊢
          rcases h with h | h
          · exact Or.inl h
          · exact Or.inr (Or.inr h)
      · simp only [List.mem_cons] at h ⊢
        rcases h with h | h
        · exact Or.inr (Or.inl h)
        · exact (ih h).imp_right Or.inr

/-- A set keeps the canonical form. -/
theorem sparseWf_set (m : List (Nat × α)) (a : Nat) (v : α) (h : sparseWf dflt m = true) :
    sparseWf dflt (sparseSet dflt a v m) = true := by
  induction m with
  | nil => by_cases hv : v = dflt <;> simp [sparseSet, hv, sparseWf_cons]
  | cons c m ih =>
    obtain ⟨k, b⟩ := c
    obtain ⟨hk, hb, hm⟩ := (sparseWf_cons dflt k b m).1 h
    unfold sparseSet
    split
    · rename_i hlt
      split
      · exact h
      · rename_i hv
        refine (sparseWf_cons dflt a v _).2 ⟨?_, hv, h⟩
        intro c hc
        simp only [List.mem_cons] at hc
        rcases hc with rfl | hc
        · exact hlt
        · exact Nat.lt_trans hlt (hk c hc)
    · split
      · rename_i heq
        split
        · exact hm
        · rename_i hv
          exact (sparseWf_cons dflt a v m).2 ⟨heq ▸ hk, hv, hm⟩
      · rename_i h1 h2
        refine (sparseWf_cons dflt k b _).2 ⟨?_, hb, ih hm⟩
        intro c hc
        rcases mem_sparseSet dflt m a v c hc with rfl | hc
        · simp only; omega
        · exact hk c hc

end

/-! ## Bytes -/

/-- A byte written is the byte read. -/
@[simp] theorem readByte_writeByte_self (m : Memory) (a : Nat) (v : Byte) (h : m.wf = true) :
    readByte (writeByte a v m) a = v := sparseGet_set_self unlistedByte m a v h

/-- Every other byte reads as before. -/
theorem readByte_writeByte_ne (m : Memory) (a x : Nat) (v : Byte) (hx : x ≠ a) :
    readByte (writeByte a v m) x = readByte m x := sparseGet_set_ne unlistedByte m a v x hx

/-- A byte write keeps the canonical form. -/
theorem writeByte_wf (m : Memory) (a : Nat) (v : Byte) (h : m.wf = true) :
    (writeByte a v m).wf = true := sparseWf_set unlistedByte m a v h

/-- A byte write inside data memory lists no byte outside it. -/
theorem writeByte_inRange (m : Memory) (a n : Nat) (v : Byte) (ha : a < 4 * n)
    (h : m.inRange n = true) : (writeByte a v m).inRange n = true := by
  simp only [Memory.inRange, List.all_eq_true, decide_eq_true_eq] at h ⊢
  intro c hc
  rcases mem_sparseSet unlistedByte m a v c hc with rfl | hc
  · exact ha
  · exact h c hc

/-! ## Words -/

/-- A word write keeps the canonical form. -/
theorem setMemWord_wf (m : Memory) (i : Nat) (v : Word) (h : m.wf = true) :
    (setMemWord i v m).wf = true :=
  writeByte_wf _ _ _ <| writeByte_wf _ _ _ <| writeByte_wf _ _ _ <| writeByte_wf _ _ _ h

/-- A word write inside data memory lists no byte outside it. -/
theorem setMemWord_inRange (m : Memory) (i n : Nat) (v : Word) (hi : i < n)
    (h : m.inRange n = true) : (setMemWord i v m).inRange n = true := by
  unfold setMemWord
  exact writeByte_inRange _ _ _ _ (by omega) <| writeByte_inRange _ _ _ _ (by omega) <|
    writeByte_inRange _ _ _ _ (by omega) <| writeByte_inRange _ _ _ _ (by omega) h

/-- A byte outside the word written reads as before. -/
theorem readByte_setMemWord_ne (m : Memory) (i x : Nat) (v : Word)
    (hx : x < 4 * i ∨ 4 * i + 4 ≤ x) : readByte (setMemWord i v m) x = readByte m x := by
  unfold setMemWord
  rw [readByte_writeByte_ne _ _ _ _ (by omega), readByte_writeByte_ne _ _ _ _ (by omega),
    readByte_writeByte_ne _ _ _ _ (by omega), readByte_writeByte_ne _ _ _ _ (by omega)]

/-- The bytes of the word written, lowest address least significant (R73). -/
theorem readByte_setMemWord (m : Memory) (i k : Nat) (v : Word) (hk : k < 4) (h : m.wf = true) :
    readByte (setMemWord i v m) (4 * i + k) = v.extractLsb' (8 * k) 8 := by
  have w1 := writeByte_wf _ (4 * i + 3) (v.extractLsb' 24 8) h
  have w2 := writeByte_wf _ (4 * i + 2) (v.extractLsb' 16 8) w1
  have w3 := writeByte_wf _ (4 * i + 1) (v.extractLsb' 8 8) w2
  unfold setMemWord
  match k, hk with
  | 0, _ => exact readByte_writeByte_self _ _ _ w3
  | 1, _ =>
    rw [readByte_writeByte_ne _ _ _ _ (by omega)]
    exact readByte_writeByte_self _ _ _ w2
  | 2, _ =>
    rw [readByte_writeByte_ne _ _ _ _ (by omega), readByte_writeByte_ne _ _ _ _ (by omega)]
    exact readByte_writeByte_self _ _ _ w1
  | 3, _ =>
    rw [readByte_writeByte_ne _ _ _ _ (by omega), readByte_writeByte_ne _ _ _ _ (by omega),
      readByte_writeByte_ne _ _ _ _ (by omega)]
    exact readByte_writeByte_self _ _ _ h

/-- A 32-bit value is its four bytes. -/
theorem word_of_bytes (v : Word) :
    (v.extractLsb' 24 8 ++ v.extractLsb' 16 8 ++ v.extractLsb' 8 8 ++ v.extractLsb' 0 8 : Word) = v := by
  ext i hi
  simp only [BitVec.getElem_append, BitVec.getElem_extractLsb']
  split
  · simp [BitVec.getLsbD_eq_getElem, hi]
  · split
    · rw [show 8 + (i - 8) = i by omega, BitVec.getLsbD_eq_getElem]
    · split
      · rw [show 16 + (i - 8 - 8) = i by omega, BitVec.getLsbD_eq_getElem]
      · rw [show 24 + (i - 8 - 8 - 8) = i by omega, BitVec.getLsbD_eq_getElem]

/-- The word written is the word read (R77). -/
theorem memWord_setMemWord_self (m : Memory) (i : Nat) (v : Word) (h : m.wf = true) :
    memWord (setMemWord i v m) i = v := by
  have h0 := readByte_setMemWord m i 0 v (by omega) h
  rw [Nat.add_zero] at h0
  unfold memWord
  rw [readByte_setMemWord m i 3 v (by omega) h, readByte_setMemWord m i 2 v (by omega) h,
    readByte_setMemWord m i 1 v (by omega) h, h0]
  exact word_of_bytes v

/-- Every other word reads as before (R77: "leaving every other word unchanged"). -/
theorem memWord_setMemWord_ne (m : Memory) (i j : Nat) (v : Word) (hj : j ≠ i) :
    memWord (setMemWord i v m) j = memWord m j := by
  unfold memWord
  rw [readByte_setMemWord_ne _ _ _ _ (by omega), readByte_setMemWord_ne _ _ _ _ (by omega),
    readByte_setMemWord_ne _ _ _ _ (by omega), readByte_setMemWord_ne _ _ _ _ (by omega)]

end Sys2Proof.Machine
end

