-- ==== Sys2Proof/Laws/Components.lean ====
section
/-! SUPPORT. The components: what an access does to a cache, what an update does to the predictor, that
every memory operation keeps the canonical form, and that reset has it. -/

namespace Sys2Proof.Machine

/-! ## Caches -/

/-- An access that hits (R303, R304). -/
theorem Cache.access_hit {c : Cache} {l p : Nat} {a : Word} {w : Bool} {cs : CacheSet}
    (h : (c.sets[cacheIndex a]).hit (cacheTag a) (c.lruCounter + 1) w = some cs) :
    c.access l p a w =
      ({ sets := c.sets.set (cacheIndex a) cs, lruCounter := c.lruCounter + 1, accesses := c.accesses + 1,
         hits := c.hits + 1, misses := c.misses }, true, l) := by
  simp only [Cache.access, h]

/-- An access that misses (R303, R305). -/
theorem Cache.access_miss {c : Cache} {l p : Nat} {a : Word} {w : Bool}
    (h : (c.sets[cacheIndex a]).hit (cacheTag a) (c.lruCounter + 1) w = none) :
    c.access l p a w =
      ({ sets := c.sets.set (cacheIndex a) ((c.sets[cacheIndex a]).fill (cacheTag a) (c.lruCounter + 1) w)
         lruCounter := c.lruCounter + 1, accesses := c.accesses + 1, hits := c.hits
         misses := c.misses + 1 }, false, l + p) := by
  simp only [Cache.access, h]

/-- The order of a set survives an access that draws the next rank (R304, R305, R310). -/
theorem CacheSet.Ok.accessed {n : Nat} {cs : CacheSet} (h : cs.Ok n) (tag : BitVec 21) (w : Bool) :
    ((cs.hit tag (n + 1) w).getD (cs.fill tag (n + 1) w)).Ok (n + 1) := by
  obtain ⟨h1, h2, h3, h4, h5⟩ := h
  unfold CacheSet.hit CacheSet.fill Way.holds Way.touch Way.filled
  cases hv0 : cs.way0.valid <;> cases hv1 : cs.way1.valid <;>
    simp only [hv0, hv1, Bool.true_and, Bool.false_and, beq_iff_eq, Bool.false_eq_true, if_false] at h1 h2 h3 h4 h5 ⊢
  all_goals
    repeat' split
    all_goals simp_all [CacheSet.Ok]
    all_goals (first | omega | (refine ⟨⟨fun hc => by simp_all, by omega⟩, by omega⟩))

/-- A larger rank counter keeps a set in order. -/
theorem CacheSet.Ok.mono {n m : Nat} {cs : CacheSet} (h : cs.Ok n) (hm : n ≤ m) : cs.Ok m := by
  obtain ⟨h1, h2, h3, h4, h5⟩ := h
  exact ⟨h1, fun hv => ⟨(h2 hv).1, by have := (h2 hv).2; omega⟩,
    fun hv => ⟨(h3 hv).1, by have := (h3 hv).2; omega⟩, h4, h5⟩

/-- Every set is in order when one was replaced by a set in order. -/
theorem sets_ok {c : Cache} (h : c.Ok) {i : Fin 32} {cs : CacheSet} (hc : cs.Ok (c.lruCounter + 1)) (j : Fin 32) :
    ((c.sets.set i cs)[j]).Ok (c.lruCounter + 1) := by
  by_cases hj : j = i
  · subst hj; simpa using hc
  · have : (i : Nat) ≠ (j : Nat) := fun hv => hj (Fin.ext hv.symm)
    simpa [Vector.getElem_set, this] using (h.2.2 j).mono (Nat.le_succ _)

/-- An access keeps a cache in order. -/
theorem Cache.Ok.accessed {c : Cache} (h : c.Ok) (l p : Nat) (a : Word) (w : Bool) :
    (c.access l p a w).1.Ok := by
  have hs := (h.2.2 (cacheIndex a)).accessed (cacheTag a) w
  obtain ⟨h1, h2, h3⟩ := id h
  cases hh : (c.sets[cacheIndex a]).hit (cacheTag a) (c.lruCounter + 1) w with
  | some cs =>
    rw [hh] at hs
    rw [Cache.access_hit hh]
    exact ⟨by simp only; omega, by simp only; omega, sets_ok h hs⟩
  | none =>
    rw [hh] at hs
    rw [Cache.access_miss hh]
    exact ⟨by simp only; omega, by simp only; omega, sets_ok h hs⟩

theorem Cache.reset_ok : Cache.reset.Ok := by decide

/-! ## The predictor -/

/-- An update keeps the form of the predictor. -/
theorem Predictor.Ok.updated {p : Predictor} (h : p.Ok) (pc : Word) (taken : Bool) : (p.update pc taken).Ok := by
  refine ⟨sparseWf_set _ _ _ _ h.1, fun c hc => ?_⟩
  rcases mem_sparseSet _ _ _ _ c hc with rfl | hc
  · exact (p.index pc).isLt
  · exact h.2 c hc

theorem Predictor.reset_ok : Predictor.reset.Ok := by decide

/-! ## Memory -/

/-- An address is aligned exactly when it is a multiple of 4. -/
theorem aligned_iff (a : Word) : a.extractLsb' 0 2 = 0 ↔ a.toNat % 4 = 0 := by
  rw [← BitVec.toNat_inj]; simp

/-- A good address has no fault, and names a word of data memory (R262). -/
theorem addressFault_none {c : Config} {pc a : Word} :
    addressFault c pc a = none ↔ a.toNat % 4 = 0 ∧ a.toNat / 4 < c.memWords := by
  unfold addressFault wordIndex
  by_cases h : a.extractLsb' 0 2 = 0
  · by_cases hr : c.memWords ≤ a.toNat / 4
    · simp only [ne_eq, h, not_true_eq_false, if_false, hr, if_true, reduceCtorEq, false_iff]; omega
    · simp only [ne_eq, h, not_true_eq_false, if_false, hr, true_iff]
      exact ⟨(aligned_iff a).1 h, by omega⟩
  · simp only [ne_eq, h, not_false_eq_true, if_true, reduceCtorEq, false_iff]
    exact fun hc => h ((aligned_iff a).2 hc.1)

/-- A misaligned address, whatever its range (R262, misalignment first). -/
theorem addressFault_misaligned {c : Config} {pc a : Word} (h : a.toNat % 4 ≠ 0) :
    addressFault c pc a = some (.memMisaligned pc a) := by
  unfold addressFault
  exact if_pos fun hc => h ((aligned_iff a).1 hc)

/-- An aligned address out of range (R262). -/
theorem addressFault_outOfRange {c : Config} {pc a : Word} (h : a.toNat % 4 = 0) (hr : c.memWords ≤ a.toNat / 4) :
    addressFault c pc a = some (.memOutOfRange pc a) := by
  unfold addressFault wordIndex
  rw [if_neg (fun hc => hc ((aligned_iff a).2 h)), if_pos hr]

/-- Every memory operation keeps the canonical form. -/
theorem memWrite_wf (s : State) (a v : Word) (h : s.mem.wf = true) : (s.memWrite a v).mem.wf = true :=
  setMemWord_wf _ _ _ h

/-- A store to a good address stays inside data memory. -/
theorem memWrite_inRange (s : State) (a v : Word) (ha : a.toNat / 4 < s.cfg.memWords)
    (h : s.mem.inRange s.cfg.memWords = true) : (s.memWrite a v).mem.inRange s.cfg.memWords = true :=
  setMemWord_inRange _ _ _ _ ha h

/-- Reset memory is canonical in an admitted machine, and in `State.reset`. -/
theorem reset_mem_wf (c : Config) (p : Program) (h : c.wf = true) : (State.resetWith c p).mem.wf = true :=
  (Config.wf_parts h).2.2.2.2.2.2.2.2.2.2.2.1

theorem State.reset_mem : State.reset.mem.wf = true := rfl

/-! ## All components through the parts of a step -/

/-- `State.ComponentInv` without the model's `stage`, which the stages change. -/
structure State.PartsInv (s : State) : Prop where
  memCanonical : s.mem.wf = true
  memInRange : s.mem.inRange s.cfg.memWords = true
  aluSize : s.alu.length = s.cfg.aluRs
  lsSize : s.ls.length = s.cfg.lsRs
  robSize : s.rob.length ≤ s.cfg.robSize
  l1i : s.l1i.Ok
  l1d : s.l1d.Ok
  predictor : s.bp.Ok

theorem State.ComponentInv.parts {s : State} (h : s.ComponentInv) : s.PartsInv :=
  ⟨h.1, h.2, h.3, h.4, h.5, h.6, h.7, h.8⟩

theorem State.PartsInv.components {s : State} (h : s.PartsInv) (hs : s.stage = .reference) : s.ComponentInv :=
  ⟨h.1, h.2, h.3, h.4, h.5, h.6, h.7, h.8, hs⟩

variable {s t : State}

theorem State.PartsInv.atStage (x : Stage) (h : s.PartsInv) : (s.atStage x).PartsInv :=
  ⟨h.1, h.2, h.3, h.4, h.5, h.6, h.7, h.8⟩

theorem State.PartsInv.beginCycle (h : s.PartsInv) : s.beginCycle.PartsInv :=
  ⟨h.1, h.2, h.3, h.4, h.5, h.6, h.7, h.8⟩

theorem State.PartsInv.endCycle (h : s.PartsInv) : s.endCycle.PartsInv :=
  ⟨h.1, h.2, h.3, h.4, h.5, h.6, h.7, h.8⟩

theorem State.PartsInv.aborts (hi : s.PartsInv) {h : RobEntry} (ha : Aborts h s t) : t.PartsInv := by
  cases ha with
  | fault => exact ⟨hi.1, hi.2, hi.3, hi.4, hi.5, hi.6, hi.7, hi.8⟩
  | flush =>
    exact ⟨hi.1, hi.2, by simpa using hi.3, by simpa using hi.4, by simp, hi.6, hi.7,
      hi.8.updated h.pc _⟩

theorem State.PartsInv.retires (hi : s.PartsInv) {h : RobEntry} (hu : Retires h s t) : t.PartsInv := by
  have hl : s.rob.tail.length ≤ s.cfg.robSize := by
    have := hi.robSize; rw [List.length_tail]; omega
  cases hu with
  | branch hb hp =>
    exact ⟨hi.1, hi.2, by simpa using hi.3, by simpa using hi.4, by simpa using hl, hi.6, hi.7,
      hi.8.updated h.pc _⟩
  | writing hw hm =>
    exact ⟨by simpa using hi.1, by simpa using hi.2, by simpa using hi.3, by simpa using hi.4,
      by simpa using hl, by simpa using hi.6, by simpa using hi.7, by simpa using hi.8⟩
  | load ho q a hq hf =>
    exact ⟨by simpa using hi.1, by simpa using hi.2, by simpa using hi.3, by simpa using hi.4,
      by simpa using hl, by simpa using hi.6, by simpa using hi.7, by simpa using hi.8⟩
  | store ho q a v hq hf hv =>
    exact ⟨memWrite_wf (s.accessL1D a true) a v hi.1,
      memWrite_inRange (s.accessL1D a true) a v (addressFault_none.1 hf).2 hi.2, by simpa using hi.3,
      by simpa using hi.4, by simpa using hl, hi.6, hi.7.accessed _ _ a true, hi.8⟩
  | plain hw hm hb =>
    exact ⟨hi.1, hi.2, by simpa using hi.3, by simpa using hi.4, by simpa using hl, hi.6, hi.7, hi.8⟩

/-- Replacing a station keeps the sizes of the pools. -/
theorem State.PartsInv.setStation (hi : s.PartsInv) (p : PoolId) (k : Nat) (st : Station) :
    (s.setStation p k st).PartsInv := by
  cases p <;>
    exact ⟨hi.1, hi.2, by simpa using hi.3, by simpa using hi.4, hi.5, hi.6, hi.7, hi.8⟩

theorem State.PartsInv.completed (hi : s.PartsInv) {i : Instr} {p : PoolId} {k : Nat} {st : Station}
    (hc : Completed i p k st s t) : t.PartsInv := by
  have hl : ∀ f g, (robUpdate st.dest f (robUpdate st.dest g s.rob)).length ≤ s.cfg.robSize ∧
      (robUpdate st.dest f s.rob).length ≤ s.cfg.robSize := fun f g => by
    simpa [robUpdate] using hi.robSize
  cases hc with
  | plain =>
    unfold State.freeStationAt
    apply State.PartsInv.setStation
    exact ⟨hi.1, hi.2, hi.3, hi.4, (hl _ id).2, hi.6, hi.7, hi.8⟩
  | branch =>
    unfold State.freeStationAt
    apply State.PartsInv.setStation
    exact ⟨hi.1, hi.2, hi.3, hi.4, (hl _ _).1, hi.6, hi.7, hi.8⟩
  | load ho ea hea hg =>
    unfold State.freeStationAt
    apply State.PartsInv.setStation
    exact ⟨hi.1, hi.2, hi.3, hi.4, (hl _ id).2, hi.6, hi.7.accessed _ _ ea false, hi.8⟩
  | store ho ea hea =>
    unfold State.freeStationAt
    apply State.PartsInv.setStation
    exact ⟨hi.1, hi.2, hi.3, hi.4, (hl _ id).2, hi.6, hi.7, hi.8⟩
  | stay => exact hi

theorem State.PartsInv.visited (hi : s.PartsInv) {p : PoolId} {k : Nat} (hv : Visited p k s t) :
    t.PartsInv := by
  cases hv with
  | skip => exact hi
  | wait => exact hi.setStation p k _
  | count => exact hi.setStation p k _
  | complete st _ hs hb hw hr hc => exact ((hi.setStation p k _).atStage _).completed hc

theorem State.PartsInv.issue (hi : s.PartsInv) {i : Instr} {k : Nat} {b : Bool} {n : Word}
    (hl : s.rob.length < s.cfg.robSize) : (s.issue i k b n).PartsInv := by
  have hl' : (s.rob ++ [s.issuedEntry i b]).length ≤ s.cfg.robSize := by simp; omega
  unfold State.issue
  apply State.PartsInv.setStation
  exact ⟨hi.1, hi.2, hi.3, hi.4, hl', hi.6.accessed _ _ _ _, hi.7, hi.8⟩

end Sys2Proof.Machine
end

