-- ==== Sys2Proof/Laws/CoreInv.lean ====
section
/-! SUPPORT. What the parts of a step do to the invariants of spec/10_state.md R41: one lemma for each
thing a stage can do. -/

namespace Sys2Proof.Machine

variable {s t : State}

/-- The invariants do not speak of `stage`. -/
theorem State.CoreInv.atStage (x : Stage) (h : s.CoreInv) : (s.atStage x).CoreInv :=
  ⟨h.1, h.2, h.3, h.4, h.5, h.6, h.7, h.8, h.9, h.10, h.11, h.12⟩

/-- The invariants do not speak of the cycle count. -/
theorem State.CoreInv.beginCycle (h : s.CoreInv) : s.beginCycle.CoreInv :=
  ⟨h.1, h.2, h.3, h.4, h.5, h.6, h.7, h.8, h.9, h.10, h.11, h.12⟩

/-- The invariants do not speak of the occupancies. -/
theorem State.CoreInv.endCycle (h : s.CoreInv) : s.endCycle.CoreInv :=
  ⟨h.1, h.2, h.3, h.4, h.5, h.6, h.7, h.8, h.9, h.10, h.11, h.12⟩

/-! ## Execute -/

/-- Replacing a busy station by one of the same instruction whose operands may have arrived. -/
theorem State.CoreInv.setStation (h : s.CoreInv) {p : PoolId} {k : Nat} {st st' : Station}
    (hs : s.station? p k = some st) (hb : st.busy = true) (hb' : st'.busy = true)
    (hd : st'.dest = st.dest) (hi : st'.instr = st.instr)
    (hj : st'.qj = st.qj ∨ st'.qj = none) (hk : st'.qk = st.qk ∨ st'.qk = none)
    (hc : 1 ≤ st'.total ∧ st'.rem ≤ st'.total ∧ (st'.wakeable = false → st'.rem = st'.total) ∧
      (st'.rem < st'.total → st'.instr.op.isMem = true →
        st'.ea = some (effectiveAddress st'.vj st'.instr.imm))) :
    (s.setStation p k st').CoreInv := by
  obtain ⟨j, hj1, hj2⟩ := stations_setStation hs
  have hst : st ∈ s.stations := station?_mem hs
  have hmem : ∀ x ∈ (s.setStation p k st').stations, x = st' ∨ x ∈ s.stations := by
    intro x hx; rw [hj2] at hx; exact mem_set_cases hx
  refine ⟨by simpa [State.TagsRise] using h.tagsRise, by simpa [State.TagsIssued] using h.tagsIssued, ?_,
    by simpa [State.RatNamesYoungest] using h.ratNamesYoungest,
    by simpa [State.LsqMatchesRob] using h.lsqMatchesRob, ?_, ?_,
    by simpa [State.TagsAccounted] using h.tagsAccounted,
    by simpa [State.ZeroRegister] using h.zeroRegister,
    by simpa [State.MemReadyAgrees] using h.memReadyAgrees,
    by simpa [State.LsqResolved] using h.lsqResolved, ?_⟩
  · intro x hx hxb
    rcases hmem x hx with rfl | hx
    · obtain ⟨h1, h2⟩ := h.tagsLive st hst hb
      simp only [State.Produces, State.setStation_rob, hi, hd] at h1 h2 ⊢
      refine ⟨fun t ht => h1 t ?_, fun t ht => h2 t ?_⟩
      · rcases hj with hj | hj <;> simp_all
      · rcases hk with hk | hk <;> simp_all
    · simpa [State.Produces] using h.tagsLive x hx hxb
  · intro x hx hxb
    rcases hmem x hx with rfl | hx
    · simpa [hi, hd] using h.stationsLive st hst hb
    · simpa using h.stationsLive x hx hxb
  · intro e he hr
    rw [State.setStation_rob] at he
    have := countP_set (fun x => x.busy && x.dest == e.tag) (y := st') hj1
    rw [hj2]
    rw [h.oneStationEach e he hr] at this
    simp only [hb, hb', hd] at this
    omega
  · intro x hx hxb
    rcases hmem x hx with rfl | hx
    · exact hc
    · exact h.countdownOk x hx hxb

/-- A completed instruction: its ROB entry is ready, its LSQ entry resolved, its station free. -/
theorem State.CoreInv.complete (h : s.CoreInv) {p : PoolId} {k : Nat} {st st' : Station}
    (hs : s.station? p k = some st) (hb : st.busy = true) (hb' : st'.busy = false)
    {f : RobEntry → RobEntry} (hf : ∀ e, (f e).tag = e.tag ∧ (f e).op = e.op ∧ (f e).rd = e.rd ∧
      (f e).pc = e.pc ∧ (f e).ready = true)
    {g : LsqEntry → LsqEntry} (hg : ∀ q, (g q).tag = q.tag ∧ (g q).kind = q.kind ∧
      (st.instr.op.isMem = true → (g q).memReady = true ∧ (g q).addr.isSome = true ∧
        (st.instr.op = .sw → (g q).data.isSome = true)) ∧ (st.instr.op.isMem = false → g q = q))
    (hrob : t.rob = robUpdate st.dest f s.rob) (hlsq : t.lsq = lsqUpdate st.dest g s.lsq)
    (hst : t.stations = (s.setStation p k st').stations) (hcfg : t.cfg = s.cfg) (harf : t.arf = s.arf)
    (hrat : t.rat = s.rat) (htag : t.nextTag = s.nextTag) (hco : t.counters = s.counters) :
    t.CoreInv := by
  obtain ⟨j, hj1, hj2⟩ := stations_setStation hs
  have hin : st ∈ s.stations := station?_mem hs
  have hmem : ∀ x ∈ t.stations, x.busy = true → x ∈ s.stations := by
    intro x hx hxb
    rw [hst, hj2] at hx
    rcases mem_set_cases hx with rfl | hx
    · simp [hb'] at hxb
    · exact hx
  have hid : ∀ {α : Type} (a : RobEntry → α), (∀ e, a (f e) = a e) → t.rob.map a = s.rob.map a := by
    intro α a ha; rw [hrob, robUpdate_map a ha]
  obtain ⟨e0, he0, ht0, hr0, ho0, hd0, hp0⟩ := h.stationsLive st hin hb
  have huniq : ∀ {a b : RobEntry}, a ∈ s.rob → b ∈ s.rob → a.tag = b.tag → a = b :=
    fun ha hb he => rob_unique h.tagsRise ha hb he
  have hfwd : ∀ e ∈ s.rob, ∃ e' ∈ t.rob, e'.tag = e.tag ∧ e'.op = e.op ∧ e'.rd = e.rd ∧ e'.pc = e.pc ∧
      (e.tag ≠ st.dest → e' = e) := by
    intro e he
    refine ⟨if e.tag = st.dest then f e else e, by rw [hrob]; exact mem_robUpdate.2 ⟨e, he, rfl⟩, ?_⟩
    split
    · exact ⟨(hf e).1, (hf e).2.1, (hf e).2.2.1, (hf e).2.2.2.1, fun hn => absurd ‹_› hn⟩
    · simp
  have hbwd : ∀ e' ∈ t.rob, ∃ e ∈ s.rob, e'.tag = e.tag ∧ e'.op = e.op ∧ e'.rd = e.rd ∧ e'.pc = e.pc ∧
      (e.tag = st.dest → e'.ready = true) ∧ (e.tag ≠ st.dest → e' = e) := by
    intro e' he'
    rw [hrob] at he'
    obtain ⟨e, he, rfl⟩ := mem_robUpdate.1 he'
    refine ⟨e, he, ?_⟩
    split
    · exact ⟨(hf e).1, (hf e).2.1, (hf e).2.2.1, (hf e).2.2.2.1, fun _ => (hf e).2.2.2.2,
        fun hn => absurd ‹_› hn⟩
    · rename_i hn; exact ⟨rfl, rfl, rfl, rfl, fun hn' => absurd hn' hn, fun _ => rfl⟩
  have htags : t.rob.map (·.tag) = s.rob.map (·.tag) := hid _ fun e => (hf e).1
  refine ⟨?_, ?_, ?_, ?_, ?_, ?_, ?_, ?_, ?_, ?_, ?_, ?_⟩
  · have h1 := h.tagsRise
    have e1 : ∀ l : List RobEntry, (l.Pairwise fun a b => a.tag < b.tag) ↔
        (l.map (·.tag)).Pairwise (· < ·) := fun l => by rw [List.pairwise_map]
    show t.rob.Pairwise _
    rw [e1, htags, ← e1]; exact h1
  · intro e' he'
    obtain ⟨e, he, h1, -⟩ := hbwd e' he'
    rw [htag, h1]; exact h.tagsIssued e he
  · intro x hx hxb
    have := h.tagsLive x (hmem x hx hxb) hxb
    have up : ∀ tg r, s.Produces tg r x.dest → t.Produces tg r x.dest := by
      rintro tg r ⟨e, he, h1, h2, h3⟩
      obtain ⟨e', he', k1, -, k3, -⟩ := hfwd e he
      exact ⟨e', he', k1.trans h1, h2, k3.trans h3⟩
    exact ⟨fun tg htg => up _ _ (this.1 tg htg), fun tg htg => up _ _ (this.2 tg htg)⟩
  · intro i tg htg
    rw [hrat] at htg
    obtain ⟨h0, ⟨e, he, h1, h2, h3⟩, h4⟩ := h.ratNamesYoungest i tg htg
    obtain ⟨e', he', k1, k2, k3, -⟩ := hfwd e he
    refine ⟨h0, ⟨e', he', k1.trans h1, k3.trans h2, by rw [k2]; exact h3⟩, ?_⟩
    intro x hx hxr hxw
    obtain ⟨y, hy, m1, m2, m3, -⟩ := hbwd x hx
    rw [m1]
    exact h4 y hy (m3 ▸ hxr) (m2 ▸ hxw)
  · have h1 := h.lsqMatchesRob
    have e1 : ∀ l : List RobEntry, ((l.filter fun e => e.op.isMem).map fun e => (e.tag, e.op.lsqKind)) =
        ((l.map fun e => (e.tag, e.op)).filter fun x => x.2.isMem).map fun x => (x.1, x.2.lsqKind) := by
      intro l; rw [List.filter_map, List.map_map]; rfl
    show t.lsq.map _ = _
    rw [hlsq, lsqUpdate_map _ (fun q => by rw [(hg q).1, (hg q).2.1]), e1,
      hid (fun e => (e.tag, e.op)) (fun e => by rw [(hf e).1, (hf e).2.1]), ← e1]
    exact h1
  · intro x hx hxb
    obtain ⟨e, he, h1, h2, h3, h4, h5⟩ := h.stationsLive x (hmem x hx hxb) hxb
    have hne : e.tag ≠ st.dest := by
      intro heq
      have h6 := h.oneStationEach e he h2
      have h7 := countP_set (fun y => y.busy && y.dest == e.tag) (y := st') hj1
      rw [← hj2, ← hst, h6] at h7
      have : 0 < t.stations.countP (fun y => y.busy && y.dest == e.tag) :=
        List.countP_pos_iff.2 ⟨x, hx, by simp [hxb, h1]⟩
      simp [hb, hb', heq] at h7
      rw [heq] at this
      simp at this
      obtain ⟨y, hy, hyb, hyd⟩ := this
      exact h7 y hy hyb hyd
    obtain ⟨e', he', k1, k2, k3, k4, k5⟩ := hfwd e he
    have := k5 hne
    subst this
    exact ⟨e', he', h1, h2, h3, h4, h5⟩
  · intro e' he' hr'
    obtain ⟨e, he, k1, k2, k3, k4, k5, k6⟩ := hbwd e' he'
    have hne : e.tag ≠ st.dest := fun heq => by rw [k5 heq] at hr'; simp at hr'
    have := k6 hne
    subst this
    have h7 := countP_set (fun y => y.busy && y.dest == e'.tag) (y := st') hj1
    rw [← hj2, ← hst, h.oneStationEach e' he hr'] at h7
    have : (st.dest == e'.tag) = false := by simpa using Ne.symm hne
    simp [hb, hb', this] at h7
    exact h7
  · have := h.tagsAccounted
    have hl : t.rob.length = s.rob.length := by rw [← List.length_map (f := (·.tag)), htags, List.length_map]
    simp only [State.TagsAccounted, hl, htag, hco, hcfg] at this ⊢
    exact this
  · simpa [State.ZeroRegister, harf, hrat] using h.zeroRegister
  · intro q' hq' e' he' heq
    rw [hlsq] at hq'
    obtain ⟨q, hq, rfl⟩ := mem_lsqUpdate.1 hq'
    obtain ⟨e, he, k1, k2, k3, k4, k5, k6⟩ := hbwd e' he'
    have htq : (if q.tag = st.dest then g q else q).tag = q.tag := by split <;> simp [(hg q).1]
    rw [htq, k1] at heq
    by_cases hd : e.tag = st.dest
    · rw [k5 hd, if_pos (heq ▸ hd)]
      cases hm : st.instr.op.isMem with
      | true => exact ((hg q).2.2.1 hm).1
      | false =>
        exfalso
        have hin' : (q.tag, some q.kind) ∈ s.lsq.map fun q => (q.tag, some q.kind) :=
          List.mem_map.2 ⟨q, hq, rfl⟩
        rw [h.lsqMatchesRob] at hin'
        obtain ⟨e2, he2, hee⟩ := List.mem_map.1 hin'
        simp only [List.mem_filter, Prod.mk.injEq] at he2 hee
        have : e2 = e0 := huniq he2.1 he0 (by rw [hee.1, ht0, ← heq, hd])
        rw [this, ho0, hm] at he2
        simp at he2
    · rw [if_neg (fun hq => hd (by rw [heq, hq])), k6 hd]
      exact h.memReadyAgrees q hq e he heq
  · intro q' hq' hr
    rw [hlsq] at hq'
    obtain ⟨q, hq, rfl⟩ := mem_lsqUpdate.1 hq'
    by_cases hd : q.tag = st.dest
    · rw [if_pos hd] at hr ⊢
      cases hm : st.instr.op.isMem with
      | false => rw [(hg q).2.2.2 hm] at hr ⊢; exact h.lsqResolved q hq hr
      | true =>
        obtain ⟨-, h2, h3⟩ := (hg q).2.2.1 hm
        refine ⟨h2, fun hk => h3 ?_⟩
        rw [(hg q).2.1] at hk
        have hin' : (q.tag, some q.kind) ∈ s.lsq.map fun q => (q.tag, some q.kind) :=
          List.mem_map.2 ⟨q, hq, rfl⟩
        rw [h.lsqMatchesRob] at hin'
        obtain ⟨e2, he2, hee⟩ := List.mem_map.1 hin'
        simp only [List.mem_filter, Prod.mk.injEq] at he2 hee
        have : e2 = e0 := huniq he2.1 he0 (by rw [hee.1, ht0, hd])
        rw [this, ho0, hk] at hee
        revert hee
        cases st.instr.op <;> simp [Op.lsqKind]
    · rw [if_neg hd] at hr ⊢
      exact h.lsqResolved q hq hr
  · intro x hx hxb
    exact h.countdownOk x (hmem x hx hxb) hxb

/-- A capture keeps a tag or clears it. -/
theorem Station.captureFrom_tags (st : Station) (rob : List RobEntry) :
    ((st.captureFrom rob).qj = st.qj ∨ (st.captureFrom rob).qj = none) ∧
    ((st.captureFrom rob).qk = st.qk ∨ (st.captureFrom rob).qk = none) := by
  simp only [Station.captureFrom]
  constructor
  · rcases captureLive_cases rob st.vj st.qj with h | ⟨_, _, _, _, _, h⟩ <;> simp [h]
  · rcases captureLive_cases rob st.vk st.qk with h | ⟨_, _, _, _, _, h⟩ <;> simp [h]

/-- A station that waits for nothing captures nothing. -/
theorem Station.captureFrom_wakeable (st : Station) (rob : List RobEntry) (h : st.wakeable = true) :
    st.captureFrom rob = st := by
  simp only [Station.wakeable, Bool.and_eq_true, Option.isNone_iff_eq_none] at h
  unfold Station.captureFrom captureLive
  rw [h.1, h.2]
  cases st
  simp_all

/-- A countdown that is in order stays so through a capture. -/
theorem countdownOk_capture {st : Station} (rob : List RobEntry)
    (h : 1 ≤ st.total ∧ st.rem ≤ st.total ∧ (st.wakeable = false → st.rem = st.total) ∧
      (st.rem < st.total → st.instr.op.isMem = true →
        st.ea = some (effectiveAddress st.vj st.instr.imm))) :
    let c := st.captureFrom rob
    1 ≤ c.total ∧ c.rem ≤ c.total ∧ (c.wakeable = false → c.rem = c.total) ∧
      (c.rem < c.total → c.instr.op.isMem = true → c.ea = some (effectiveAddress c.vj c.instr.imm)) := by
  cases hw : st.wakeable with
  | true => rw [Station.captureFrom_wakeable st rob hw]; exact h
  | false =>
    have := h.2.2.1 hw
    simp only [Station.captureFrom_total, Station.captureFrom_rem]
    exact ⟨h.1, h.2.1, fun _ => this, fun hlt => by omega⟩

/-- A countdown that is in order stays so through a count of a station that waits for nothing. -/
theorem countdownOk_count {st : Station} (hw : st.wakeable = true)
    (h : 1 ≤ st.total ∧ st.rem ≤ st.total ∧ (st.wakeable = false → st.rem = st.total) ∧
      (st.rem < st.total → st.instr.op.isMem = true →
        st.ea = some (effectiveAddress st.vj st.instr.imm))) :
    let c := st.countdown
    1 ≤ c.total ∧ c.rem ≤ c.total ∧ (c.wakeable = false → c.rem = c.total) ∧
      (c.rem < c.total → c.instr.op.isMem = true → c.ea = some (effectiveAddress c.vj c.instr.imm)) := by
  obtain ⟨h1, h2, -, h4⟩ := h
  have hw' : st.countdown.wakeable = true := by simpa [Station.wakeable] using hw
  refine ⟨by simpa using h1, by simp only [Station.countdown_rem, Station.countdown_total]; omega,
    fun hf => by rw [hw'] at hf; simp at hf, fun hlt hm => ?_⟩
  simp only [Station.countdown_vj, Station.countdown_instr] at hm ⊢
  unfold Station.countdown
  split
  · simp only
    split
    · rfl
    · rename_i hn
      exact h4 (by simp only [hm, and_true] at hn; omega) hm
  · exact h4 (by omega) hm

/-- After capture and countdown a load or store that has no cycle left has its effective address. -/
theorem ready_ea {st : Station} (h : 1 ≤ st.total ∧ st.rem ≤ st.total ∧
      (st.wakeable = false → st.rem = st.total) ∧ (st.rem < st.total → st.instr.op.isMem = true →
        st.ea = some (effectiveAddress st.vj st.instr.imm))) (hr : st.rem = 0)
    (hm : st.instr.op.isMem = true) : st.ea = some (effectiveAddress st.vj st.instr.imm) :=
  h.2.2.2 (by omega) hm

/-- The variant of the instruction a record spells. -/
@[simp] theorem Record.instr_op (r : Record) : r.instr.op = r.op := by
  unfold Record.instr; split <;> simp [Instr.op, *]

/-- The part of the invariants a completion keeps. -/
theorem State.CoreInv.completed (h : s.CoreInv) {p : PoolId} {k : Nat} {st : Station}
    (hs : s.station? p k = some st) (hb : st.busy = true)
    (hc : Completed st.instr.instr p k st s t) : t.CoreInv := by
  have hst : ∀ u : State, u.alu = s.alu → u.ls = s.ls →
      (u.freeStationAt p k st).stations = (s.setStation p k { st with busy := false }).stations := by
    intro u h1 h2
    cases p <;> simp [State.freeStationAt, State.stations, State.setStation, State.pool, h1, h2]
  cases hc with
  | plain hm hbr =>
    rw [Record.instr_op] at hm
    refine h.complete (st' := { st with busy := false }) hs hb rfl
      (f := fun e => { e with result := resultOf st.instr.instr st.vj st.vk, ready := true })
      (fun e => ⟨rfl, rfl, rfl, rfl, rfl⟩) (g := id) (fun q => ⟨rfl, rfl, by simp [hm], fun _ => rfl⟩)
      (by simp) (by simp [lsqUpdate]) (hst _ (by simp) (by simp)) (by simp) (by simp) (by simp) (by simp)
      (by simp)
  | branch hbr =>
    have hm : st.instr.op.isMem = false := by
      rw [Record.instr_op] at hbr; revert hbr; cases st.instr.op <;> simp [Op.isCondBranch, Op.isMem, Op.lsqKind]
    refine h.complete (st' := { st with busy := false }) hs hb rfl
      (f := fun e => { e with
        target := nextFetch st.instr.instr (takenOf st.instr.instr st.vj st.vk) st.instr.pc
        result := resultOf st.instr.instr st.vj st.vk, ready := true })
      (fun e => ⟨rfl, rfl, rfl, rfl, rfl⟩) (g := id) (fun q => ⟨rfl, rfl, by simp [hm], fun _ => rfl⟩)
      (by simp only [State.freeStationAt_rob, State.broadcast_rob]
          rw [robUpdate_robUpdate _ _ _ (by intro e; rfl)]) (by simp [lsqUpdate])
      (hst _ (by simp) (by simp)) (by simp) (by simp) (by simp) (by simp) (by simp)
  | load ho ea hea hg =>
    rw [Record.instr_op] at ho
    refine h.complete (st' := { st with busy := false }) hs hb rfl
      (f := fun e => { e with result := s.memRead ea, ready := true })
      (fun e => ⟨rfl, rfl, rfl, rfl, rfl⟩) (g := fun q => { q with addr := some ea, memReady := true })
      (fun q => ⟨rfl, rfl, fun _ => ⟨rfl, rfl, by simp [ho]⟩, by simp [ho, Op.isMem, Op.lsqKind]⟩)
      (by simp) (by simp) (hst _ (by simp) (by simp)) (by simp) (by simp) (by simp) (by simp)
      (by simp)
  | store ho ea hea =>
    rw [Record.instr_op] at ho
    refine h.complete (st' := { st with busy := false }) hs hb rfl
      (f := fun e => { e with result := st.vk, ready := true })
      (fun e => ⟨rfl, rfl, rfl, rfl, rfl⟩)
      (g := fun q => { q with addr := some ea, data := some st.vk, memReady := true })
      (fun q => ⟨rfl, rfl, fun _ => ⟨rfl, rfl, fun _ => rfl⟩, by simp [ho, Op.isMem, Op.lsqKind]⟩)
      (by simp) (by simp) (hst _ (by simp) (by simp)) (by simp) (by simp) (by simp) (by simp)
      (by simp)
  | stay => exact h

/-- A visit keeps the invariants. -/
theorem State.CoreInv.visited (h : s.CoreInv) {p : PoolId} {k : Nat} (hv : Visited p k s t) :
    t.CoreInv := by
  cases hv with
  | skip => exact h
  | wait st hs hb hw =>
    obtain ⟨hj, hk⟩ := st.captureFrom_tags s.rob
    exact h.setStation hs hb hb rfl rfl hj hk
      (countdownOk_capture s.rob (h.countdownOk st (station?_mem hs) hb))
  | count st hs hb hw hr =>
    obtain ⟨hj, hk⟩ := st.captureFrom_tags s.rob
    exact h.setStation hs hb (by simpa using hb) (by simp) (by simp) (by simpa using hj) (by simpa using hk)
      (countdownOk_count hw (countdownOk_capture s.rob (h.countdownOk st (station?_mem hs) hb)))
  | complete st _ hs hb hw hr hc =>
    obtain ⟨hj, hk⟩ := st.captureFrom_tags s.rob
    have h2 := h.setStation hs hb (st' := (st.captureFrom s.rob).countdown) (by simpa using hb) (by simp)
      (by simp) (by simpa using hj) (by simpa using hk)
      (countdownOk_count hw (countdownOk_capture s.rob (h.countdownOk st (station?_mem hs) hb)))
    refine (h2.atStage (.execute p k)).completed (st := (st.captureFrom s.rob).countdown)
      (State.station?_setStation_self s p k _ st hs) (by simpa using hb) ?_
    simpa using hc

/-! ## Commit -/

/-- A commit-time capture keeps a tag that is not the head's, and clears the head's. -/
theorem Station.capture_tags (st : Station) (tag : Nat) (v : Word) :
    (∀ x ∈ (st.capture tag v).qj, x ∈ st.qj ∧ x ≠ tag) ∧ (∀ x ∈ (st.capture tag v).qk, x ∈ st.qk ∧ x ≠ tag) := by
  simp only [Station.capture]
  constructor
  · intro x hx
    rcases captureSlot_cases tag v st.vj st.qj with ⟨h, he⟩ | ⟨h, he⟩
    · rw [he] at hx; exact ⟨hx, fun hxt => h (by rw [← hxt]; exact hx)⟩
    · rw [he] at hx; simp at hx
  · intro x hx
    rcases captureSlot_cases tag v st.vk st.qk with ⟨h, he⟩ | ⟨h, he⟩
    · rw [he] at hx; exact ⟨hx, fun hxt => h (by rw [← hxt]; exact hx)⟩
    · rw [he] at hx; simp at hx

/-- A station that waits for nothing takes nothing at a commit. -/
theorem Station.capture_wakeable (st : Station) (tag : Nat) (v : Word) (h : st.wakeable = true) :
    st.capture tag v = st := by
  simp only [Station.wakeable, Bool.and_eq_true, Option.isNone_iff_eq_none] at h
  unfold Station.capture captureSlot
  rw [h.1, h.2]
  cases st
  simp_all

/-- A retired head: gone from the ROB and the LSQ, its result with the stations that waited for it, no
RAT entry naming it. -/
theorem State.CoreInv.retireHead (hi : s.CoreInv) {h : RobEntry} {tl : List RobEntry} (hr : s.rob = h :: tl)
    (hd : h.ready = true) (hrob : t.rob = tl)
    (hst : t.stations = s.stations.map fun st => if st.busy then st.capture h.tag h.result else st)
    (hlsq : t.lsq = if h.op.isMem then s.lsq.tail else s.lsq) (hcfg : t.cfg = s.cfg)
    (htag : t.nextTag = s.nextTag) (harf : t.arf[(0 : Reg)] = s.arf[(0 : Reg)])
    (hrat0 : t.rat[(0 : Reg)] = s.rat[(0 : Reg)])
    (hrat : ∀ i : Reg, ∀ x ∈ (t.rat[i]).tag?, x ∈ (s.rat[i]).tag? ∧ x ≠ h.tag)
    (hco : t.counters.committed = s.counters.committed + 1)
    (hdi : t.counters.discarded = s.counters.discarded) : t.CoreInv := by
  have hall : (∀ e ∈ tl, h.tag < e.tag) ∧ tl.Pairwise fun a b => a.tag < b.tag := by
    have := hi.tagsRise; simp only [State.TagsRise, hr] at this; exact List.pairwise_cons.1 this
  have hsub : ∀ e ∈ tl, e ∈ s.rob := fun e he => by rw [hr]; exact List.mem_cons_of_mem _ he
  have htl : ∀ e ∈ s.rob, e.tag ≠ h.tag → e ∈ tl := by
    intro e he hne
    rw [hr] at he
    rcases List.mem_cons.1 he with rfl | he
    · exact absurd rfl hne
    · exact he
  have hq : ∀ q ∈ t.lsq, q ∈ s.lsq := by
    intro q hq; rw [hlsq] at hq; split at hq
    · exact List.mem_of_mem_tail hq
    · exact hq
  have hx : ∀ x ∈ t.stations, x.busy = true → ∃ y ∈ s.stations, y.busy = true ∧ x = y.capture h.tag h.result := by
    intro x hx hxb
    rw [hst] at hx
    obtain ⟨y, hy, rfl⟩ := List.mem_map.1 hx
    cases hyb : y.busy with
    | false => simp [hyb] at hxb
    | true => exact ⟨y, hy, hyb, by simp⟩
  refine ⟨?_, ?_, ?_, ?_, ?_, ?_, ?_, ?_, ?_, ?_, ?_, ?_⟩
  · show t.rob.Pairwise _; rw [hrob]; exact hall.2
  · intro e he; rw [hrob] at he; rw [htag]; exact hi.tagsIssued e (hsub e he)
  · intro x hxm hxb
    obtain ⟨y, hy, hyb, rfl⟩ := hx x hxm hxb
    obtain ⟨c1, c2⟩ := y.capture_tags h.tag h.result
    obtain ⟨l1, l2⟩ := hi.tagsLive y hy hyb
    have up : ∀ x r d, x ≠ h.tag → s.Produces x r d → t.Produces x r d := by
      rintro x r d hne ⟨e, he, h1, h2, h3⟩
      exact ⟨e, by rw [hrob]; exact htl e he (h1 ▸ hne), h1, h2, h3⟩
    exact ⟨fun x hx => up _ _ _ (c1 x hx).2 (l1 x (c1 x hx).1),
      fun x hx => up _ _ _ (c2 x hx).2 (l2 x (c2 x hx).1)⟩
  · intro i x hx
    obtain ⟨h1, hne⟩ := hrat i x hx
    obtain ⟨h0, ⟨e, he, e1, e2, e3⟩, h4⟩ := hi.ratNamesYoungest i x h1
    refine ⟨h0, ⟨e, by rw [hrob]; exact htl e he (e1 ▸ hne), e1, e2, e3⟩, ?_⟩
    intro y hy; rw [hrob] at hy; exact h4 y (hsub y hy)
  · have := hi.lsqMatchesRob
    simp only [State.LsqMatchesRob, hr, hrob, hlsq] at this ⊢
    cases hm : h.op.isMem with
    | false => simpa [hm] using this
    | true =>
      simp only [hm, List.filter_cons, if_true, List.map_cons] at this ⊢
      rw [List.map_tail, this, List.tail_cons]
  · intro x hxm hxb
    obtain ⟨y, hy, hyb, rfl⟩ := hx x hxm hxb
    obtain ⟨e, he, h1, h2, h3⟩ := hi.stationsLive y hy hyb
    refine ⟨e, ?_, h1, h2, h3⟩
    rw [hrob]
    rw [hr] at he
    rcases List.mem_cons.1 he with rfl | he
    · rw [hd] at h2; simp at h2
    · exact he
  · intro e he hre
    rw [hrob] at he
    rw [hst, List.countP_map, ← hi.oneStationEach e (hsub e he) hre]
    refine List.countP_congr fun y _ => ?_
    simp only [Function.comp]
    split <;> simp [Station.capture]
  · have := hi.tagsAccounted
    simp only [State.TagsAccounted, hrob, hr, hco, hdi, htag, hcfg, List.length_cons] at this ⊢
    omega
  · exact ⟨harf.trans hi.zeroRegister.1, hrat0.trans hi.zeroRegister.2⟩
  · intro q hq' e he
    rw [hrob] at he
    exact hi.memReadyAgrees q (hq q hq') e (hsub e he)
  · intro q hq' hrd
    exact hi.lsqResolved q (hq q hq') hrd
  · intro x hxm hxb
    obtain ⟨y, hy, hyb, rfl⟩ := hx x hxm hxb
    have := hi.countdownOk y hy hyb
    cases hw : y.wakeable with
    | true => rw [y.capture_wakeable h.tag h.result hw]; exact this
    | false =>
      obtain ⟨h1, h2, h3, -⟩ := this
      have h5 := h3 hw
      exact ⟨h1, h2, fun _ => h5, fun hlt => absurd hlt (by simp only [Station.capture]; omega)⟩

/-- What a register commit does to the RAT: an entry that named the head, the youngest writer of its
register, names it no more; every other entry stays. -/
theorem commitReg_rat (s : State) (rd : Reg) (h : RobEntry) (i : Reg) :
    (s.commitReg rd h).rat[i] =
      if i = rd ∧ rd ≠ 0 ∧ s.rat[rd] = .renamed h.tag then .architectural else s.rat[i] := by
  unfold State.commitReg ratRevert
  by_cases h0 : rd = 0
  · simp [h0]
  · by_cases hn : s.rat[rd] = .renamed h.tag
    · by_cases hi : i = rd
      · subst hi; simp [h0, hn]
      · have : (rd : Nat) ≠ (i : Nat) := fun hv => hi (Fin.ext hv.symm)
        simp [h0, hn, hi, this]
    · have hn' : ¬ s.rat[(rd : Nat)] = .renamed h.tag := hn
      simp [h0, hn']

/-- No RAT entry names a head that has retired. -/
theorem State.CoreInv.retired_rat (hi : s.CoreInv) {h : RobEntry} (hh : h ∈ s.rob) {rat : Vector RatEntry 32}
    (hrat : rat = if h.op.writesReg then (s.commitReg h.rd h).rat else s.rat) :
    ∀ i : Reg, ∀ x ∈ (rat[i]).tag?, x ∈ (s.rat[i]).tag? ∧ x ≠ h.tag := by
  intro i x hx
  have key : ∀ i : Reg, s.rat[i] = .renamed h.tag → i ≠ 0 ∧ h.rd = i ∧ h.op.writesReg = true := by
    intro i hn
    obtain ⟨h0, ⟨e, he, e1, e2, e3⟩, -⟩ := hi.ratNamesYoungest i h.tag (by simp [hn, RatEntry.tag?])
    have := rob_unique hi.tagsRise he hh e1
    subst this
    exact ⟨h0, e2, e3⟩
  have hne : ∀ i : Reg, (x ∈ (s.rat[i]).tag?) → x = h.tag → s.rat[i] = .renamed h.tag := by
    intro i hx he
    subst he
    cases hr : s.rat[i] with
    | architectural => simp [hr, RatEntry.tag?] at hx
    | renamed y => simp [hr, RatEntry.tag?] at hx; rw [hx]
  subst hrat
  cases hw : h.op.writesReg with
  | false =>
    simp only [hw, Bool.false_eq_true, if_false] at hx
    refine ⟨hx, fun he => ?_⟩
    have := (key i (hne i hx he)).2.2
    rw [hw] at this; simp at this
  | true =>
    simp only [hw, if_true, commitReg_rat] at hx
    split at hx
    · simp [RatEntry.tag?] at hx
    · rename_i hn
      refine ⟨hx, fun he => hn ?_⟩
      obtain ⟨k0, k1, -⟩ := key i (hne i hx he)
      subst k1
      exact ⟨rfl, k0, hne _ hx he⟩

theorem commitReg_arf_zero (s : State) (rd : Reg) (h : RobEntry) :
    (s.commitReg rd h).arf[(0 : Reg)] = s.arf[(0 : Reg)] := by
  unfold State.commitReg
  split
  · rfl
  · rename_i h0
    have : (rd : Nat) ≠ 0 := fun hv => h0 (Fin.ext hv)
    simp [this]

theorem commitReg_rat_zero (s : State) (rd : Reg) (h : RobEntry) :
    (s.commitReg rd h).rat[(0 : Reg)] = s.rat[(0 : Reg)] := by
  rw [commitReg_rat]
  split
  · rename_i hc; exact absurd hc.1.symm hc.2.1
  · rfl

/-- A retiring commit keeps the invariants. -/
theorem State.CoreInv.retires (hi : s.CoreInv) {h : RobEntry} {tl : List RobEntry} (hr : s.rob = h :: tl)
    (hd : h.ready = true) (hu : Retires h s t) : t.CoreInv := by
  have hh : h ∈ s.rob := by rw [hr]; exact List.mem_cons_self
  cases hu with
  | branch hb hp =>
    have hm : h.op.isMem = false := by revert hb; cases h.op <;> simp [Op.isCondBranch, Op.isMem, Op.lsqKind]
    have hw : h.op.writesReg = false := by revert hb; cases h.op <;> simp [Op.isCondBranch, Op.writesReg]
    exact hi.retireHead hr hd (by simp [hr]) (by simp [State.stations]) (by simp [hm]) (by simp) (by simp)
      (by simp) (by simp) (hi.retired_rat hh (by simp [hw])) (by simp) (by simp)
  | writing hw hm =>
    exact hi.retireHead hr hd (by simp [hr]) (by simp [State.stations]) (by simp [hm]) (by simp) (by simp)
      (by simpa using commitReg_arf_zero s h.rd h) (by simpa using commitReg_rat_zero s h.rd h)
      (hi.retired_rat hh (by simp [hw])) (by simp) (by simp)
  | load ho q a hq hf =>
    exact hi.retireHead hr hd (by simp [hr]) (by simp [State.stations])
      (by simp [ho, Op.isMem, Op.lsqKind, State.popLsq]) (by simp) (by simp)
      (by simpa using commitReg_arf_zero s h.rd h) (by simpa using commitReg_rat_zero s h.rd h)
      (hi.retired_rat hh (by simp [ho, Op.writesReg])) (by simp) (by simp)
  | store ho q a v hq hf hv =>
    exact hi.retireHead hr hd (by simp [hr]) (by simp [State.stations])
      (by simp [ho, Op.isMem, Op.lsqKind, State.popLsq]) (by simp) (by simp) (by simp) (by simp)
      (hi.retired_rat hh (by simp [ho, Op.writesReg])) (by simp) (by simp)
  | plain hw hm hb =>
    exact hi.retireHead hr hd (by simp [hr]) (by simp [State.stations]) (by simp [hm]) (by simp) (by simp)
      (by simp) (by simp) (hi.retired_rat hh (by simp [hw])) (by simp) (by simp)

/-- An aborting commit keeps the invariants. -/
theorem State.CoreInv.aborts (hi : s.CoreInv) {h : RobEntry} (ha : Aborts h s t) : t.CoreInv := by
  cases ha with
  | fault hm q a hq f hf => exact ⟨hi.1, hi.2, hi.3, hi.4, hi.5, hi.6, hi.7, hi.8, hi.9, hi.10, hi.11, hi.12⟩
  | flush hb hp =>
    have hfree : ∀ x ∈ (((s.trainBranch h (decide (h.result = 1))).logMispredict h).flush h.target).stations,
        x.busy = false := by
      intro x hx
      simp only [State.stations, State.flush_alu, State.flush_ls, List.mem_append, List.mem_map] at hx
      rcases hx with ⟨y, -, rfl⟩ | ⟨y, -, rfl⟩ <;> rfl
    refine ⟨?_, ?_, ?_, ?_, ?_, ?_, ?_, ?_, ?_, ?_, ?_, ?_⟩
    · simp [State.TagsRise]
    · simp [State.TagsIssued]
    · intro x hx hxb; rw [hfree x hx] at hxb; simp at hxb
    · intro i x hx; simp [State.flush, RatEntry.tag?] at hx
    · simp [State.LsqMatchesRob]
    · intro x hx hxb; rw [hfree x hx] at hxb; simp at hxb
    · simp [State.OneStationEach]
    · have := hi.tagsAccounted
      simp [State.TagsAccounted] at this ⊢
      omega
    · exact ⟨by simpa using hi.zeroRegister.1, by simp [State.flush]⟩
    · simp [State.MemReadyAgrees]
    · simp [State.LsqResolved]
    · intro x hx hxb; rw [hfree x hx] at hxb; simp at hxb

/-! ## Issue -/

/-- The record of an instruction spells it. -/
@[simp] theorem Instr.record_instr (i : Instr) (pc : Word) : (i.record pc).instr = i := by cases i <;> rfl
@[simp] theorem Instr.record_op (i : Instr) (pc : Word) : (i.record pc).op = i.op := by cases i <;> rfl
@[simp] theorem Instr.record_rd (i : Instr) (pc : Word) : (i.record pc).rd = i.rd := by cases i <;> rfl
@[simp] theorem Instr.record_pc (i : Instr) (pc : Word) : (i.record pc).pc = pc := by cases i <;> rfl

/-- A renamed source that waits, waits for the live entry the RAT names (R206). -/
theorem rename_tag {r : Reg} {x : Nat} (h : x ∈ (s.rename r).2) : r ≠ 0 ∧ s.rat[r] = .renamed x := by
  unfold State.rename at h
  split at h
  · simp at h
  · rename_i h0
    refine ⟨h0, ?_⟩
    split at h
    · simp at h
    · rename_i p hp
      split at h
      · split at h
        · simp at h
        · simp at h; rw [hp, h]
      · simp at h; rw [hp, h]

/-- The RAT after issue (R212). -/
theorem ratName_getElem (i : Instr) (tag : Nat) (rat : Vector RatEntry 32) (r : Reg) :
    (ratName i tag rat)[r] =
      if r = i.rd ∧ r ≠ 0 ∧ i.op.writesReg = true then .renamed tag else rat[r] := by
  unfold ratName
  split
  · rename_i hc
    by_cases hr : r = i.rd
    · subst hr; simp [hc]
    · have : (i.rd : Nat) ≠ (r : Nat) := fun hv => hr (Fin.ext hv.symm)
      simp [hr, this]
  · rename_i hc
    have : ¬ (r = i.rd ∧ r ≠ 0 ∧ i.op.writesReg = true) := by
      rintro ⟨rfl, h1, h2⟩
      exact hc ⟨h1, h2⟩
    simp only [this, if_false]

/-- The stations after issue. -/
theorem State.issue_stations (s : State) (i : Instr) (k : Nat) (b : Bool) (n : Word) :
    (s.issue i k b n).stations = (s.setStation i.op.pool k (s.issuedStation i)).stations := by
  unfold State.issue State.stations
  cases i.op.pool <;> simp [State.setStation, State.pool]

/-- An issue keeps the invariants. -/
theorem State.CoreInv.issue (h : s.CoreInv) {i : Instr} {k : Nat} {b : Bool} {n : Word} {st0 : Station}
    (hs : s.station? i.op.pool k = some st0) (hb : st0.busy = false) (hl : 1 ≤ i.op.latency s.cfg) :
    (s.issue i k b n).CoreInv := by
  obtain ⟨j, hj1, hj2⟩ := stations_setStation hs
  have hmem : ∀ x ∈ (s.issue i k b n).stations, x = s.issuedStation i ∨ x ∈ s.stations := by
    intro x hx; rw [State.issue_stations, hj2] at hx; exact mem_set_cases hx
  have hlive : ∀ tag, ∀ e ∈ s.rob, e.tag = tag → tag < s.nextTag := by
    rintro tag e he rfl; exact h.tagsIssued e he
  have hold : ∀ x ∈ s.stations, x.busy = true → x.dest < s.nextTag := by
    intro x hx hxb
    obtain ⟨e, he, h1, -⟩ := h.stationsLive x hx hxb
    exact hlive _ e he h1
  have hlsqTag : ∀ q ∈ s.lsq, q.tag < s.nextTag := by
    intro q hq
    have hin : (q.tag, some q.kind) ∈ s.lsq.map fun q => (q.tag, some q.kind) := List.mem_map.2 ⟨q, hq, rfl⟩
    rw [h.lsqMatchesRob] at hin
    obtain ⟨e, he, hee⟩ := List.mem_map.1 hin
    simp only [List.mem_filter, Prod.mk.injEq] at he hee
    exact hlive _ e he.1 hee.1
  have hpush : ∀ q ∈ lsqPush i s.nextTag s.lsq, q ∈ s.lsq ∨ (q.tag = s.nextTag ∧ q.memReady = false) := by
    intro q hq
    unfold lsqPush at hq
    split at hq
    · rcases List.mem_append.1 hq with hq | hq
      · exact .inl hq
      · simp at hq; subst hq; exact .inr ⟨rfl, rfl⟩
    · exact .inl hq
  refine ⟨?_, ?_, ?_, ?_, ?_, ?_, ?_, ?_, ?_, ?_, ?_, ?_⟩
  · simp only [State.TagsRise, State.issue_rob]
    rw [List.pairwise_append]
    exact ⟨h.tagsRise, by simp, fun a ha c hc => by simp at hc; subst hc; exact h.tagsIssued a ha⟩
  · intro e he
    simp only [State.issue_rob, List.mem_append, List.mem_singleton] at he
    rw [State.issue_nextTag]
    rcases he with he | rfl
    · have := h.tagsIssued e he; omega
    · exact Nat.lt_succ_self _
  · intro x hx hxb
    have up : ∀ tg r d, s.Produces tg r d → (s.issue i k b n).Produces tg r d := by
      rintro tg r d ⟨e, he, h1⟩; exact ⟨e, by simp [he], h1⟩
    rcases hmem x hx with rfl | hx
    · have prod : ∀ r, ∀ tg ∈ (s.rename r).2, s.Produces tg r s.nextTag := by
        intro r tg htg
        obtain ⟨-, hr⟩ := rename_tag htg
        obtain ⟨-, ⟨e, he, h1, h2, -⟩, -⟩ := h.ratNamesYoungest r tg (by simp [hr, RatEntry.tag?])
        exact ⟨e, he, h1, hlive _ e he h1, h2⟩
      simp only [State.issuedStation, Instr.record_instr]
      exact ⟨fun tg htg => up _ _ _ (prod _ tg htg), fun tg htg => up _ _ _ (prod _ tg htg)⟩
    · obtain ⟨l1, l2⟩ := h.tagsLive x hx hxb
      exact ⟨fun tg htg => up _ _ _ (l1 tg htg), fun tg htg => up _ _ _ (l2 tg htg)⟩
  · intro r tg htg
    rw [State.issue_rat, ratName_getElem] at htg
    simp only [State.issue_rob, List.mem_append, List.mem_singleton]
    split at htg
    · rename_i hc
      obtain ⟨rfl, h0, hw⟩ := hc
      simp only [RatEntry.tag?, Option.mem_some_iff] at htg
      subst htg
      refine ⟨h0, ⟨_, .inr rfl, rfl, rfl, hw⟩, ?_⟩
      rintro e (he | rfl) - -
      · exact Nat.le_of_lt (h.tagsIssued e he)
      · exact Nat.le_refl _
    · rename_i hc
      obtain ⟨h0, ⟨e, he, h1, h2, h3⟩, h4⟩ := h.ratNamesYoungest r tg htg
      refine ⟨h0, ⟨e, .inl he, h1, h2, h3⟩, ?_⟩
      rintro e' (he' | rfl) hr' hw'
      · exact h4 e' he' hr' hw'
      · exact absurd ⟨hr'.symm, h0, hw'⟩ hc
  · have := h.lsqMatchesRob
    simp only [State.LsqMatchesRob, State.issue_lsq, State.issue_rob, List.filter_append, List.map_append,
      lsqPush] at this ⊢
    cases hk : i.op.lsqKind with
    | none => simp [this, Op.isMem, State.issuedEntry, hk]
    | some kind => simp [this, Op.isMem, State.issuedEntry, hk]
  · intro x hx hxb
    simp only [State.issue_rob, List.mem_append, List.mem_singleton]
    rcases hmem x hx with rfl | hx
    · exact ⟨_, .inr rfl, rfl, rfl, by simp [State.issuedStation, State.issuedEntry],
        by simp [State.issuedStation, State.issuedEntry], by simp [State.issuedStation, State.issuedEntry]⟩
    · obtain ⟨e, he, h1⟩ := h.stationsLive x hx hxb
      exact ⟨e, .inl he, h1⟩
  · intro e he hr
    rw [State.issue_stations, hj2]
    have h7 := countP_set (fun y => y.busy && y.dest == e.tag) (y := s.issuedStation i) hj1
    simp only [State.issue_rob, List.mem_append, List.mem_singleton] at he
    rcases he with he | rfl
    · rw [h.oneStationEach e he hr] at h7
      have hne : (s.nextTag == e.tag) = false := by
        have := h.tagsIssued e he; simp; omega
      simp [hb, State.issuedStation, hne] at h7
      simpa [State.issuedStation] using h7
    · have hz : s.stations.countP (fun y => y.busy && y.dest == (s.issuedEntry i b).tag) = 0 := by
        rw [List.countP_eq_zero]
        intro y hy hyc
        simp only [Bool.and_eq_true, beq_iff_eq] at hyc
        have := hold y hy hyc.1
        simp only [State.issuedEntry] at hyc
        omega
      rw [hz] at h7
      simp [hb, State.issuedStation, State.issuedEntry] at h7
      simpa [State.issuedStation, State.issuedEntry] using h7
  · have := h.tagsAccounted
    simp only [State.TagsAccounted, State.issue_rob, State.issue_nextTag, State.issue_cfg,
      State.issue_counters, List.length_append, List.length_singleton] at this ⊢
    omega
  · refine ⟨by simpa using h.zeroRegister.1, ?_⟩
    rw [State.issue_rat, ratName_getElem]
    simpa using h.zeroRegister.2
  · intro q hq e he heq
    rw [State.issue_lsq] at hq
    simp only [State.issue_rob, List.mem_append, List.mem_singleton] at he
    rcases hpush q hq with hq | ⟨ht, hm⟩ <;> rcases he with he | rfl
    · exact h.memReadyAgrees q hq e he heq
    · have := hlsqTag q hq; simp only [State.issuedEntry] at heq; omega
    · have := h.tagsIssued e he; omega
    · exact hm
  · intro q hq hr
    rw [State.issue_lsq] at hq
    rcases hpush q hq with hq | ⟨ht, hm⟩
    · exact h.lsqResolved q hq hr
    · rw [hm] at hr; simp at hr
  · intro x hx hxb
    rcases hmem x hx with rfl | hx
    · exact ⟨hl, Nat.le_refl _, fun _ => rfl, fun hlt => absurd hlt (Nat.lt_irrefl _)⟩
    · exact h.countdownOk x hx hxb

end Sys2Proof.Machine
end

