-- ==== Sys2Proof/Laws/Sequential.lean ====
section
/-! SUPPORT. The sequential reference steps by the one function `Data.run` of Sys2Proof/Safety.lean on
registers and memory, for every instruction at once (spec/50_pipeline_step.md R190). -/

namespace Sys2Proof.Machine

@[simp] theorem State.data_arf (s : State) : s.data.arf = s.arf := rfl

@[simp] theorem State.data_mem (s : State) : s.data.mem = s.mem := rfl

@[simp] theorem State.data_read (s : State) (r : Reg) : s.data.read r = s.readReg r := rfl

/-- The immediate of a load or store is that of its record. -/
theorem immOf_instr {r : Record} (h : r.op.isMem = true) : immOf r.instr = r.imm := by
  revert h
  unfold Record.instr
  cases r.op <;> simp [Op.isMem, Op.lsqKind, immOf, Instr.record]

/-- The reference runs an instruction whose address, if it has one, is good. -/
theorem refStep_next {s : State} {r : Record} (hl : s.program.lookup s.pc = some r)
    (hj : s.cfg.jalrMode = .refuse → r.op ≠ .jalr)
    (hf : r.op.isMem = true → addressFault s.cfg s.pc (s.data.ea r.instr) = none) :
    refStep s = .next { s with
      arf := (s.data.run s.cfg r.instr).arf
      mem := (s.data.run s.cfg r.instr).mem
      pc := nextFetch r.instr (s.data.taken r.instr) s.pc
      stage := .reference } := by
  have hrd : ∀ x, (s.atStage x).readReg = s.readReg := fun _ => rfl
  have hrd' : ∀ x, State.readReg { s with stage := x } = s.readReg := fun _ => rfl
  simp only [refStep, hl]
  rw [← Record.instr_op] at hf hj
  revert hf hj
  cases r.instr with
  | jalr rd rs1 imm =>
    intro hj _
    have : s.cfg.jalrMode ≠ .refuse := fun h => hj h rfl
    simp [exec, execJalr, inert, Data.run, Instr.op, Op.writesReg, nextFetch, State.setPc, State.atStage, this]
  | lw rd rs1 imm =>
    intro _ hf
    have := hf rfl
    simp only [Data.ea, immOf, Instr.record, Instr.slotJ, State.data_read] at this
    by_cases h0 : rd = 0 <;>
      simp [exec, execLw, hrd', this, State.writeReg, State.setPc, Data.run, Instr.op, Op.writesReg,
        nextFetch, Instr.rd, h0, Data.value, Data.ea, immOf, Instr.record, State.memRead, Instr.slotJ,
        State.atStage]
    rfl
  | sw rs1 rs2 imm =>
    intro _ hf
    have := hf rfl
    simp only [Data.ea, immOf, Instr.record, Instr.slotJ, State.data_read] at this
    simp [exec, execSw, hrd', this, Data.run, Instr.op, Op.writesReg,
      nextFetch, Data.ea, immOf, Instr.record, Instr.slotJ, Instr.slotK, State.memWrite, State.setPc,
      State.atStage]
  | _ =>
    intro _ _
    simp [exec, execAdd, execSub, execAnd, execOr, execXor, execSlt, execAddi, execBeq, execBne, execJal,
      execNop, computing, inert, branching, hrd, State.writeReg, State.setPc, Data.run, Instr.op,
      Op.writesReg, nextFetch, Instr.rd, Data.value, resultOf, Data.taken, takenOf, Instr.slotJ,
      Instr.slotK]
    try (split <;> simp [State.atStage, *])
    try simp [State.atStage]

/-- The reference faults on a bad address. -/
theorem refStep_fault {s : State} {r : Record} (hl : s.program.lookup s.pc = some r)
    (hm : r.op.isMem = true) {f : Fault} (hf : addressFault s.cfg s.pc (s.data.ea r.instr) = some f) :
    refStep s = .fault f := by
  have hrd : ∀ x, (s.atStage x).readReg = s.readReg := fun _ => rfl
  simp only [refStep, hl]
  rw [← Record.instr_op] at hm
  revert hm hf
  cases r.instr <;> intro hm hf <;> simp [Instr.op, Op.isMem, Op.lsqKind] at hm <;>
    simp only [Data.ea, immOf, Instr.record, Instr.slotJ, State.data_read] at hf <;>
    simp [exec, execLw, execSw, hrd, hf]

end Sys2Proof.Machine
end

