-- ==== Sys2Proof/Laws/DataInv.lean ====
section
/-! SUPPORT. What the queues hold, in terms of the sequential reading (`State.DataInv` of
Sys2Proof/Safety.lean), is kept by each part of Execute, where loads wait for older stores
(spec/20_memory.md R80). -/

namespace Sys2Proof.Machine

variable {s t : State}

/-! ## Reading the data -/

@[simp] theorem Data.runAll_nil (c : Config) (p : Program) (d : Data) : d.runAll c p [] = d := rfl

@[simp] theorem Data.runAll_cons (c : Config) (p : Program) (d : Data) (e : RobEntry) (l : List RobEntry) :
    d.runAll c p (e :: l) = (d.run c (instrAt p e.pc)).runAll c p l := rfl

theorem Data.runAll_append (c : Config) (p : Program) (d : Data) (l m : List RobEntry) :
    d.runAll c p (l ++ m) = (d.runAll c p l).runAll c p m := by
  simp [Data.runAll]

/-- The data depend on the addresses of the entries alone. -/
theorem Data.runAll_congr (c : Config) (p : Program) (d : Data) {l m : List RobEntry}
    (h : l.map (·.pc) = m.map (·.pc)) : d.runAll c p l = d.runAll c p m := by
  have : ∀ l : List RobEntry, d.runAll c p l = (l.map (·.pc)).foldl (fun d a => d.run c (instrAt p a)) d := by
    intro l; simp [Data.runAll, List.foldl_map]
  rw [this, this, h]

/-- A register that an instruction does not write keeps its value; one it writes takes the result. -/
theorem Data.run_read (c : Config) (d : Data) (i : Instr) (r : Reg) :
    (d.run c i).read r =
      if i.rd = r ∧ r ≠ 0 ∧ i.op.writesReg = true then d.value c i else d.read r := by
  unfold Data.run Data.read
  by_cases h0 : r = 0
  · simp [h0]
  · by_cases hw : i.op.writesReg = true ∧ i.rd ≠ 0
    · simp only [h0, if_false, hw, and_self, if_true, ne_eq, not_false_eq_true, and_true]
      by_cases hr : i.rd = r
      · subst hr; simp
      · have : (i.rd : Nat) ≠ (r : Nat) := fun hv => hr (Fin.ext hv)
        simp [hr, this]
    · have : ¬ (i.rd = r ∧ r ≠ 0 ∧ i.op.writesReg = true) := by
        rintro ⟨rfl, h1, h2⟩; exact hw ⟨h2, h1⟩
      simp only [h0, if_false, hw, this]

/-- A list of instructions none of which writes `r` keeps `r`. -/
theorem Data.runAll_read (c : Config) (p : Program) (r : Reg) (l : List RobEntry) (d : Data)
    (h : ∀ e ∈ l, ¬ ((instrAt p e.pc).rd = r ∧ r ≠ 0 ∧ (instrAt p e.pc).op.writesReg = true)) :
    (d.runAll c p l).read r = d.read r := by
  induction l generalizing d with
  | nil => rfl
  | cons e l ih =>
    rw [Data.runAll_cons, ih _ fun e he => h e (List.mem_cons_of_mem _ he), Data.run_read,
      if_neg (h e List.mem_cons_self)]

/-- A list of instructions without a store keeps memory. -/
theorem Data.runAll_mem (c : Config) (p : Program) (l : List RobEntry) (d : Data)
    (h : ∀ e ∈ l, (instrAt p e.pc).op ≠ .sw) : (d.runAll c p l).mem = d.mem := by
  induction l generalizing d with
  | nil => rfl
  | cons e l ih =>
    rw [Data.runAll_cons, ih _ fun e he => h e (List.mem_cons_of_mem _ he)]
    simp [Data.run, h e List.mem_cons_self]

/-- In a list of rising tags, the entries before a tag that stands in it are those in front of it. -/
theorem filter_before {l m : List RobEntry} {e : RobEntry}
    (h : (l ++ e :: m).Pairwise fun a b => a.tag < b.tag) :
    (l ++ e :: m).filter (fun x => x.tag < e.tag) = l := by
  rw [List.pairwise_append] at h
  obtain ⟨-, h2, h3⟩ := h
  rw [List.filter_append, List.filter_eq_self.2, List.filter_eq_nil_iff.2, List.append_nil]
  · intro x hx
    rcases List.mem_cons.1 hx with rfl | hx
    · simp
    · have := (List.pairwise_cons.1 h2).1 x hx; simp; omega
  · intro x hx; simpa using h3 x hx e List.mem_cons_self

/-- The value of a register no entry before `x` writes is the committed one. -/
theorem State.DataInv.read_committed (h : s.DataInv) {r : Reg} {x : Nat}
    (hn : ∀ e ∈ s.rob, e.Writes r → x ≤ e.tag) : (s.dataBefore x).read r = s.data.read r := by
  refine Data.runAll_read _ _ _ _ _ fun e he => ?_
  obtain ⟨he, hx⟩ := List.mem_filter.1 he
  simp only [decide_eq_true_eq] at hx
  rintro ⟨h1, -, h3⟩
  obtain ⟨-, ho, hd⟩ := h.fetched e he
  have := hn e he ⟨hd ▸ h1, ho ▸ h3⟩
  omega

/-- The value of a register before `dest` is the result of its youngest writer. -/
theorem State.DataInv.read_youngest (h : s.DataInv) (hi : s.CoreInv) {r : Reg} {dest : Nat} {e : RobEntry}
    (he : e ∈ s.rob) (hy : Youngest s.rob r dest e.tag) :
    (s.dataBefore dest).read r = (s.dataBefore e.tag).value s.cfg (instrAt s.program e.pc) := by
  obtain ⟨l, m, hlm⟩ := List.append_of_mem he
  have hp := hi.tagsRise
  simp only [State.TagsRise, hlm] at hp
  have hb : s.dataBefore e.tag = s.data.runAll s.cfg s.program l := by
    simp only [State.dataBefore, hlm]; rw [filter_before hp]
  obtain ⟨e', he', h1, hw⟩ := hy.entry
  have := rob_unique hi.tagsRise he' he h1
  subst this
  have hd : s.dataBefore dest = ((s.dataBefore e'.tag).run s.cfg (instrAt s.program e'.pc)).runAll s.cfg
      s.program (m.filter fun x => x.tag < dest) := by
    rw [hb, ← Data.runAll_cons, ← Data.runAll_append]
    simp only [State.dataBefore, hlm]
    congr 1
    have hl : ∀ a ∈ l, a.tag < dest := fun a ha =>
      Nat.lt_trans ((List.pairwise_append.1 hp).2.2 a ha e' List.mem_cons_self) hy.older
    rw [List.filter_append, List.filter_eq_self.2 (by simpa using hl), List.filter_cons]
    simp [hy.older]
  rw [hd, Data.runAll_read, Data.run_read, if_pos]
  · obtain ⟨-, ho, hdr⟩ := h.fetched e' he
    exact ⟨hdr.trans hw.1, hy.nonzero, by rw [ho]; exact hw.2⟩
  · intro a ha
    obtain ⟨ha, hx⟩ := List.mem_filter.1 ha
    simp only [decide_eq_true_eq] at hx
    rintro ⟨h1, -, h3⟩
    have har : a ∈ s.rob := by rw [hlm]; exact List.mem_append_right _ (List.mem_cons_of_mem _ ha)
    obtain ⟨-, ho, hdr⟩ := h.fetched a har
    have h4 := hy.last a har ⟨hdr ▸ h1, ho ▸ h3⟩ hx
    have h5 := (List.pairwise_cons.1 (List.pairwise_append.1 hp).2.1).1 a ha
    omega

/-- Memory as an instruction with no store before it sees it is the committed memory. -/
theorem State.DataInv.mem_committed (h : s.DataInv) {x : Nat}
    (hn : ∀ e ∈ s.rob, e.op = .sw → x ≤ e.tag) : (s.dataBefore x).mem = s.mem := by
  refine Data.runAll_mem _ _ _ _ fun e he => ?_
  obtain ⟨he, hx⟩ := List.mem_filter.1 he
  simp only [decide_eq_true_eq] at hx
  intro ho
  have := hn e he ((h.fetched e he).2.1 ▸ ho)
  omega

/-! ## The path -/

/-- The path does not depend on what Execute sets. -/
theorem OnPath.map {p : Program} {g : RobEntry → RobEntry} (hg : ∀ e, (g e).pc = e.pc ∧ (g e).pred = e.pred)
    {l : List RobEntry} {pc : Word} (h : OnPath p l pc) : OnPath p (l.map g) pc := by
  induction l with
  | nil => trivial
  | cons e l ih =>
    refine ⟨?_, ih h.2⟩
    rw [(hg e).1, (hg e).2, ← h.1]
    cases l with
    | nil => rfl
    | cons a l => exact (hg a).1

/-- An entry that joins the path at `pc` moves its end. -/
theorem OnPath.append {p : Program} {l : List RobEntry} {pc : Word} (h : OnPath p l pc) {e : RobEntry}
    (he : e.pc = pc) : OnPath p (l ++ [e]) (nextFetch (instrAt p e.pc) e.pred e.pc) := by
  induction l with
  | nil => exact ⟨rfl, trivial⟩
  | cons a l ih =>
    refine ⟨?_, ih h.2⟩
    rw [← h.1]
    cases l with
    | nil => exact he
    | cons b l => rfl

/-! ## Each part of a step -/

theorem State.DataInv.atStage (x : Stage) (h : s.DataInv) : (s.atStage x).DataInv :=
  ⟨h.1, h.2, h.3, h.4, h.5, h.6, h.7⟩

theorem State.DataInv.beginCycle (h : s.DataInv) : s.beginCycle.DataInv :=
  ⟨h.1, h.2, h.3, h.4, h.5, h.6, h.7⟩

theorem State.DataInv.endCycle (h : s.DataInv) : s.endCycle.DataInv :=
  ⟨h.1, h.2, h.3, h.4, h.5, h.6, h.7⟩

theorem State.DataInv.latchFault (f : Fault) (h : s.DataInv) : (s.latchFault f).DataInv :=
  ⟨h.1, h.2, h.3, h.4, h.5, h.6, h.7⟩

/-- A machine with nothing in flight. -/
theorem State.DataInv.empty (hr : s.rob = []) (hb : ∀ st ∈ s.stations, st.busy = false) : s.DataInv := by
  refine ⟨?_, ?_, ?_, ?_, ?_, ?_, ?_⟩
  · simp [hr]
  · intro st hst h; rw [hb st hst] at h; simp at h
  · rw [hr]; trivial
  · intro st hst h; rw [hb st hst] at h; simp at h
  · simp [hr]
  · simp [hr]
  · simp [hr]

/-! ### Execute -/

/-- Replacing a busy station by one of the same instruction whose slots are right. -/
theorem State.DataInv.setStation (h : s.DataInv) {p : PoolId} {k : Nat} {st st' : Station}
    (hs : s.station? p k = some st) (hb : st.busy = true) (hi : st'.instr = st.instr)
    (hj : SlotOk s.rob (s.dataBefore st'.dest) st'.instr.instr.slotJ st'.dest st'.vj st'.qj)
    (hk : SlotOk s.rob (s.dataBefore st'.dest) st'.instr.instr.slotK st'.dest st'.vk st'.qk) :
    (s.setStation p k st').DataInv := by
  obtain ⟨j, hj1, hj2⟩ := stations_setStation hs
  have hd : ∀ x, (s.setStation p k st').dataBefore x = s.dataBefore x := fun x => by
    simp [State.dataBefore, State.data]
  refine ⟨by simpa using h.fetched, ?_, by simpa using h.path, ?_, ?_, ?_, ?_⟩
  · intro x hx hxb
    rw [hj2] at hx
    rcases mem_set_cases hx with rfl | hx
    · rw [hi]; simpa using h.stationFetched st (station?_mem hs) hb
    · simpa using h.stationFetched x hx hxb
  · intro x hx hxb
    rw [hj2] at hx
    simp only [State.setStation_rob, hd]
    rcases mem_set_cases hx with rfl | hx
    · exact ⟨hj, hk⟩
    · exact h.slots x hx hxb
  · simpa [hd] using h.results
  · simpa [hd] using h.queue
  · simpa using h.unnamed

/-- A slot after a capture from the ROB. -/
theorem State.DataInv.captured (h : s.DataInv) (hi : s.CoreInv) {r : Reg} {dest : Nat} {v : Word}
    {q : Option Nat} (hs : SlotOk s.rob (s.dataBefore dest) r dest v q) :
    SlotOk s.rob (s.dataBefore dest) r dest (captureLive s.rob (v, q)).1 (captureLive s.rob (v, q)).2 := by
  rcases captureLive_cases s.rob v q with hc | ⟨x, e, rfl, hf, hr, hc⟩
  · rw [hc]; exact hs
  · rw [hc]
    obtain ⟨he, rfl⟩ := robFind_some hf
    exact ⟨fun _ => by rw [h.read_youngest hi he (hs.tag _ rfl), (h.results e he hr).1], by simp⟩

/-- The data do not depend on what Execute sets. -/
theorem State.dataBefore_congr {g : RobEntry → RobEntry} (hg : ∀ e, (g e).tag = e.tag ∧ (g e).pc = e.pc)
    (hr : t.rob = s.rob.map g) (hc : t.cfg = s.cfg) (hp : t.program = s.program) (ha : t.arf = s.arf)
    (hm : t.mem = s.mem) (x : Nat) : t.dataBefore x = s.dataBefore x := by
  have : t.data = s.data := by simp [State.data, ha, hm]
  simp only [State.dataBefore, this, hc, hp, hr]
  refine Data.runAll_congr _ _ _ ?_
  rw [List.filter_map, List.map_map]
  simp only [Function.comp_def, (hg _).1, (hg _).2]

/-- What Execute sets changes no writer. -/
theorem Youngest.map {g : RobEntry → RobEntry}
    (hg : ∀ e, (g e).tag = e.tag ∧ (g e).op = e.op ∧ (g e).rd = e.rd) {rob : List RobEntry} {r : Reg}
    {dest x : Nat} (h : Youngest rob r dest x) : Youngest (rob.map g) r dest x := by
  refine ⟨h.nonzero, h.older, ?_, ?_⟩
  · obtain ⟨e, he, h1, h2⟩ := h.entry
    exact ⟨g e, List.mem_map_of_mem he, (hg e).1.trans h1, (hg e).2.2.trans h2.1, by rw [(hg e).2.1]; exact h2.2⟩
  · intro e he hw hx
    obtain ⟨e', he', rfl⟩ := List.mem_map.1 he
    rw [(hg e').1] at hx ⊢
    exact h.last e' he' ⟨(hg e').2.2 ▸ hw.1, (hg e').2.1 ▸ hw.2⟩ hx

theorem SlotOk.map {g : RobEntry → RobEntry}
    (hg : ∀ e, (g e).tag = e.tag ∧ (g e).op = e.op ∧ (g e).rd = e.rd) {rob : List RobEntry} {d : Data}
    {r : Reg} {dest : Nat} {v : Word} {q : Option Nat} (h : SlotOk rob d r dest v q) :
    SlotOk (rob.map g) d r dest v q :=
  ⟨h.value, fun x hx => (h.tag x hx).map hg⟩

/-- The completion of a busy station's instruction: its entry takes its result, its LSQ entry its address
and data, and the station is freed. -/
theorem State.DataInv.complete (h : s.DataInv) (hi : s.CoreInv) {p : PoolId} {k : Nat} {st : Station}
    (hs : s.station? p k = some st) (hb : st.busy = true) {f : RobEntry → RobEntry}
    (hf : ∀ e, (f e).tag = e.tag ∧ (f e).op = e.op ∧ (f e).rd = e.rd ∧ (f e).pc = e.pc ∧ (f e).pred = e.pred)
    (hres : ∀ e, (f e).result = (s.dataBefore st.dest).value s.cfg st.instr.instr ∧
      (st.instr.op.isCondBranch = true → (f e).target =
        nextFetch st.instr.instr ((s.dataBefore st.dest).taken st.instr.instr) st.instr.pc))
    {g : LsqEntry → LsqEntry} (hg : ∀ q, (g q).tag = q.tag)
    (hq : st.instr.op.isMem = true → ∀ q, (g q).addr = some ((s.dataBefore st.dest).ea st.instr.instr) ∧
      (st.instr.op = .sw → (g q).data = some ((s.dataBefore st.dest).read st.instr.instr.slotK)))
    (hrob : t.rob = robUpdate st.dest f s.rob) (hlsq : t.lsq = lsqUpdate st.dest g s.lsq)
    (hst : t.stations = (s.setStation p k { st with busy := false }).stations) (hc : t.cfg = s.cfg)
    (hp : t.program = s.program) (ha : t.arf = s.arf) (hm : t.mem = s.mem) (hpc : t.pc = s.pc)
    (hrat : t.rat = s.rat) : t.DataInv := by
  obtain ⟨j, hj1, hj2⟩ := stations_setStation hs
  have hg' : ∀ e : RobEntry, (if e.tag = st.dest then f e else e).tag = e.tag ∧
      (if e.tag = st.dest then f e else e).op = e.op ∧ (if e.tag = st.dest then f e else e).rd = e.rd ∧
      (if e.tag = st.dest then f e else e).pc = e.pc ∧ (if e.tag = st.dest then f e else e).pred = e.pred := by
    intro e; split
    · exact hf e
    · exact ⟨rfl, rfl, rfl, rfl, rfl⟩
  have hd : ∀ x, t.dataBefore x = s.dataBefore x :=
    State.dataBefore_congr (fun e => ⟨(hg' e).1, (hg' e).2.2.2.1⟩) hrob hc hp ha hm
  obtain ⟨e0, he0, h1, -, h3, h4, h5⟩ := hi.stationsLive st (station?_mem hs) hb
  have hin : instrAt s.program e0.pc = st.instr.instr := by
    rw [h5]; exact h.stationFetched st (station?_mem hs) hb
  have huniq : ∀ e ∈ s.rob, e.tag = st.dest → e = e0 := fun e he hx =>
    rob_unique hi.tagsRise he he0 (hx.trans h1.symm)
  refine ⟨?_, ?_, ?_, ?_, ?_, ?_, ?_⟩
  · intro e he
    rw [hrob] at he
    obtain ⟨e', he', rfl⟩ := mem_robUpdate.1 he
    obtain ⟨a, b, c, d, -⟩ := hg' e'
    rw [hp, d, b, c]; exact h.fetched e' he'
  · intro x hx hxb
    rw [hst, hj2] at hx
    rw [hp]
    rcases mem_set_cases hx with rfl | hx
    · simp at hxb
    · exact h.stationFetched x hx hxb
  · rw [hp, hpc, hrob]; exact h.path.map fun e => ⟨(hg' e).2.2.2.1, (hg' e).2.2.2.2⟩
  · intro x hx hxb
    rw [hst, hj2] at hx
    rcases mem_set_cases hx with rfl | hx
    · simp at hxb
    · rw [hd, hrob]
      obtain ⟨s1, s2⟩ := h.slots x hx hxb
      exact ⟨s1.map fun e => ⟨(hg' e).1, (hg' e).2.1, (hg' e).2.2.1⟩,
        s2.map fun e => ⟨(hg' e).1, (hg' e).2.1, (hg' e).2.2.1⟩⟩
  · intro e he
    rw [hrob] at he
    obtain ⟨e', he', rfl⟩ := mem_robUpdate.1 he
    rw [hp, hc]
    split
    · rename_i hx
      have := huniq e' he' hx
      subst this
      obtain ⟨a, b, c, d, -⟩ := hf e'
      intro _
      rw [a, d, b, hd, hin, hx, h3, h5]
      exact hres e'
    · rw [hd]; exact h.results e' he'
  · intro q hq1 e he hx hmr
    rw [hrob] at he
    obtain ⟨e', he', rfl⟩ := mem_robUpdate.1 he
    rw [hlsq] at hq1
    obtain ⟨q', hq', rfl⟩ := mem_lsqUpdate.1 hq1
    obtain ⟨a, b, c, d, -⟩ := hg' e'
    have hqt : (if q'.tag = st.dest then g q' else q').tag = q'.tag := by
      split
      · exact hg q'
      · rfl
    rw [hqt, a] at hx
    rw [a, b, d, hd, hp]
    by_cases hxd : e'.tag = st.dest
    · have := huniq e' he' hxd
      subst this
      have hmem : st.instr.op.isMem = true := by
        have hin' : (q'.tag, some q'.kind) ∈ s.lsq.map fun q => (q.tag, some q.kind) := List.mem_map.2 ⟨q', hq', rfl⟩
        rw [hi.lsqMatchesRob] at hin'
        obtain ⟨y, hy, hye⟩ := List.mem_map.1 hin'
        simp only [List.mem_filter, Prod.mk.injEq] at hy hye
        rw [← h3, ← rob_unique hi.tagsRise hy.1 he' (hye.1.trans hx.symm)]
        exact hy.2
      rw [hin, hxd, if_pos (hx.symm.trans hxd), h3]
      exact hq hmem q'
    · rw [if_neg (fun hh => hxd (hx.trans hh))] at hmr ⊢
      exact h.queue q' hq' e' he' hx hmr
  · intro r h0 hr e he
    rw [hrob] at he
    obtain ⟨e', he', rfl⟩ := mem_robUpdate.1 he
    rw [hrat] at hr
    rintro ⟨w1, w2⟩
    exact h.unnamed r h0 hr e' he' ⟨(hg' e').2.2.1 ▸ w1, (hg' e').2.1 ▸ w2⟩

/-- In the LSQ an entry with a smaller tag stands in front. -/
theorem mem_takeWhile_tag {l : List LsqEntry} (hl : l.Pairwise fun a b => a.tag < b.tag) {q : LsqEntry}
    (hq : q ∈ l) {x : Nat} (hx : q.tag < x) : q ∈ l.takeWhile fun q => q.tag != x := by
  induction l with
  | nil => simp at hq
  | cons a l ih =>
    obtain ⟨h1, h2⟩ := List.pairwise_cons.1 hl
    rw [List.takeWhile_cons]
    rcases List.mem_cons.1 hq with rfl | hq
    · have : (q.tag != x) = true := by simp; omega
      simp [this]
    · have := h1 q hq
      have : (a.tag != x) = true := by simp; omega
      simp [this, ih h2 hq]

/-- The tags in the LSQ rise. -/
theorem State.CoreInv.lsqRises (hi : s.CoreInv) : s.lsq.Pairwise fun a b => a.tag < b.tag := by
  have h1 : (s.lsq.map (·.tag)).Pairwise (· < ·) := by
    have : s.lsq.map (·.tag) = (s.lsq.map fun q => (q.tag, some q.kind)).map (·.1) := by simp
    rw [this, hi.lsqMatchesRob, List.map_map, List.pairwise_map]
    exact hi.tagsRise.filter _
  rwa [List.pairwise_map] at h1

/-- A load whose gate is open has no store before it in the ROB (R80). -/
theorem State.CoreInv.no_older_store (hi : s.CoreInv) (hc : s.cfg.loadGate = .olderStores) {x : Nat}
    (hg : s.loadGateOpen x = true) : ∀ e ∈ s.rob, e.op = .sw → x ≤ e.tag := by
  intro e he ho
  by_contra hx
  have hin : (e.tag, some LsqKind.store) ∈ (s.rob.filter fun e => e.op.isMem).map fun e => (e.tag, e.op.lsqKind) :=
    List.mem_map.2 ⟨e, List.mem_filter.2 ⟨he, by rw [ho]; rfl⟩, by rw [ho]; rfl⟩
  rw [← hi.lsqMatchesRob] at hin
  obtain ⟨q, hq, hqe⟩ := List.mem_map.1 hin
  simp only [Prod.mk.injEq, Option.some.injEq] at hqe
  have := mem_takeWhile_tag hi.lsqRises hq (x := x) (by omega)
  have ho : olderStore x s.lsq = true := by
    simp only [olderStore, List.any_eq_true]; exact ⟨q, this, by simp [hqe.2]⟩
  simp [State.loadGateOpen, hc, ho] at hg

/-- A completion keeps what the queues hold. -/
theorem State.DataInv.completed (h : s.DataInv) (hi : s.CoreInv) (hgate : s.cfg.loadGate = .olderStores)
    {p : PoolId} {k : Nat} {st : Station} (hs : s.station? p k = some st) (hb : st.busy = true)
    (hw : st.wakeable = true) (hr : st.rem = 0) (hc : Completed st.instr.instr p k st s t) : t.DataInv := by
  have hst : ∀ u : State, u.alu = s.alu → u.ls = s.ls →
      (u.freeStationAt p k st).stations = (s.setStation p k { st with busy := false }).stations := by
    intro u h1 h2
    cases p <;> simp [State.freeStationAt, State.stations, State.setStation, State.pool, h1, h2]
  simp only [Station.wakeable, Bool.and_eq_true, Option.isNone_iff_eq_none] at hw
  obtain ⟨s1, s2⟩ := h.slots st (station?_mem hs) hb
  have vj := s1.value hw.1
  have vk := s2.value hw.2
  have hea : st.instr.op.isMem = true → st.ea = some ((s.dataBefore st.dest).ea st.instr.instr) := fun hm => by
    rw [ready_ea (hi.countdownOk st (station?_mem hs) hb) hr hm, Data.ea, immOf_instr hm, vj]
  have hval : st.instr.op ≠ .lw → (s.dataBefore st.dest).value s.cfg st.instr.instr =
      resultOf st.instr.instr st.vj st.vk := fun hne => by
    rw [Data.value, if_neg (by rw [Record.instr_op]; exact hne), vj, vk]
  cases hc with
  | plain hm hbr =>
    rw [Record.instr_op] at hm hbr
    refine h.complete hi hs hb
      (f := fun e => { e with result := resultOf st.instr.instr st.vj st.vk, ready := true })
      (fun e => ⟨rfl, rfl, rfl, rfl, rfl⟩)
      (fun e => ⟨(hval (by rintro ho; rw [ho] at hm; simp [Op.isMem, Op.lsqKind] at hm)).symm, by simp [hbr]⟩)
      (g := id) (fun q => rfl) (by simp [hm])
      (by simp) (by simp [lsqUpdate]) (hst _ (by simp) (by simp)) (by simp) (by simp) (by simp) (by simp)
      (by simp) (by simp)
  | branch hbr =>
    rw [Record.instr_op] at hbr
    have hm : st.instr.op.isMem = false := by
      revert hbr; cases st.instr.op <;> simp [Op.isCondBranch, Op.isMem, Op.lsqKind]
    refine h.complete hi hs hb
      (f := fun e => { e with
        target := nextFetch st.instr.instr (takenOf st.instr.instr st.vj st.vk) st.instr.pc
        result := resultOf st.instr.instr st.vj st.vk, ready := true })
      (fun e => ⟨rfl, rfl, rfl, rfl, rfl⟩)
      (fun e => ⟨(hval (by rintro ho; rw [ho] at hm; simp [Op.isMem, Op.lsqKind] at hm)).symm,
        fun _ => by rw [Data.taken, vj, vk]⟩)
      (g := id) (fun q => rfl) (by simp [hm])
      (by simp only [State.freeStationAt_rob, State.broadcast_rob]
          rw [robUpdate_robUpdate _ _ _ (by intro e; rfl)]) (by simp [lsqUpdate])
      (hst _ (by simp) (by simp)) (by simp) (by simp) (by simp) (by simp)
      (by simp) (by simp)
  | load ho ea he hg =>
    rw [Record.instr_op] at ho
    have hm : st.instr.op.isMem = true := by rw [ho]; rfl
    have hea' : (s.dataBefore st.dest).ea st.instr.instr = ea := by
      have := hea hm; rw [he] at this; exact (Option.some.inj this).symm
    refine h.complete hi hs hb
      (f := fun e => { e with result := s.memRead ea, ready := true })
      (fun e => ⟨rfl, rfl, rfl, rfl, rfl⟩)
      (fun e => ⟨by
        rw [Data.value, if_pos (by rw [Record.instr_op]; exact ho), hea',
          h.mem_committed (hi.no_older_store hgate hg)]; rfl, by simp [ho, Op.isCondBranch]⟩)
      (g := fun q => { q with addr := some ea, memReady := true }) (fun q => rfl)
      (fun _ q => ⟨by rw [hea'], by simp [ho]⟩)
      (by simp) (by simp) (hst _ (by simp) (by simp)) (by simp) (by simp) (by simp) (by simp)
      (by simp) (by simp)
  | store ho ea he =>
    rw [Record.instr_op] at ho
    have hm : st.instr.op.isMem = true := by rw [ho]; rfl
    have hea' : (s.dataBefore st.dest).ea st.instr.instr = ea := by
      have := hea hm; rw [he] at this; exact (Option.some.inj this).symm
    refine h.complete hi hs hb
      (f := fun e => { e with result := st.vk, ready := true })
      (fun e => ⟨rfl, rfl, rfl, rfl, rfl⟩)
      (fun e => ⟨by
        rw [hval (by simp [ho])]
        have : st.instr.instr.op = .sw := by rw [Record.instr_op]; exact ho
        revert this; cases st.instr.instr <;> simp [Instr.op, resultOf], by simp [ho, Op.isCondBranch]⟩)
      (g := fun q => { q with addr := some ea, data := some st.vk, memReady := true }) (fun q => rfl)
      (fun _ q => ⟨by rw [hea'], fun _ => by rw [vk]⟩)
      (by simp) (by simp) (hst _ (by simp) (by simp)) (by simp) (by simp) (by simp) (by simp)
      (by simp) (by simp)
  | stay => exact h

/-- A visit keeps what the queues hold. -/
theorem State.DataInv.visited (h : s.DataInv) (hi : s.CoreInv) (hgate : s.cfg.loadGate = .olderStores)
    {p : PoolId} {k : Nat} (hv : Visited p k s t) : t.DataInv := by
  cases hv with
  | skip => exact h
  | wait st hs hb hw =>
    obtain ⟨s1, s2⟩ := h.slots st (station?_mem hs) hb
    exact h.setStation hs hb rfl (h.captured hi s1) (h.captured hi s2)
  | count st hs hb hw hr =>
    obtain ⟨s1, s2⟩ := h.slots st (station?_mem hs) hb
    exact h.setStation hs hb (by simp) (by simpa [Station.captureFrom] using h.captured hi s1) (by simpa [Station.captureFrom] using h.captured hi s2)
  | complete st _ hs hb hw hr hc =>
    obtain ⟨s1, s2⟩ := h.slots st (station?_mem hs) hb
    have h1 := h.setStation hs hb (st' := (st.captureFrom s.rob).countdown) (by simp)
      (by simpa [Station.captureFrom] using h.captured hi s1) (by simpa [Station.captureFrom] using h.captured hi s2)
    have h2 : ((s.setStation p k (st.captureFrom s.rob).countdown).atStage (.execute p k)).CoreInv := by
      obtain ⟨hj, hk⟩ := st.captureFrom_tags s.rob
      exact (hi.setStation hs hb (st' := (st.captureFrom s.rob).countdown) (by simpa using hb) (by simp)
        (by simp) (by simpa using hj) (by simpa using hk)
        (countdownOk_count hw (countdownOk_capture s.rob (hi.countdownOk st (station?_mem hs) hb)))).atStage _
    refine (h1.atStage (.execute p k)).completed h2 (by simpa using hgate)
      (st := (st.captureFrom s.rob).countdown)
      (State.station?_setStation_self s p k _ st hs) (by simpa using hb) ?_ hr (by simpa using hc)
    simpa [Station.wakeable] using hw

end Sys2Proof.Machine
end

