-- ==== Sys2Proof/Laws/Frames.lean ====
section
/-! SUPPORT. Frames: what each stage leaves alone, and how far it can move the queues and counters. -/

namespace Sys2Proof.Machine

/-! ## Execute -/

/-- What the Execute stage leaves alone: everything but stations, L1D, `stage`, and the results and
resolutions in the queues. -/
structure ExecuteFrame (s t : State) : Prop where
  cfg : t.cfg = s.cfg
  program : t.program = s.program
  arf : t.arf = s.arf
  rat : t.rat = s.rat
  pc : t.pc = s.pc
  nextTag : t.nextTag = s.nextTag
  l1i : t.l1i = s.l1i
  bp : t.bp = s.bp
  mem : t.mem = s.mem
  counters : t.counters = s.counters
  fault : t.fault = s.fault
  log : t.log = s.log
  rob : t.rob.map RobEntry.identity = s.rob.map RobEntry.identity
  lsq : t.lsq.map (fun q => (q.tag, q.kind)) = s.lsq.map (fun q => (q.tag, q.kind))

theorem ExecuteFrame.refl (s : State) : ExecuteFrame s s :=
  ⟨rfl, rfl, rfl, rfl, rfl, rfl, rfl, rfl, rfl, rfl, rfl, rfl, rfl, rfl⟩

theorem ExecuteFrame.trans {s t u : State} (h : ExecuteFrame s t) (k : ExecuteFrame t u) : ExecuteFrame s u :=
  ⟨k.1.trans h.1, k.2.trans h.2, k.3.trans h.3, k.4.trans h.4, k.5.trans h.5, k.6.trans h.6, k.7.trans h.7,
    k.8.trans h.8, k.9.trans h.9, k.10.trans h.10, k.11.trans h.11, k.12.trans h.12, k.13.trans h.13,
    k.14.trans h.14⟩

/-- Replacing a station is inside the frame. -/
theorem ExecuteFrame.setStation (s : State) (p : PoolId) (k : Nat) (st : Station) :
    ExecuteFrame s (s.setStation p k st) := by
  cases p <;>
    exact ⟨rfl, rfl, rfl, rfl, rfl, rfl, rfl, rfl, rfl, rfl, rfl, rfl, rfl, rfl⟩

/-- A completion is inside the frame. -/
theorem Completed.frame {i : Instr} {p : PoolId} {k : Nat} {st : Station} {s t : State}
    (h : Completed i p k st s t) : ExecuteFrame s t := by
  have hid : ∀ (f : RobEntry → RobEntry), (∀ e, (f e).identity = e.identity) →
      ∀ rob, (robUpdate st.dest f rob).map RobEntry.identity = rob.map RobEntry.identity :=
    fun f hf rob => robUpdate_map _ hf _ rob
  have hlq : ∀ (f : LsqEntry → LsqEntry), (∀ q, ((f q).tag, (f q).kind) = (q.tag, q.kind)) →
      ∀ lsq, (lsqUpdate st.dest f lsq).map (fun q => (q.tag, q.kind)) = lsq.map (fun q => (q.tag, q.kind)) :=
    fun f hf lsq => lsqUpdate_map (fun q : LsqEntry => (q.tag, q.kind)) hf _ lsq
  cases h with
  | stay => exact .refl s
  | plain =>
    unfold State.freeStationAt
    refine .trans ?_ (.setStation _ p k _)
    exact ⟨rfl, rfl, rfl, rfl, rfl, rfl, rfl, rfl, rfl, rfl, rfl, rfl, by rw [State.broadcast_rob, hid _ (by intro e; rfl)],
      rfl⟩
  | branch =>
    unfold State.freeStationAt
    refine .trans ?_ (.setStation _ p k _)
    exact ⟨rfl, rfl, rfl, rfl, rfl, rfl, rfl, rfl, rfl, rfl, rfl, rfl, by rw [State.broadcast_rob, hid _ (by intro e; rfl), hid _ (by intro e; rfl)],
      rfl⟩
  | load =>
    unfold State.freeStationAt
    refine .trans ?_ (.setStation _ p k _)
    exact ⟨rfl, rfl, rfl, rfl, rfl, rfl, rfl, rfl, rfl, rfl, rfl, rfl, by rw [State.broadcast_rob, hid _ (by intro e; rfl)]; rfl,
      by rw [State.broadcast_lsq, hlq _ (by intro e; rfl)]⟩
  | store =>
    unfold State.freeStationAt
    refine .trans ?_ (.setStation _ p k _)
    exact ⟨rfl, rfl, rfl, rfl, rfl, rfl, rfl, rfl, rfl, rfl, rfl, rfl, by rw [State.broadcast_rob, hid _ (by intro e; rfl)],
      by rw [State.broadcast_lsq, hlq _ (by intro e; rfl)]⟩

/-- A visit is inside the frame. -/
theorem Visited.frame {p : PoolId} {k : Nat} {s t : State} (h : Visited p k s t) : ExecuteFrame s t := by
  cases h with
  | skip => exact .refl s
  | wait => exact .setStation s p k _
  | count => exact .setStation s p k _
  | complete st _ hs hb hw hr hc =>
    refine .trans (.setStation s p k (st.captureFrom s.rob).countdown) (.trans ?_ hc.frame)
    exact ⟨rfl, rfl, rfl, rfl, rfl, rfl, rfl, rfl, rfl, rfl, rfl, rfl, rfl, rfl⟩

/-- A scan is inside the frame. -/
theorem Scanned.frame {l : List (PoolId × Nat)} {s t : State} (h : Scanned l s t) : ExecuteFrame s t :=
  h.keeps (P := ExecuteFrame s) (fun _ _ _ _ h hv => h.trans hv.frame) (.refl s)

/-! ## Commit -/

/-- How far the Commit stage moves the ROB and the counters. -/
theorem Committed.queue {n : Nat} {s t : State} {b : Bool} (c : Committed n s t b) :
    ∃ m, m ≤ n ∧ t.counters.committed = s.counters.committed + m ∧
      ((t.counters.flushes = s.counters.flushes ∧ t.rob = s.rob.drop m) ∨
       (b = true ∧ t.counters.flushes = s.counters.flushes + 1 ∧ t.rob = [])) := by
  induction c with
  | zero | empty | notReady | stall => exact ⟨0, by simp⟩
  | abort n s t h tl hr hd ha => cases ha <;> exact ⟨0, by simp⟩
  | retire n s u t b h tl hr hd hu _ ih =>
    obtain ⟨h1, h2, -, h4⟩ := hu.counts
    simp only [State.atStage_counters, State.atStage_rob] at h1 h2 h4
    obtain ⟨m, i0, i1, i3⟩ := ih
    refine ⟨m + 1, by omega, by omega, ?_⟩
    rcases i3 with ⟨k1, k2⟩ | ⟨k1, k2, k3⟩
    · exact .inl ⟨by omega, by rw [k2, h4, List.drop_tail]⟩
    · exact .inr ⟨k1, by omega, k3⟩

/-- A Commit stage makes at most its number of attempts, and an abort is a fault or a flush (R269, R270). -/
theorem Committed.attempts {n : Nat} {s t : State} {b : Bool} (c : Committed n s t b) :
    t.counters.committed + t.counters.flushes ≤ s.counters.committed + s.counters.flushes + n ∧
      (b = true → t.fault ≠ none ∨ t.counters.flushes = s.counters.flushes + 1) := by
  induction c with
  | zero | empty | notReady | stall => simp
  | abort n s t h tl hr hd ha => cases ha <;> simp; omega
  | retire n s u t b h tl hr hd hu hc ih =>
    obtain ⟨h1, h2, -, -⟩ := hu.counts
    simp only [State.atStage_counters] at h1 h2
    exact ⟨by omega, fun hb => by rw [← h2]; exact ih.2 hb⟩

/-- What the Commit stage leaves alone. -/
theorem Committed.frame {n : Nat} {s t : State} {b : Bool} (c : Committed n s t b) :
    t.cfg = s.cfg ∧ t.program = s.program ∧ t.nextTag = s.nextTag ∧ t.l1i = s.l1i ∧
      t.counters.cycle = s.counters.cycle ∧ t.counters.occRob = s.counters.occRob ∧
      t.counters.occAlu = s.counters.occAlu ∧ t.counters.occLs = s.counters.occLs ∧
      t.counters.occLsq = s.counters.occLsq ∧ (b = false → t.fault = s.fault ∧ t.pc = s.pc ∧ t.log = s.log) := by
  induction c with
  | zero | empty | notReady | stall => simp
  | abort n s t h tl hr hd ha => cases ha <;> simp
  | retire n s u t b h tl hr hd hu _ ih =>
    have hf : u.cfg = s.cfg ∧ u.program = s.program ∧ u.nextTag = s.nextTag ∧ u.l1i = s.l1i ∧
        u.counters.cycle = s.counters.cycle ∧ u.counters.occRob = s.counters.occRob ∧
        u.counters.occAlu = s.counters.occAlu ∧ u.counters.occLs = s.counters.occLs ∧
        u.counters.occLsq = s.counters.occLsq ∧ u.fault = s.fault ∧ u.pc = s.pc ∧ u.log = s.log := by
      cases hu <;> simp
    obtain ⟨f1, f2, f3, f4, f5, f6, f7, f8, f9, f10, f11, f12⟩ := hf
    obtain ⟨i1, i2, i3, i4, i5, i6, i7, i8, i9, i10⟩ := ih
    refine ⟨i1.trans f1, i2.trans f2, i3.trans f3, i4.trans f4, i5.trans f5, i6.trans f6, i7.trans f7,
      i8.trans f8, i9.trans f9, fun hb => ?_⟩
    obtain ⟨k1, k2, k3⟩ := i10 hb
    exact ⟨k1.trans f10, k2.trans f11, k3.trans f12⟩

/-- The Commit stage changes a piece `f` of the state only through the entries it retires and the one it
flushes at: where no retired one satisfies `Q`, and the one flushed at not `F`, `f` stays. -/
theorem Committed.unchanged {α : Type} (f : State → α) (Q F : RobEntry → Prop)
    (hst : ∀ s x, f (s.atStage x) = f s)
    (hab : ∀ h u v, Aborts h u v → f v = f u ∨ (v.counters.flushes = u.counters.flushes + 1 ∧ F h))
    (hre : ∀ h u v, Retires h u v → f v = f u ∨ Q h) {n : Nat} {s t : State} {b : Bool}
    (c : Committed n s t b) (hq : ∀ e ∈ s.rob.take (t.counters.committed - s.counters.committed), ¬ Q e)
    (hf : ∀ e ∈ s.rob.take (t.counters.committed - s.counters.committed +
      (t.counters.flushes - s.counters.flushes)), ¬ F e) : f t = f s := by
  induction c with
  | zero | empty | notReady => rfl
  | stall n s => exact hst s _
  | abort n s t h tl hr hd ha =>
    rcases hab _ _ _ ha with he | ⟨hfl, hF⟩
    · rw [he]; exact hst s _
    · refine absurd hF (hf h ?_)
      simp only [State.atStage_counters] at hfl
      rw [hr, show t.counters.committed - s.counters.committed + (t.counters.flushes - s.counters.flushes) =
        (t.counters.committed - s.counters.committed) + 1 by omega, List.take_succ_cons]
      exact List.mem_cons_self
  | retire n s u t b h tl hr hd hu hc ih =>
    obtain ⟨h1, h2, -, h4⟩ := hu.counts
    simp only [State.atStage_counters, State.atStage_rob, hr, List.tail_cons] at h1 h2 h4
    obtain ⟨m, -, hm, -⟩ := hc.queue
    have hd : t.counters.committed - s.counters.committed =
        (t.counters.committed - u.counters.committed) + 1 := by omega
    rw [hr, hd, List.take_succ_cons] at hq
    rw [hr, hd, ← h2, Nat.add_right_comm, List.take_succ_cons] at hf
    rw [ih (fun e he => hq e (List.mem_cons_of_mem _ (h4 ▸ he)))
      (fun e he => hf e (List.mem_cons_of_mem _ (h4 ▸ he)))]
    rcases hre _ _ _ hu with he | hQ
    · rw [he]; exact hst s _
    · exact absurd hQ (hq h List.mem_cons_self)

/-- The entries the Commit stage retires were ready, and so was the conditional branch it flushed at. -/
theorem Committed.ready {n : Nat} {s t : State} {b : Bool} (c : Committed n s t b) :
    (∀ e ∈ s.rob.take (t.counters.committed - s.counters.committed), e.ready = true) ∧
    (t.counters.flushes ≠ s.counters.flushes →
      ∃ e, s.rob[t.counters.committed - s.counters.committed]? = some e ∧ e.ready = true ∧
        e.op.isCondBranch = true ∧ e.pred ≠ decide (e.result = 1)) := by
  induction c with
  | zero | empty | notReady | stall => simp
  | abort n s t h tl hr hd ha =>
    cases ha with
    | fault => simp
    | flush hb hp => simp [hr, hd, hb]; exact Ne.symm hp
  | retire n s u t b h tl hr hd hu hc ih =>
    obtain ⟨h1, h2, -, h4⟩ := hu.counts
    simp only [State.atStage_counters, State.atStage_rob, hr, List.tail_cons] at h1 h2 h4
    obtain ⟨m, -, hm, -⟩ := hc.queue
    rw [hr, show t.counters.committed - s.counters.committed =
      (t.counters.committed - u.counters.committed) + 1 by omega, List.take_succ_cons, ← h2]
    rw [h4] at ih
    refine ⟨fun e he => ?_, by simpa using ih.2⟩
    rcases List.mem_cons.1 he with rfl | he
    · exact hd
    · exact ih.1 e he

/-- The Commit stage retires no mispredicted branch, and fetch goes on at the target of the one it flushes
at (R263, R272). -/
theorem Committed.predicted {n : Nat} {s t : State} {b : Bool} (c : Committed n s t b) :
    (∀ e ∈ s.rob.take (t.counters.committed - s.counters.committed), e.op.isCondBranch = true →
      e.pred = decide (e.result = 1)) ∧
    (t.counters.flushes ≠ s.counters.flushes →
      ∀ e, s.rob[t.counters.committed - s.counters.committed]? = some e → t.pc = e.target) := by
  induction c with
  | zero | empty | notReady | stall => simp
  | abort n s t h tl hr hd ha =>
    cases ha with
    | fault => simp
    | flush hb hp => simp [hr]
  | retire n s u t b h tl hr hd hu hc ih =>
    obtain ⟨h1, h2, -, h4⟩ := hu.counts
    simp only [State.atStage_counters, State.atStage_rob, hr, List.tail_cons] at h1 h2 h4
    obtain ⟨m, -, hm, -⟩ := hc.queue
    rw [hr, show t.counters.committed - s.counters.committed =
      (t.counters.committed - u.counters.committed) + 1 by omega, List.take_succ_cons, ← h2]
    rw [h4] at ih
    refine ⟨fun e he hb => ?_, by simpa using ih.2⟩
    rcases List.mem_cons.1 he with rfl | he
    · cases hu with
      | branch _ hp => exact hp.symm
      | writing hw => revert hw hb; cases e.op <;> simp [Op.writesReg, Op.isCondBranch]
      | load ho | store ho => rw [ho] at hb; simp [Op.isCondBranch] at hb
      | plain _ _ hx => rw [hb] at hx; cases hx
    · exact ih.1 e he hb

/-- Where the Commit stage ends (R261, R262, R269): before it has made all its attempts without an abort,
at an empty ROB, a head that is not ready or a memory check that fails; with a fault, at a load or store
with that bad address. The LSQ has lost one entry for each load or store retired. -/
theorem Committed.stops {n : Nat} {s t : State} {b : Bool} (c : Committed n s t b) (hf : s.fault = none)
    {m : Nat} (hm : t.counters.committed = s.counters.committed + m) {q : List LsqEntry}
    (hq : q = s.lsq.drop ((s.rob.take m).countP (·.op.isMem))) :
    (t.fault = none → m < n → t.counters.flushes = s.counters.flushes →
      s.rob[m]? = none ∨ ∃ e, s.rob[m]? = some e ∧ (e.ready = false ∨ (e.op.isMem = true ∧
        (memoryHead e q = none ∨ ∃ l a, memoryHead e q = some (l, a) ∧ e.op = .sw ∧ l.data = none)))) ∧
    ∀ f, t.fault = some f → ∃ e l a, s.rob[m]? = some e ∧ e.ready = true ∧ e.op.isMem = true ∧
      memoryHead e q = some (l, a) ∧ addressFault s.cfg e.pc a = some f := by
  induction c generalizing m with
  | zero => simp [hf]
  | empty n s hr => simp [hf, hr]
  | notReady n s h tl hr hd =>
    obtain rfl : m = 0 := by omega
    exact ⟨fun _ _ _ => .inr ⟨h, by simp [hr], .inl hd⟩, by simp [hf]⟩
  | stall n s h tl hr hd hs =>
    simp only [State.atStage_counters] at hm
    obtain rfl : m = 0 := by omega
    subst hq
    exact ⟨fun _ _ _ => .inr ⟨h, by simp [hr], .inr ⟨hs.1, by simpa using hs.2⟩⟩, by simp [hf]⟩
  | abort n s t h tl hr hd ha =>
    cases ha with
    | fault hmm l a hl f hx =>
      simp at hm
      subst hm hq
      exact ⟨by simp, fun g hg => ⟨h, l, a, by simp [hr], hd, hmm, by simpa using hl, by simp at hg hx; rw [hx, hg]⟩⟩
    | flush hb hp => simp [hf]
  | retire n s u t b h tl hr hd hu hc ih =>
    obtain ⟨h1, h2, h3, h4⟩ := hu.counts
    have h5 := hu.lsq
    simp only [State.atStage_counters, State.atStage_rob, State.atStage_fault, State.atStage_lsq, hr,
      List.tail_cons] at h1 h2 h3 h4 h5
    have hcfg : u.cfg = s.cfg := by cases hu <;> simp
    obtain ⟨k, -, hk, -⟩ := hc.queue
    obtain rfl : m = k + 1 := by omega
    have hq' : q = u.lsq.drop ((u.rob.take k).countP (·.op.isMem)) := by
      rw [hq, hr, List.take_succ_cons, List.countP_cons, h4, h5]
      cases h.op.isMem <;> simp
    have ih := ih (h3.trans hf) hk hq'
    rw [h4, h2, hcfg] at ih
    rw [hr]
    exact ⟨fun a b c => by simpa using ih.1 a (by omega) c, fun f hf' => by simpa using ih.2 f hf'⟩

/-! ## Issue -/

/-- Where the Issue stage ends before it has made all its attempts: a stop test holds of the state it
answers (R201, R202). -/
theorem Issued.stops {n : Nat} {s t : State} (c : Issued n s t) (h : t.nextTag < s.nextTag + n) :
    t.nextIssue = none := by
  induction c with
  | zero => omega
  | stop n s hn => exact hn
  | issue n s t i k hi _ ih => exact ih (by simp; omega)

/-- What the Issue stage leaves alone, and what it appends. -/
theorem Issued.frame {n : Nat} {s t : State} (c : Issued n s t) :
    t.cfg = s.cfg ∧ t.program = s.program ∧ t.arf = s.arf ∧ t.mem = s.mem ∧ t.bp = s.bp ∧ t.l1d = s.l1d ∧
      t.counters = s.counters ∧ t.fault = s.fault ∧ t.log = s.log ∧
      ∃ new : List RobEntry, new.length ≤ n ∧ t.rob = s.rob ++ new ∧ t.nextTag = s.nextTag + new.length ∧
        new.map (·.tag) = (List.range new.length).map (s.nextTag + ·) := by
  induction c with
  | zero => exact ⟨rfl, rfl, rfl, rfl, rfl, rfl, rfl, rfl, rfl, [], by simp⟩
  | stop => exact ⟨rfl, rfl, rfl, rfl, rfl, rfl, rfl, rfl, rfl, [], by simp⟩
  | issue n s t i k h _ ih =>
    obtain ⟨h1, h2, h3, h4, h5, h6, h7, h8, h9, new, n1, n2, n3, n4⟩ := ih
    refine ⟨by simpa using h1, by simpa using h2, by simpa using h3, by simpa using h4, by simpa using h5,
      by simpa using h6, by simpa using h7, by simpa using h8, by simpa using h9,
      (s.issuedEntry i (predicted i s)) :: new, by simp; omega, ?_, by simp at n3 ⊢; omega, ?_⟩
    · rw [n2]; simp [State.issuedEntry]
    · simp only [List.map_cons, n4, List.length_cons, List.range_succ_eq_map, List.map_map]
      simp [State.issuedEntry, Nat.add_assoc, Nat.add_comm 1]

/-! ## The step -/

/-- What Execute, Issue and the end of a cycle leave of the counters of commits and flushes. -/
theorem Cycled.committed {s t : State} (c : Cycled s t) : ∃ u b, Committed s.cfg.commitWidth s.beginCycle u b ∧
    t.counters.committed = u.counters.committed ∧ t.counters.flushes = u.counters.flushes := by
  cases c with
  | aborted u hc => exact ⟨u, true, hc, rfl, rfl⟩
  | full u v w hc he hi =>
    have h : w.counters = u.counters := hi.frame.2.2.2.2.2.2.1.trans he.frame.counters
    exact ⟨u, false, hc, by rw [← h]; rfl, by rw [← h]; rfl⟩

/-- A step changes a piece `f` of the state that only a commit can change, only through an entry it
retires that satisfies `Q` or one it flushes at that satisfies `F`. -/
theorem step_unchanged {α : Type} (f : State → α) (Q F : RobEntry → Prop)
    (hst : ∀ s x, f (s.atStage x) = f s) (hb : ∀ s, f s.beginCycle = f s) (he : ∀ s, f s.endCycle = f s)
    (hx : ∀ s t, ExecuteFrame s t → f t = f s) (hi : ∀ n s t, Issued n s t → f t = f s)
    (hab : ∀ h u v, Aborts h u v → f v = f u ∨ (v.counters.flushes = u.counters.flushes + 1 ∧ F h))
    (hre : ∀ h u v, Retires h u v → f v = f u ∨ Q h) {s t : State} (h : step s = .next t)
    (hq : ∀ e ∈ s.rob.take (t.counters.committed - s.counters.committed), ¬ Q e)
    (hf : ∀ e ∈ s.rob.take (t.counters.committed - s.counters.committed +
      (t.counters.flushes - s.counters.flushes)), ¬ F e) : f t = f s := by
  obtain ⟨-, ⟨-, rfl⟩ | ⟨-, c⟩⟩ := step_cases h
  · rfl
  · have hc : ∀ u b, Committed s.cfg.commitWidth s.beginCycle u b →
        t.counters.committed = u.counters.committed → t.counters.flushes = u.counters.flushes →
        f u = f s := fun u b c h1 h2 => by
      rw [c.unchanged f Q F hst hab hre (by rw [← h1]; exact hq) (by rw [← h1, ← h2]; exact hf), hb]
    cases c with
    | aborted u c => rw [he, hc u true c rfl rfl]
    | full u v w c he' hi' =>
      have hk : w.counters = u.counters := hi'.frame.2.2.2.2.2.2.1.trans he'.frame.counters
      rw [he, hi _ _ _ hi', hx _ _ he'.frame,
        hc u false c (by rw [← hk]; rfl) (by rw [← hk]; rfl)]

end Sys2Proof.Machine
end

