-- ==== Sys2Proof/Laws/Progress.lean ====
section
/-! SUPPORT. The head of the ROB is never held up: a ready head is committed, its load gate is open, its
operands are there, and each visit of its station takes a cycle off its count or completes it. -/

namespace Sys2Proof.Machine

variable {s t : State}

/-! ## The head -/

/-- Where the head is a load or store, the LSQ head is its entry. -/
theorem State.CoreInv.lsq_head (hi : s.CoreInv) {h : RobEntry} {tl : List RobEntry} (hr : s.rob = h :: tl)
    (hm : h.op.isMem = true) : ∃ q ql, s.lsq = q :: ql ∧ q.tag = h.tag ∧ some q.kind = h.op.lsqKind := by
  have := hi.lsqMatchesRob
  simp only [State.LsqMatchesRob, hr, List.filter_cons, hm, if_true, List.map_cons] at this
  cases hl : s.lsq with
  | nil => simp [hl] at this
  | cons q ql =>
    simp only [hl, List.map_cons, List.cons.injEq, Prod.mk.injEq] at this
    exact ⟨q, ql, rfl, this.1⟩

/-- A ready head's commit does not stall (R261). -/
theorem State.CoreInv.not_stalls (hi : s.CoreInv) {h : RobEntry} {tl : List RobEntry} (hr : s.rob = h :: tl)
    (hd : h.ready = true) : ¬ Stalls h s := by
  rintro ⟨hm, hs⟩
  obtain ⟨q, ql, hl, hqt, hk⟩ := hi.lsq_head hr hm
  have hq : q ∈ s.lsq := by rw [hl]; exact List.mem_cons_self
  have hmr : q.memReady = true := by
    rw [hi.memReadyAgrees q hq h (by rw [hr]; exact List.mem_cons_self) hqt.symm, hd]
  obtain ⟨ha, hdt⟩ := hi.lsqResolved q hq hmr
  obtain ⟨a, ha⟩ := Option.isSome_iff_exists.1 ha
  have hmh : memoryHead h s.lsq = some (q, a) := by simp [memoryHead, hl, hqt, hmr, ha]
  rcases hs with hs | ⟨q', a', hq', ho, hdn⟩
  · rw [hmh] at hs; simp at hs
  · rw [hmh] at hq'
    simp only [Option.some.injEq, Prod.mk.injEq] at hq'
    rw [← hq'.1] at hdn
    have := hdt (by rw [ho] at hk; exact Option.some.inj hk)
    rw [hdn] at this; simp at this

/-- The gate of the head's load is open (R80). -/
theorem State.CoreInv.head_gate (hi : s.CoreInv) {h : RobEntry} {tl : List RobEntry} (hr : s.rob = h :: tl)
    (hm : h.op.isMem = true) : s.loadGateOpen h.tag = true := by
  obtain ⟨q, ql, hl, hqt, -⟩ := hi.lsq_head hr hm
  simp [State.loadGateOpen, olderStore, hl, hqt]

/-- The station of the head waits for nothing. -/
theorem State.CoreInv.head_wakeable (hi : s.CoreInv) {h : RobEntry} {tl : List RobEntry}
    (hr : s.rob = h :: tl) {st : Station} (hst : st ∈ s.stations) (hb : st.busy = true)
    (hd : st.dest = h.tag) : st.wakeable = true := by
  have hmin : ∀ e ∈ s.rob, h.tag ≤ e.tag := by
    intro e he
    have := hi.tagsRise
    simp only [State.TagsRise, hr] at this
    rw [hr] at he
    rcases List.mem_cons.1 he with rfl | he
    · exact Nat.le_refl _
    · exact Nat.le_of_lt ((List.pairwise_cons.1 this).1 e he)
  obtain ⟨hj, hk⟩ := hi.tagsLive st hst hb
  simp only [Station.wakeable, Bool.and_eq_true, Option.isNone_iff_eq_none]
  constructor
  · cases hq : st.qj with
    | none => rfl
    | some x =>
      obtain ⟨e, he, h1, h2, -⟩ := hj x (by simp [hq])
      have := hmin e he
      omega
  · cases hq : st.qk with
    | none => rfl
    | some x =>
      obtain ⟨e, he, h1, h2, -⟩ := hk x (by simp [hq])
      have := hmin e he
      omega

/-- An entry that is not ready is in a busy station. -/
theorem State.CoreInv.station_of (hi : s.CoreInv) {e : RobEntry} (he : e ∈ s.rob) (hr : e.ready = false) :
    ∃ p k st, s.station? p k = some st ∧ st.busy = true ∧ st.dest = e.tag := by
  have hc := hi.oneStationEach e he hr
  have hpos : 0 < s.stations.countP (fun st => st.busy && st.dest == e.tag) := by omega
  obtain ⟨st, hst, hx⟩ := List.countP_pos_iff.1 hpos
  simp only [Bool.and_eq_true, beq_iff_eq] at hx
  rcases List.mem_append.1 hst with h | h
  · obtain ⟨k, hk⟩ := List.mem_iff_getElem?.1 h
    exact ⟨.alu, k, st, hk, hx.1, hx.2⟩
  · obtain ⟨k, hk⟩ := List.mem_iff_getElem?.1 h
    exact ⟨.ls, k, st, hk, hx.1, hx.2⟩

/-- `remaining` reads the count of that station. -/
theorem State.CoreInv.remaining_eq (hi : s.CoreInv) {e : RobEntry} (he : e ∈ s.rob) (hr : e.ready = false)
    {st : Station} (hst : st ∈ s.stations) (hb : st.busy = true) (hd : st.dest = e.tag) :
    s.remaining e.tag = st.rem := by
  have hc := hi.oneStationEach e he hr
  rw [List.countP_eq_length_filter, List.length_eq_one_iff] at hc
  obtain ⟨a, ha⟩ := hc
  have hone : ∀ x ∈ s.stations, (x.busy && x.dest == e.tag) = true → x = a := by
    intro x hx hp
    have : x ∈ s.stations.filter fun st => st.busy && st.dest == e.tag := List.mem_filter.2 ⟨hx, hp⟩
    rw [ha] at this
    simpa using this
  unfold State.remaining
  have hst1 := hone st hst (by simp [hb, hd])
  cases hf : s.stations.find? fun st => st.busy && st.dest == e.tag with
  | none => exact absurd (List.find?_eq_none.1 hf st hst) (by simp [hb, hd])
  | some x =>
    have hp := List.find?_some hf
    rw [hone x (List.mem_of_find?_eq_some hf) (by simpa using hp), hst1]

/-! ## A visit -/

/-- The head, of tag `x`, is ready, or a busy station `k` of pool `p` holds it with less than `n` cycles
left. -/
def State.HeadWithin (s : State) (p : PoolId) (k : Nat) (x n : Nat) : Prop :=
  ∃ e tl, s.rob = e :: tl ∧ e.tag = x ∧ (e.ready = true ∨
    ∃ st, s.station? p k = some st ∧ st.busy = true ∧ st.dest = x ∧ st.rem < n)

/-- The head after an update: the same tag, and ready if it was or if it is the one updated. -/
theorem robUpdate_head {rob : List RobEntry} {e : RobEntry} {tl : List RobEntry} (h : rob = e :: tl)
    {d : Nat} {f : RobEntry → RobEntry} (hf : ∀ e, (f e).tag = e.tag ∧ (f e).ready = true) :
    ∃ e' tl', robUpdate d f rob = e' :: tl' ∧ e'.tag = e.tag ∧
      (e.ready = true ∨ e.tag = d → e'.ready = true) := by
  refine ⟨if e.tag = d then f e else e, robUpdate d f tl, by simp [h, robUpdate], ?_, ?_⟩
  · split
    · exact (hf e).1
    · rfl
  · split
    · exact fun _ => (hf e).2
    · rename_i hn; exact fun hh => hh.resolve_right hn

/-- What a completion that does not stay does to the ROB and to the other stations. -/
theorem Completed.rob_update {i : Instr} {p : PoolId} {k : Nat} {st : Station} {s t : State}
    (h : Completed i p k st s t) :
    (t = s ∧ i.op.isMem = true ∧ (st.ea = none ∨ (i.op = .lw ∧ s.loadGateOpen st.dest = false))) ∨
    ((∃ f : RobEntry → RobEntry, (∀ e, (f e).tag = e.tag ∧ (f e).ready = true) ∧
      t.rob = robUpdate st.dest f s.rob) ∧
      ∀ p' k', (p', k') ≠ (p, k) → t.station? p' k' = s.station? p' k') := by
  have hs : ∀ u : State, u.alu = s.alu → u.ls = s.ls → ∀ p' k', (p', k') ≠ (p, k) →
      (u.freeStationAt p k st).station? p' k' = s.station? p' k' := by
    intro u h1 h2 p' k' hne
    rw [State.freeStationAt, station?_setStation_ne _ _ _ _ _ _ hne]
    cases p' <;> simp [State.station?, State.pool, h1, h2]
  cases h with
  | plain hm hb =>
    exact .inr ⟨⟨fun e => { e with result := resultOf i st.vj st.vk, ready := true }, fun e => ⟨rfl, rfl⟩, by simp⟩,
      hs _ (by simp) (by simp)⟩
  | branch hb =>
    refine .inr ⟨⟨fun e => { e with
        target := nextFetch i (takenOf i st.vj st.vk) st.instr.pc
        result := resultOf i st.vj st.vk, ready := true }, fun e => ⟨rfl, rfl⟩, ?_⟩, hs _ (by simp) (by simp)⟩
    simp only [State.freeStationAt_rob, State.broadcast_rob]
    rw [robUpdate_robUpdate _ _ _ (by intro e; rfl)]
  | load ho ea he hg =>
    exact .inr ⟨⟨fun e => { e with result := s.memRead ea, ready := true }, fun e => ⟨rfl, rfl⟩, by simp⟩,
      hs _ (by simp) (by simp)⟩
  | store ho ea he =>
    exact .inr ⟨⟨fun e => { e with result := st.vk, ready := true }, fun e => ⟨rfl, rfl⟩, by simp⟩,
      hs _ (by simp) (by simp)⟩
  | stay hm hw => exact .inl ⟨rfl, hm, hw⟩

/-- A visit of another station, or of the head's, never sets the head back; the head's own visit takes it
a cycle on. -/
theorem Visited.head {p' : PoolId} {k' : Nat} (hv : Visited p' k' s t) (hi : s.CoreInv) {p : PoolId}
    {k x n : Nat} (h : s.HeadWithin p k x n) :
    t.HeadWithin p k x n ∧ ((p', k') = (p, k) → t.HeadWithin p k x (n - 1)) := by
  obtain ⟨e, tl, hr, hx, hcase⟩ := h
  have he : e ∈ s.rob := by rw [hr]; exact List.mem_cons_self
  have hready : ∀ d f, (∀ e, (f e).tag = e.tag ∧ (f e).ready = true) → t.rob = robUpdate d f s.rob →
      (e.ready = true ∨ e.tag = d) → ∀ m, t.HeadWithin p k x m := by
    intro d f hf ht hh m
    obtain ⟨e', tl', h1, h2, h3⟩ := robUpdate_head hr hf (d := d)
    exact ⟨e', tl', ht.trans h1, h2.trans hx, .inl (h3 hh)⟩
  have hkeep : e.ready = true → t.rob = s.rob → ∀ m, t.HeadWithin p k x m := fun h1 h2 m =>
    ⟨e, tl, h2.trans hr, hx, .inl h1⟩
  by_cases her : e.ready = true
  · suffices ∀ m, t.HeadWithin p k x m from ⟨this _, fun _ => this _⟩
    cases hv with
    | skip => exact hkeep her rfl
    | wait => exact hkeep her (by simp)
    | count => exact hkeep her (by simp)
    | complete st _ hs hb hw hrem hc =>
      rcases hc.rob_update with ⟨rfl, -⟩ | ⟨⟨f, hf, hrob⟩, -⟩
      · exact hkeep her (by simp)
      · exact hready _ f hf (by simpa using hrob) (.inl her)
  · obtain ⟨st, hst, hb, hd, hlt⟩ := hcase.resolve_left her
    have hmem : st ∈ s.stations := station?_mem hst
    have hwk := hi.head_wakeable hr hmem hb (hd.trans hx.symm)
    have hcap := st.captureFrom_wakeable s.rob hwk
    have hother : ∀ {st'}, (p', k') ≠ (p, k) → t = s.setStation p' k' st' →
        t.HeadWithin p k x n := by
      rintro st' hne rfl
      exact ⟨e, tl, by simpa using hr, hx, .inr ⟨st, by
        rw [station?_setStation_ne _ _ _ _ _ _ (fun h => hne h.symm)]; exact hst, hb, hd, hlt⟩⟩
    by_cases hown : (p', k') = (p, k)
    · cases hown
      suffices t.HeadWithin p' k' x (n - 1) from
        ⟨by
          obtain ⟨e, tl, h1, h2, h3⟩ := this
          exact ⟨e, tl, h1, h2, h3.imp_right fun ⟨st, a, b, c, d⟩ => ⟨st, a, b, c, by omega⟩⟩, fun _ => this⟩
      cases hv with
      | skip hsk => rw [hsk st hst] at hb; simp at hb
      | wait st' hs hb' hw =>
        rw [hst] at hs; cases hs
        rw [hcap, hwk] at hw; simp at hw
      | count st' hs hb' hw hrem =>
        rw [hst] at hs; cases hs
        rw [hcap, Station.countdown_rem] at hrem
        refine ⟨e, tl, by simpa using hr, hx, .inr ⟨_, State.station?_setStation_self s p' k' _ st hst,
          by simpa using hb, by simpa using hd, ?_⟩⟩
        rw [hcap, Station.countdown_rem]; omega
      | complete st' _ hs hb' hw hrem hc =>
        rw [hst] at hs; cases hs
        rcases hc.rob_update with ⟨rfl, hm, hstay⟩ | ⟨⟨f, hf, hrob⟩, -⟩
        · exfalso
          rw [Record.instr_op] at hm
          rcases hstay with hea | ⟨-, hg⟩
          · have := ready_ea (countdownOk_count hw (countdownOk_capture s.rob (hi.countdownOk st hmem hb)))
              hrem (by simpa using hm)
            rw [this] at hea; simp at hea
          · obtain ⟨e', he', h1, -, h3, -⟩ := hi.stationsLive st hmem hb
            have := rob_unique hi.tagsRise he' he (h1.trans (hd.trans hx.symm))
            subst this
            have := hi.head_gate hr (by rw [h3]; exact hm)
            simp only [Station.countdown_dest, Station.captureFrom_dest, hd, ← hx] at hg
            have hg' : s.loadGateOpen e'.tag = false := by
              simpa [State.loadGateOpen] using hg
            rw [hg'] at this; simp at this
        · exact hready _ f hf (by simpa using hrob) (.inr (by simpa using hx.trans hd.symm)) _
    · refine ⟨?_, fun h => absurd h hown⟩
      cases hv with
      | skip hsk => exact ⟨e, tl, hr, hx, hcase⟩
      | wait => exact hother hown rfl
      | count => exact hother hown rfl
      | complete st' _ hs hb' hw hrem hc =>
        rcases hc.rob_update with ⟨rfl, -⟩ | ⟨⟨f, hf, hrob⟩, hsame⟩
        · exact ⟨e, tl, by simpa using hr, hx, .inr ⟨st,
            (station?_setStation_ne s p' p k' k _ fun h => hown h.symm).trans hst, hb, hd, hlt⟩⟩
        · obtain ⟨e', tl', h1, h2, h3⟩ := robUpdate_head hr hf
            (d := (st'.captureFrom s.rob).countdown.dest)
          refine ⟨e', tl', hrob.trans (by simpa using h1), h2.trans hx, .inr ⟨st, ?_, hb, hd, hlt⟩⟩
          rw [hsame p k (fun h => hown h.symm)]
          have := station?_setStation_ne s p' p k' k (st'.captureFrom s.rob).countdown (fun h => hown h.symm)
          exact this.trans hst

/-- A scan never sets the head back, and one that visits its station takes it a cycle on. -/
theorem Scanned.head {l : List (PoolId × Nat)} (hc : Scanned l s t) {p : PoolId} {k x n : Nat} :
    s.CoreInv → s.HeadWithin p k x n →
      t.HeadWithin p k x n ∧ ((p, k) ∈ l → t.HeadWithin p k x (n - 1)) := by
  induction hc generalizing n with
  | nil => exact fun _ h => ⟨h, by simp⟩
  | cons p' k' l s u t hv hs ih =>
    intro hi h
    obtain ⟨h1, h2⟩ := hv.head hi h
    have hi' := hi.visited hv
    refine ⟨(ih hi' h1).1, fun hl => ?_⟩
    rcases List.mem_cons.1 hl with heq | hl
    · exact (ih hi' (h2 heq.symm)).1
    · exact (ih hi' h1).2 hl

/-- A station is visited by the scan of its machine. -/
theorem mem_scanOrder {p : PoolId} {k : Nat} {st : Station} (h : s.station? p k = some st) :
    (p, k) ∈ scanOrder s := by
  obtain ⟨hk, -⟩ := List.getElem?_eq_some_iff.1 h
  cases p <;> simpa [scanOrder, State.pool] using hk

/-- Issue leaves the head where it is. -/
theorem Issued.head {n : Nat} (hc : Issued n s t) {p : PoolId} {k x m : Nat}
    (h : s.HeadWithin p k x m) : t.HeadWithin p k x m := by
  refine hc.keeps (P := fun s => s.HeadWithin p k x m) (fun s y h => ?_) (fun s i j h hn => ?_) h
  · obtain ⟨e, tl, h1, h2, h3⟩ := h
    exact ⟨e, tl, by simpa using h1, h2, h3⟩
  · obtain ⟨-, -, ⟨st0, hs0, hb0⟩, -⟩ := nextIssue_some hn
    obtain ⟨e, tl, h1, h2, h3⟩ := h
    refine ⟨e, _, by simp [h1]; rfl, h2, h3.imp_right ?_⟩
    rintro ⟨st, a, b, c, d⟩
    refine ⟨st, ?_, b, c, d⟩
    have hne : (p, k) ≠ (i.op.pool, j) := by
      rintro heq
      cases heq
      rw [a] at hs0; cases hs0; rw [hb0] at b; simp at b
    rw [State.issue, station?_setStation_ne _ _ _ _ _ _ hne]
    exact a

end Sys2Proof.Machine
end

