-- ==== Sys2Proof/Laws/Refines.lean ====
section
/-! SUPPORT. Commit and Issue keep what the queues hold, and each commit or flush is one instruction of
the sequential reference (spec/50_pipeline_step.md R190, R191; spec/53_commit_flush.md R260, R276). -/

namespace Sys2Proof.Machine

variable {s t : State}

/-! ## Commit -/

/-- The data the head sees are the committed data. -/
theorem State.CoreInv.dataBefore_head (hi : s.CoreInv) {h : RobEntry} {tl : List RobEntry}
    (hr : s.rob = h :: tl) : s.dataBefore h.tag = s.data := by
  have hp := hi.tagsRise
  simp only [State.TagsRise, hr] at hp
  have := filter_before (l := []) hp
  simp only [List.nil_append] at this
  simp only [State.dataBefore, hr, this, Data.runAll_nil]

/-- The commit of the head `h`: gone from the queues, its effect in the committed data, its result with
the stations that waited for it. -/
theorem State.DataInv.retireHead (hd : s.DataInv) (hi : s.CoreInv) {h : RobEntry} {tl : List RobEntry}
    (hr : s.rob = h :: tl) (hrd : h.ready = true) (hrob : t.rob = tl)
    (hst : t.stations = s.stations.map fun st => if st.busy then st.capture h.tag h.result else st)
    (hlsq : ∀ q ∈ t.lsq, q ∈ s.lsq) (hdata : t.data = s.data.run s.cfg (instrAt s.program h.pc))
    (hrat : ∀ r : Reg, t.rat[r] = .architectural → s.rat[r] = .architectural ∨ s.rat[r] = .renamed h.tag)
    (hc : t.cfg = s.cfg) (hp : t.program = s.program) (hpc : t.pc = s.pc) : t.DataInv := by
  have hall : ∀ e ∈ tl, h.tag < e.tag := by
    have := hi.tagsRise; simp only [State.TagsRise, hr] at this; exact (List.pairwise_cons.1 this).1
  have hh : h ∈ s.rob := by rw [hr]; exact List.mem_cons_self
  have hsub : ∀ e ∈ tl, e ∈ s.rob := fun e he => by rw [hr]; exact List.mem_cons_of_mem _ he
  have htl : ∀ e ∈ s.rob, e.tag ≠ h.tag → e ∈ tl := by
    intro e he hne
    rw [hr] at he
    rcases List.mem_cons.1 he with rfl | he
    · exact absurd rfl hne
    · exact he
  have hbefore : ∀ x, h.tag < x → t.dataBefore x = s.dataBefore x := by
    intro x hx
    have : decide (h.tag < x) = true := by simpa using hx
    simp only [State.dataBefore, hdata, hc, hp, hrob, hr, List.filter_cons, this, if_true,
      Data.runAll_cons]
  have hyoung : ∀ r dest x, x ≠ h.tag → Youngest s.rob r dest x → Youngest t.rob r dest x := by
    intro r dest x hne hy
    refine ⟨hy.nonzero, hy.older, ?_, ?_⟩
    · obtain ⟨e, he, h1, h2⟩ := hy.entry
      exact ⟨e, by rw [hrob]; exact htl e he (h1 ▸ hne), h1, h2⟩
    · intro e he; rw [hrob] at he; exact hy.last e (hsub e he)
  have hslot : ∀ r dest v q, h.tag < dest → SlotOk s.rob (s.dataBefore dest) r dest v q →
      SlotOk t.rob (t.dataBefore dest) r dest (captureSlot h.tag h.result (v, q)).1
        (captureSlot h.tag h.result (v, q)).2 := by
    intro r dest v q hx hs
    rw [hbefore dest hx]
    rcases captureSlot_cases h.tag h.result v q with ⟨hne, he⟩ | ⟨heq, he⟩
    · rw [he]
      exact ⟨hs.value, fun x hq => hyoung r dest x (fun hxt => hne (by rw [← hxt]; exact hq)) (hs.tag x hq)⟩
    · rw [he]
      exact ⟨fun _ => by rw [hd.read_youngest hi hh (hs.tag _ heq), (hd.results h hh hrd).1], by simp⟩
  have hx : ∀ x ∈ t.stations, x.busy = true → ∃ y ∈ s.stations, y.busy = true ∧ h.tag < y.dest ∧
      x = y.capture h.tag h.result := by
    intro x hx hxb
    rw [hst] at hx
    obtain ⟨y, hy, rfl⟩ := List.mem_map.1 hx
    cases hyb : y.busy with
    | false => simp [hyb] at hxb
    | true =>
      refine ⟨y, hy, hyb, ?_, by simp⟩
      obtain ⟨e, he, h1, h2, -⟩ := hi.stationsLive y hy hyb
      rw [hr] at he
      rcases List.mem_cons.1 he with rfl | he
      · rw [hrd] at h2; simp at h2
      · rw [← h1]; exact hall e he
  refine ⟨?_, ?_, ?_, ?_, ?_, ?_, ?_⟩
  · intro e he; rw [hrob] at he; rw [hp]; exact hd.fetched e (hsub e he)
  · intro x hxm hxb
    obtain ⟨y, hy, hyb, -, rfl⟩ := hx x hxm hxb
    rw [hp]; exact hd.stationFetched y hy hyb
  · have := hd.path
    rw [hr] at this
    rw [hp, hrob, hpc]; exact this.2
  · intro x hxm hxb
    obtain ⟨y, hy, hyb, hlt, rfl⟩ := hx x hxm hxb
    obtain ⟨s1, s2⟩ := hd.slots y hy hyb
    exact ⟨hslot _ _ _ _ hlt s1, hslot _ _ _ _ hlt s2⟩
  · intro e he
    rw [hrob] at he
    rw [hp, hc, hbefore _ (hall e he)]; exact hd.results e (hsub e he)
  · intro q hq e he
    rw [hrob] at he
    rw [hp, hbefore _ (hall e he)]; exact hd.queue q (hlsq q hq) e (hsub e he)
  · intro r h0 hra e he hw
    rw [hrob] at he
    rcases hrat r hra with ha | hn
    · exact hd.unnamed r h0 ha e (hsub e he) hw
    · have := (hi.ratNamesYoungest r h.tag (by simp [hn, RatEntry.tag?])).2.2 e (hsub e he) hw.1 hw.2
      have := hall e he
      omega

/-- The committed data after the commit of the head, and the RAT. -/
theorem State.DataInv.commitReg_data (hd : s.DataInv) (hi : s.CoreInv) {h : RobEntry} {tl : List RobEntry}
    (hr : s.rob = h :: tl) (hrd : h.ready = true) (hw : h.op.writesReg = true) :
    (s.commitReg h.rd h).data = s.data.run s.cfg (instrAt s.program h.pc) := by
  have hh : h ∈ s.rob := by rw [hr]; exact List.mem_cons_self
  obtain ⟨-, ho, hdr⟩ := hd.fetched h hh
  have hres := (hd.results h hh hrd).1
  rw [hi.dataBefore_head hr] at hres
  have hsw : (instrAt s.program h.pc).op ≠ .sw := by
    rw [ho]; intro hs; rw [hs] at hw; simp [Op.writesReg] at hw
  unfold Data.run
  rw [if_neg hsw]
  simp only [hdr, ho]
  unfold State.commitReg
  by_cases h0 : h.rd = 0
  · simp [h0, State.data]
  · simp [h0, State.data, hw, hres]

/-- An instruction that writes neither a register nor memory leaves the data alone. -/
theorem Data.run_plain (c : Config) (d : Data) {i : Instr} (hw : i.op.writesReg = false) (hs : i.op ≠ .sw) :
    d.run c i = d := by
  simp [Data.run, hw, hs]

/-- What a register commit leaves architectural in the RAT. -/
theorem commitReg_architectural (s : State) (rd : Reg) (h : RobEntry) (r : Reg)
    (ha : (s.commitReg rd h).rat[r] = .architectural) :
    s.rat[r] = .architectural ∨ s.rat[r] = .renamed h.tag := by
  rw [commitReg_rat] at ha
  split at ha
  · rename_i hc; rw [hc.1]; exact .inr hc.2.2
  · exact .inl ha

/-- A retiring commit has the effect of its instruction on the committed data. -/
theorem State.DataInv.retires_data (hd : s.DataInv) (hi : s.CoreInv) {h : RobEntry} {tl : List RobEntry}
    (hr : s.rob = h :: tl) (hrd : h.ready = true) (hu : Retires h s t) :
    t.data = s.data.run s.cfg (instrAt s.program h.pc) := by
  have hh : h ∈ s.rob := by rw [hr]; exact List.mem_cons_self
  obtain ⟨-, ho, -⟩ := hd.fetched h hh
  cases hu with
  | branch hb hp =>
    rw [Data.run_plain]
    · simp [State.data]
    · rw [ho]; revert hb; cases h.op <;> simp [Op.isCondBranch, Op.writesReg]
    · rw [ho]; rintro hs; rw [hs] at hb; simp [Op.isCondBranch] at hb
  | writing hw hm =>
    rw [← hd.commitReg_data hi hr hrd hw]; simp [State.data]
  | load hl q a hq hf =>
    rw [← hd.commitReg_data hi hr hrd (by rw [hl]; rfl)]; simp [State.data]
  | store hs q a v hq hf hv =>
    obtain ⟨ql, hl, hqt, hqm, hqa⟩ := memoryHead_some hq
    obtain ⟨h1, h2⟩ := hd.queue q (by rw [hl]; exact List.mem_cons_self) h hh hqt.symm hqm
    rw [hi.dataBefore_head hr] at h1 h2
    have e1 : s.data.ea (instrAt s.program h.pc) = a := by rw [hqa] at h1; exact (Option.some.inj h1).symm
    have e2 : s.data.read (instrAt s.program h.pc).slotK = v := by
      rw [hv] at h2; exact (Option.some.inj (h2 hs)).symm
    unfold Data.run
    rw [ho, hs, e1, e2]
    simp [State.data, State.memWrite, Op.writesReg]
  | plain hw hm hb =>
    rw [Data.run_plain]
    · simp [State.data]
    · rw [ho]; exact hw
    · rw [ho]; rintro hs; rw [hs] at hm; simp [Op.isMem, Op.lsqKind] at hm

/-- A retiring commit keeps what the queues hold. -/
theorem State.DataInv.retires (hd : s.DataInv) (hi : s.CoreInv) {h : RobEntry} {tl : List RobEntry}
    (hr : s.rob = h :: tl) (hrd : h.ready = true) (hu : Retires h s t) : t.DataInv := by
  have hdata := hd.retires_data hi hr hrd hu
  have hmap : ∀ u : State, u.alu = s.alu → u.ls = s.ls → (u.retire h).stations =
      s.stations.map fun st => if st.busy then st.capture h.tag h.result else st := by
    intro u h1 h2; simp [State.stations, State.retire, State.wake, h1, h2]
  have htl : ∀ q ∈ s.lsq.tail, q ∈ s.lsq := fun q hq => List.mem_of_mem_tail hq
  cases hu with
  | branch hb hp =>
    exact hd.retireHead hi hr hrd (by simp [hr]) (hmap _ (by simp) (by simp)) (by simp) hdata
      (fun r ha => .inl (by simpa using ha)) (by simp) (by simp) (by simp)
  | writing hw hm =>
    exact hd.retireHead hi hr hrd (by simp [hr]) (hmap _ (by simp) (by simp)) (by simp) hdata
      (fun r ha => commitReg_architectural s h.rd h r (by simpa using ha)) (by simp) (by simp) (by simp)
  | load hl q a hq hf =>
    exact hd.retireHead hi hr hrd (by simp [hr]) (hmap _ (by simp) (by simp)) (by simpa using htl) hdata
      (fun r ha => commitReg_architectural s h.rd h r (by simpa using ha)) (by simp) (by simp) (by simp)
  | store hs q a v hq hf hv =>
    exact hd.retireHead hi hr hrd (by simp [hr]) (hmap _ (by simp) (by simp)) (by simpa using htl) hdata
      (fun r ha => .inl (by simpa using ha)) (by simp) (by simp) (by simp)
  | plain hw hm hb =>
    exact hd.retireHead hi hr hrd (by simp [hr]) (hmap _ (by simp) (by simp)) (by simp) hdata
      (fun r ha => .inl (by simpa using ha)) (by simp) (by simp) (by simp)

/-- An aborting commit keeps what the queues hold. -/
theorem State.DataInv.aborts (hd : s.DataInv) {h : RobEntry} (ha : Aborts h s t) : t.DataInv := by
  cases ha with
  | fault hm q a hq f hf => exact hd.latchFault f
  | flush hb hp =>
    refine State.DataInv.empty (by simp) ?_
    intro x hx
    simp only [State.stations, State.flush, List.mem_append, List.mem_map] at hx
    rcases hx with ⟨_, -, rfl⟩ | ⟨_, -, rfl⟩ <;> rfl

/-! ## Issue -/

/-- An issue keeps what the queues hold. -/
theorem State.DataInv.issue (hd : s.DataInv) (hi : s.CoreInv) {i : Instr} {k : Nat}
    (hn : s.nextIssue = some (i, k)) :
    (s.issue i k (predicted i s) (nextFetch i (predicted i s) s.pc)).DataInv := by
  obtain ⟨-, ⟨rec, hl, hri⟩, ⟨st0, hs0, hb0⟩, -⟩ := nextIssue_some hn
  obtain ⟨j, hj1, hj2⟩ := stations_setStation hs0
  obtain ⟨u, hu⟩ : ∃ u, u = s.issue i k (predicted i s) (nextFetch i (predicted i s) s.pc) := ⟨_, rfl⟩
  rw [← hu]
  have hin : instrAt s.program s.pc = i := by simp [instrAt, hl, hri]
  have hrob : u.rob = s.rob ++ [s.issuedEntry i (predicted i s)] := by rw [hu]; simp
  have hlt : ∀ e ∈ s.rob, e.tag < s.nextTag := hi.tagsIssued
  have hbefore : ∀ x, x ≤ s.nextTag → u.dataBefore x = s.dataBefore x := by
    intro x hx
    simp only [State.dataBefore, hrob, List.filter_append]
    have : decide (s.nextTag < x) = false := by simpa using hx
    simp [hu, State.issuedEntry, this, State.data]
  have hyoung : ∀ r dest x, dest ≤ s.nextTag → Youngest s.rob r dest x → Youngest u.rob r dest x := by
    intro r dest x hx hy
    refine ⟨hy.nonzero, hy.older, ?_, ?_⟩
    · obtain ⟨e, he, h1, h2⟩ := hy.entry
      exact ⟨e, by rw [hrob]; exact List.mem_append_left _ he, h1, h2⟩
    · intro e he hw hlt'
      rw [hrob] at he
      rcases List.mem_append.1 he with he | he
      · exact hy.last e he hw hlt'
      · simp only [List.mem_singleton] at he
        rw [he] at hlt'; simp only [State.issuedEntry] at hlt'; omega
  have hslot : ∀ r, SlotOk u.rob (u.dataBefore s.nextTag) r s.nextTag (s.rename r).1 (s.rename r).2 := by
    intro r
    rw [hbefore _ (Nat.le_refl _)]
    by_cases h0 : r = 0
    · subst h0; exact ⟨fun _ => by simp [State.rename, Data.read], by simp [State.rename]⟩
    · cases hra : s.rat[r] with
      | architectural =>
        refine ⟨fun _ => ?_, by simp [State.rename, h0, hra]⟩
        rw [hd.read_committed fun e he hw => absurd hw (hd.unnamed r h0 hra e he)]
        simp [State.rename, h0, hra, State.readReg]
      | renamed x =>
        obtain ⟨-, ⟨e, he, h1, h2, h3⟩, h4⟩ := hi.ratNamesYoungest r x (by simp [hra, RatEntry.tag?])
        have hf : robFind s.rob x = some e := by rw [← h1]; exact robFind_mem hi.tagsRise he
        have hy : Youngest s.rob r s.nextTag x :=
          ⟨h0, by rw [← h1]; exact hlt e he, ⟨e, he, h1, h2, h3⟩, fun e he hw _ => h4 e he hw.1 hw.2⟩
        cases hre : e.ready with
        | true =>
          refine ⟨fun _ => ?_, by simp [State.rename, h0, hra, hf, hre]⟩
          subst h1
          rw [hd.read_youngest hi he hy, ← (hd.results e he hre).1]
          simp [State.rename, h0, hra, hf, hre]
        | false =>
          refine ⟨by simp [State.rename, h0, hra, hf, hre], ?_⟩
          intro y hyq
          simp only [State.rename, h0, if_false, hra, hf, hre] at hyq
          cases hyq
          exact hyoung _ _ _ (Nat.le_refl _) hy
  have hmem : ∀ x ∈ u.stations, x = s.issuedStation i ∨ x ∈ s.stations := by
    intro x hx; rw [hu, State.issue_stations, hj2] at hx; exact mem_set_cases hx
  have hlsqTag : ∀ q ∈ s.lsq, q.tag < s.nextTag := by
    intro q hq
    have hin : (q.tag, some q.kind) ∈ s.lsq.map fun q => (q.tag, some q.kind) := List.mem_map.2 ⟨q, hq, rfl⟩
    rw [hi.lsqMatchesRob] at hin
    obtain ⟨e, he, hee⟩ := List.mem_map.1 hin
    simp only [List.mem_filter, Prod.mk.injEq] at he hee
    rw [← hee.1]; exact hlt e he.1
  have hpush : ∀ q ∈ u.lsq, q ∈ s.lsq ∨ q.memReady = false := by
    intro q hq
    rw [hu] at hq
    simp only [State.issue_lsq, lsqPush] at hq
    split at hq
    · rcases List.mem_append.1 hq with hq | hq
      · exact .inl hq
      · simp only [List.mem_singleton] at hq; rw [hq]; exact .inr rfl
    · exact .inl hq
  have hprog : u.program = s.program := by rw [hu]; simp
  have hcfg : u.cfg = s.cfg := by rw [hu]; simp
  refine ⟨?_, ?_, ?_, ?_, ?_, ?_, ?_⟩
  · intro e he
    rw [hrob] at he
    rw [hprog]
    rcases List.mem_append.1 he with he | he
    · exact hd.fetched e he
    · simp only [List.mem_singleton] at he
      rw [he]
      exact ⟨⟨rec, hl⟩, by simp [State.issuedEntry, hin], by simp [State.issuedEntry, hin]⟩
  · intro x hx hxb
    rw [hprog]
    rcases hmem x hx with rfl | hx
    · simp only [State.issuedStation, Instr.record_pc, Instr.record_instr, hin]
    · exact hd.stationFetched x hx hxb
  · rw [hprog, hrob]
    have := hd.path.append (e := s.issuedEntry i (predicted i s)) rfl
    simp only [State.issuedEntry, hin] at this
    rw [show u.pc = nextFetch i (predicted i s) s.pc by rw [hu]; simp]
    exact this
  · intro x hx hxb
    rcases hmem x hx with rfl | hx
    · simp only [State.issuedStation, Instr.record_instr]
      exact ⟨hslot _, hslot _⟩
    · obtain ⟨e, he, h1, -⟩ := hi.stationsLive x hx hxb
      have hle : x.dest ≤ s.nextTag := by rw [← h1]; exact Nat.le_of_lt (hlt e he)
      obtain ⟨s1, s2⟩ := hd.slots x hx hxb
      rw [hbefore _ hle]
      exact ⟨⟨s1.value, fun y hy => hyoung _ _ _ hle (s1.tag y hy)⟩,
        ⟨s2.value, fun y hy => hyoung _ _ _ hle (s2.tag y hy)⟩⟩
  · intro e he hre
    rw [hrob] at he
    rcases List.mem_append.1 he with he | he
    · rw [hprog, hcfg, hbefore _ (Nat.le_of_lt (hlt e he))]; exact hd.results e he hre
    · simp only [List.mem_singleton] at he
      rw [he] at hre; simp [State.issuedEntry] at hre
  · intro q hq e he hx hmr
    rw [hrob] at he
    rcases hpush q hq with hq | hq
    · rcases List.mem_append.1 he with he | he
      · rw [hprog, hbefore _ (Nat.le_of_lt (hlt e he))]; exact hd.queue q hq e he hx hmr
      · simp only [List.mem_singleton] at he
        rw [he] at hx; simp only [State.issuedEntry] at hx
        have := hlsqTag q hq; omega
    · rw [hq] at hmr; simp at hmr
  · intro r h0 hra e he hw
    rw [hu] at hra
    rw [State.issue_rat, ratName_getElem] at hra
    split at hra
    · simp at hra
    · rename_i hne
      rw [hrob] at he
      rcases List.mem_append.1 he with he | he
      · exact hd.unnamed r h0 hra e he hw
      · simp only [List.mem_singleton] at he
        rw [he] at hw
        exact hne ⟨hw.1.symm, h0, hw.2⟩

/-! ## The reference beside the core -/

theorem State.archPc_headPc (s : State) : s.archPc = headPc s.rob s.pc := by
  unfold State.archPc headPc
  cases s.rob <;> rfl

/-- Runs of the reference compose. -/
theorem refRun_add {m : Nat} (n : Nat) {u v : State} (h : refRun m u = .next v) :
    refRun (m + n) u = refRun n v := by
  induction m generalizing u with
  | zero => simp only [refRun, Host.Outcome.next.injEq] at h; rw [h, Nat.zero_add]
  | succ m ih =>
    rw [Nat.succ_add_eq_add_succ, ← Nat.succ_eq_add_one] at *
    rw [show m + n.succ = (m + n) + 1 by omega]
    simp only [refRun] at h ⊢
    cases hs : refStep u with
    | next w => simp only [hs] at h ⊢; exact ih h
    | fault f => simp [hs] at h
    | refused r => simp [hs] at h

/-- Where fetch continues does not depend on a direction unless the instruction is a conditional branch. -/
theorem nextFetch_plain {i : Instr} (h : i.op.isCondBranch = false) (a b : Bool) (pc : Word) :
    nextFetch i a pc = nextFetch i b pc := by
  cases i <;> simp [Instr.op, Op.isCondBranch] at h <;> rfl

/-- The result of a conditional branch is its direction. -/
theorem Data.value_branch {c : Config} {d : Data} {i : Instr} (h : i.op.isCondBranch = true) :
    decide (d.value c i = 1) = d.taken i := by
  have : ∀ b : Bool, decide (bitWord b = 1) = b := by decide
  cases i <;> simp [Instr.op, Op.isCondBranch] at h <;>
    simp only [Data.value, Data.taken, resultOf, takenOf, Instr.op, reduceCtorEq, if_false, this]

/-- A retiring commit is one instruction of the reference. -/
theorem State.DataInv.retires_tracks (hd : s.DataInv) (hi : s.CoreInv) (ha : s.Admitted) {h : RobEntry}
    {tl : List RobEntry} (hr : s.rob = h :: tl) (hrd : h.ready = true) (hu : Retires h s t) {u : State}
    (ht : Tracks u s) : ∃ v, refStep u = .next v ∧ Tracks v t := by
  have hh : h ∈ s.rob := by rw [hr]; exact List.mem_cons_self
  obtain ⟨⟨r, hl⟩, ho, -⟩ := hd.fetched h hh
  have hin : instrAt s.program h.pc = r.instr := by simp [instrAt, hl]
  have hupc : u.pc = h.pc := by rw [ht.pc]; simp [State.archPc, hr]
  have hud : u.data = s.data := by simp [State.data, ht.arf, ht.mem]
  have hop : r.op = h.op := by rw [← ho, hin, Record.instr_op]
  have hres := hd.results h hh hrd
  rw [hi.dataBefore_head hr] at hres
  have hstep := refStep_next (s := u) (r := r) (by rw [ht.program, hupc]; exact hl)
    (by rw [ht.cfg]; exact (ha.fetched hl).2) (by
      intro hm
      rw [hop] at hm
      have key : ∀ q a, memoryHead h s.lsq = some (q, a) → a = u.data.ea r.instr := by
        intro q a hq
        obtain ⟨ql, hlq, hqt, hqm, hqa⟩ := memoryHead_some hq
        have := (hd.queue q (by rw [hlq]; exact List.mem_cons_self) h hh hqt.symm hqm).1
        rw [hi.dataBefore_head hr, hqa, hin] at this
        rw [hud]; exact Option.some.inj this
      rw [ht.cfg, hupc]
      cases hu with
      | load _ q a hq hf => rw [← key q a hq]; exact hf
      | store _ q a v hq hf _ => rw [← key q a hq]; exact hf
      | branch hb => revert hm hb; cases h.op <;> simp [Op.isMem, Op.lsqKind, Op.isCondBranch]
      | writing _ hm' => rw [hm'] at hm; simp at hm
      | plain _ hm' => rw [hm'] at hm; simp at hm)
  refine ⟨_, hstep, ?_⟩
  have hdata := hd.retires_data hi hr hrd hu
  rw [hin] at hdata
  have hcfg : t.cfg = s.cfg ∧ t.program = s.program ∧ t.pc = s.pc := by
    cases hu <;> simp
  refine ⟨ht.cfg.trans hcfg.1.symm, ht.program.trans hcfg.2.1.symm, ?_, ?_, ?_⟩
  · show (u.data.run u.cfg r.instr).arf = t.data.arf
    rw [hdata, hud, ht.cfg]
  · show (u.data.run u.cfg r.instr).mem = t.data.mem
    rw [hdata, hud, ht.cfg]
  · show nextFetch r.instr (u.data.taken r.instr) u.pc = _
    have hpath := hd.path
    rw [hr] at hpath
    rw [State.archPc_headPc, hu.counts.2.2.2, hr, List.tail_cons, hcfg.2.2, hpath.1, hin, hupc, hud]
    cases hb : h.op.isCondBranch with
    | false => exact nextFetch_plain (by rw [Record.instr_op, hop]; exact hb) _ _ _
    | true =>
      cases hu with
      | branch _ hp =>
        rw [← hp, hres.1, hin, Data.value_branch (by rw [Record.instr_op, hop]; exact hb)]
      | writing hw _ => revert hb hw; cases h.op <;> simp [Op.writesReg, Op.isCondBranch]
      | load hl => rw [hl] at hb; simp [Op.isCondBranch] at hb
      | store hl => rw [hl] at hb; simp [Op.isCondBranch] at hb
      | plain _ _ hb' => rw [hb'] at hb; simp at hb

/-- A flush is one instruction of the reference, a latched fault is the one the reference raises. -/
theorem State.DataInv.aborts_tracks (hd : s.DataInv) (hi : s.CoreInv) {h : RobEntry}
    {tl : List RobEntry} (hr : s.rob = h :: tl) (hrd : h.ready = true) (hu : Aborts h s t) {u : State}
    (ht : Tracks u s) :
    (∃ v, refStep u = .next v ∧ Tracks v t ∧ t.counters.flushes = s.counters.flushes + 1 ∧
      t.fault = s.fault) ∨
    (Tracks u t ∧ t.counters.flushes = s.counters.flushes ∧ ∀ f, t.fault = some f → refStep u = .fault f) := by
  have hh : h ∈ s.rob := by rw [hr]; exact List.mem_cons_self
  obtain ⟨⟨r, hl⟩, ho, -⟩ := hd.fetched h hh
  have hin : instrAt s.program h.pc = r.instr := by simp [instrAt, hl]
  have hupc : u.pc = h.pc := by rw [ht.pc]; simp [State.archPc, hr]
  have hud : u.data = s.data := by simp [State.data, ht.arf, ht.mem]
  have hop : r.op = h.op := by rw [← ho, hin, Record.instr_op]
  have hul : u.program.lookup u.pc = some r := by rw [ht.program, hupc]; exact hl
  cases hu with
  | fault hm q a hq f hf =>
    refine .inr ⟨⟨ht.cfg, ht.program, ht.arf, ht.mem, ht.pc⟩, by simp, ?_⟩
    intro f' hf'
    simp only [State.latchFault_fault, Option.some.injEq] at hf'
    subst hf'
    refine refStep_fault hul (by rw [hop]; exact hm) ?_
    obtain ⟨ql, hlq, hqt, hqm, hqa⟩ := memoryHead_some hq
    have := (hd.queue q (by rw [hlq]; exact List.mem_cons_self) h hh hqt.symm hqm).1
    rw [hi.dataBefore_head hr, hqa, hin] at this
    rw [ht.cfg, hupc, hud, ← Option.some.inj this]
    exact hf
  | flush hb hp =>
    have hres := hd.results h hh hrd
    rw [hi.dataBefore_head hr] at hres
    have hnb : ∀ o : Op, o.isCondBranch = true → o ≠ .jalr ∧ o.isMem = false ∧ o.writesReg = false ∧ o ≠ .sw := by
      intro o; cases o <;> simp [Op.isCondBranch, Op.isMem, Op.lsqKind, Op.writesReg]
    obtain ⟨h1, h2, h3, h4⟩ := hnb _ hb
    have hstep := refStep_next (s := u) (r := r) hul (fun _ => by rw [hop]; exact h1)
      (by rw [hop, h2]; simp)
    have hrun : u.data.run u.cfg r.instr = u.data :=
      Data.run_plain _ _ (by rw [Record.instr_op, hop]; exact h3) (by rw [Record.instr_op, hop]; exact h4)
    rw [hrun] at hstep
    refine .inl ⟨_, hstep, ⟨by simpa using ht.cfg, by simpa using ht.program, by simpa using ht.arf,
      by simpa using ht.mem, ?_⟩, by simp, by simp⟩
    have := hres.2 hb
    rw [hin] at this
    simp [State.archPc, this, hupc, hud]

/-- The Commit stage: the reference follows by one instruction for each commit and flush. -/
theorem Committed.refines {n : Nat} {s t : State} {b : Bool} (c : Committed n s t b) :
    s.DataInv → s.CoreInv → s.Admitted → s.fault = none → ∀ u, Tracks u s →
    t.DataInv ∧ t.CoreInv ∧ ∃ k v, refRun k u = .next v ∧ Tracks v t ∧
      t.counters.committed + t.counters.flushes = s.counters.committed + s.counters.flushes + k ∧
      ∀ f, t.fault = some f → refStep v = .fault f := by
  have htr : ∀ {u s : State} (x : Stage), Tracks u s → Tracks u (s.atStage x) :=
    fun _ h => ⟨h.1, h.2, h.3, h.4, h.5⟩
  induction c with
  | zero s | empty n s hr | notReady n s h tl hr hd =>
    exact fun hd hi _ hf u ht => ⟨hd, hi, 0, u, rfl, ht, rfl, by simp [hf]⟩
  | stall n s h tl hr hrd hs =>
    exact fun hd hi _ hf u ht => ⟨hd.atStage _, hi.atStage _, 0, u, rfl, htr _ ht, rfl, by simp [hf]⟩
  | abort n s t h tl hr hrd hab =>
    intro hd hi _ hf u ht
    refine ⟨(hd.atStage .commit).aborts hab, (hi.atStage .commit).aborts hab, ?_⟩
    have hco : t.counters.committed = s.counters.committed := by cases hab <;> simp
    rcases (hd.atStage .commit).aborts_tracks (hi.atStage .commit) hr hrd hab (htr _ ht) with
      ⟨v, h1, h2, h3, h4⟩ | ⟨h1, h2, h3⟩
    · refine ⟨1, v, by simp [refRun, h1], h2, ?_, ?_⟩
      · simp only [State.atStage_counters] at h3; omega
      · intro f hf'; rw [h4] at hf'; simp [hf] at hf'
    · refine ⟨0, u, rfl, h1, ?_, h3⟩
      simp only [State.atStage_counters] at h2; omega
  | retire n s w t b h tl hr hrd hu hc ih =>
    intro hd hi ha hf u ht
    have hd' := (hd.atStage .commit).retires (hi.atStage .commit) hr hrd hu
    have hi' := (hi.atStage .commit).retires hr hrd hu
    obtain ⟨v, h1, h2⟩ := (hd.atStage .commit).retires_tracks (hi.atStage .commit) ha hr hrd hu (htr _ ht)
    obtain ⟨hco, hfl, hft, -⟩ := hu.counts
    have ha' : w.Admitted := by
      have : w.cfg = s.cfg ∧ w.program = s.program := by cases hu <;> simp
      simp only [State.Admitted, this.1, this.2]; exact ha
    obtain ⟨hd2, hi2, k, x, h3, h4, h5, h6⟩ := ih hd' hi' ha' (hft.trans hf) v h2
    refine ⟨hd2, hi2, k + 1, x, by simp [refRun, h1, h3], h4, ?_, h6⟩
    simp only [State.atStage_counters] at hco hfl
    omega

/-- Execute keeps what the queues hold, and the reference stays. -/
theorem Scanned.refines {l : List (PoolId × Nat)} {s t : State} (c : Scanned l s t) (hd : s.DataInv)
    (hi : s.CoreInv) (hgate : s.cfg.loadGate = .olderStores) :
    t.DataInv ∧ t.CoreInv ∧ ∀ u, Tracks u s → Tracks u t := by
  have key := c.keeps (P := fun s => s.DataInv ∧ s.CoreInv ∧ s.cfg.loadGate = .olderStores)
    (fun p k s t h hv => ⟨h.1.visited h.2.1 h.2.2 hv, h.2.1.visited hv, by rw [hv.frame.cfg]; exact h.2.2⟩)
    ⟨hd, hi, hgate⟩
  refine ⟨key.1, key.2.1, fun u ht => ?_⟩
  have hf := c.frame
  refine ⟨ht.cfg.trans hf.cfg.symm, ht.program.trans hf.program.symm, ht.arf.trans hf.arf.symm,
    ht.mem.trans hf.mem.symm, ?_⟩
  rw [ht.pc, State.archPc_headPc, State.archPc_headPc, hf.pc]
  have := hf.rob
  cases hs : s.rob with
  | nil =>
    rw [hs] at this
    simp only [List.map_nil, List.map_eq_nil_iff] at this
    rw [this]
  | cons e l =>
    rw [hs] at this
    cases ht' : t.rob with
    | nil => rw [ht'] at this; simp at this
    | cons e' l' =>
      rw [ht'] at this
      simp only [List.map_cons, List.cons.injEq, RobEntry.identity, Prod.mk.injEq] at this
      exact this.1.2.2.2.1.symm

/-- Issue keeps what the queues hold, and the reference stays. -/
theorem Issued.refines {n : Nat} {s t : State} (c : Issued n s t) (hd : s.DataInv)
    (hi : s.CoreInv) (ha : s.Admitted) : t.DataInv ∧ t.CoreInv ∧ ∀ u, Tracks u s → Tracks u t := by
  have key := c.keeps (P := fun x => x.DataInv ∧ x.CoreInv ∧ x.Admitted ∧ ∀ u, Tracks u s → Tracks u x)
    (fun x y h => ⟨h.1.atStage y, h.2.1.atStage y, h.2.2.1, fun u hu =>
      let z := h.2.2.2 u hu; ⟨z.1, z.2, z.3, z.4, z.5⟩⟩)
    (fun x i k h hn => by
      obtain ⟨-, -, ⟨st0, hs0, hb0⟩, -⟩ := nextIssue_some hn
      refine ⟨h.1.issue h.2.1 hn, h.2.1.issue hs0 hb0 (h.2.2.1.latency i.op), ?_, fun u hu => ?_⟩
      · have := h.2.2.1
        simpa [State.Admitted] using this
      · have z := h.2.2.2 u hu
        refine ⟨by simpa using z.cfg, by simpa using z.program, by simpa using z.arf, by simpa using z.mem, ?_⟩
        rw [z.pc, State.archPc_headPc, State.archPc_headPc]
        cases hx : x.rob <;> simp [hx, headPc, State.issuedEntry])
    ⟨hd, hi, ha, fun _ h => h⟩
  exact ⟨key.1, key.2.1, key.2.2.2⟩

end Sys2Proof.Machine
end

