-- ==== Sys2Proof/Laws/Words.lean ====
section
/-! SUPPORT. The fields of an encoded word (spec/30_encoding.md R117, R118): each field of each format reads
back what the encoder put there, and an immediate in range is read back whole. -/

namespace Sys2Proof

/-- Reading a field of the lower part. -/
theorem field_low {v w start len : Nat} {a : BitVec v} {b : BitVec w} (h : start + len ≤ w) :
    (a ++ b).extractLsb' start len = b.extractLsb' start len := BitVec.extractLsb'_append_eq_of_add_le h

/-- Reading a field of the upper part. -/
theorem field_high {v w start len : Nat} {a : BitVec v} {b : BitVec w} (h : w ≤ start) :
    (a ++ b).extractLsb' start len = a.extractLsb' (start - w) len := BitVec.extractLsb'_append_eq_of_le h

theorem regBits_toFin (x : BitVec 5) : regBits x.toFin = x := rfl

theorem toFin_regBits (r : Reg) : (regBits r).toFin = r := rfl

/-! ## Format R -/

section
variable (f7 : BitVec 7) (f3 : BitVec 3) (rd rs1 rs2 : Reg)

theorem encodeR_opcode : opcodeOf (encodeR f7 f3 rd rs1 rs2) = 0b0110011#7 := by
  unfold opcodeOf encodeR
  rw [field_low (by omega), BitVec.extractLsb'_eq_self]

theorem encodeR_funct3 : funct3Of (encodeR f7 f3 rd rs1 rs2) = f3 := by
  unfold funct3Of encodeR
  rw [field_high (by omega), field_high (by omega), field_low (by omega), BitVec.extractLsb'_eq_self]

theorem encodeR_funct7 : funct7Of (encodeR f7 f3 rd rs1 rs2) = f7 := by
  unfold funct7Of encodeR
  rw [field_high (by omega), field_high (by omega), field_high (by omega), field_high (by omega),
    field_high (by omega), BitVec.extractLsb'_eq_self]

theorem encodeR_rd : rdOf (encodeR f7 f3 rd rs1 rs2) = rd := by
  unfold rdOf encodeR
  rw [field_high (by omega), field_low (by omega), BitVec.extractLsb'_eq_self, toFin_regBits]

theorem encodeR_rs1 : rs1Of (encodeR f7 f3 rd rs1 rs2) = rs1 := by
  unfold rs1Of encodeR
  rw [field_high (by omega), field_high (by omega), field_high (by omega), field_low (by omega),
    BitVec.extractLsb'_eq_self, toFin_regBits]

theorem encodeR_rs2 : rs2Of (encodeR f7 f3 rd rs1 rs2) = rs2 := by
  unfold rs2Of encodeR
  rw [field_high (by omega), field_high (by omega), field_high (by omega), field_high (by omega),
    field_low (by omega), BitVec.extractLsb'_eq_self, toFin_regBits]

end

/-! ## Formats I, L and JR -/

section
variable (o : BitVec 7) (f3 : BitVec 3) (rd rs1 : Reg) (imm : Word)

theorem encodeI_opcode : opcodeOf (encodeI o f3 rd rs1 imm) = o := by
  unfold opcodeOf encodeI
  rw [field_low (by omega), BitVec.extractLsb'_eq_self]

theorem encodeI_funct3 : funct3Of (encodeI o f3 rd rs1 imm) = f3 := by
  unfold funct3Of encodeI
  rw [field_high (by omega), field_high (by omega), field_low (by omega), BitVec.extractLsb'_eq_self]

theorem encodeI_rd : rdOf (encodeI o f3 rd rs1 imm) = rd := by
  unfold rdOf encodeI
  rw [field_high (by omega), field_low (by omega), BitVec.extractLsb'_eq_self, toFin_regBits]

theorem encodeI_rs1 : rs1Of (encodeI o f3 rd rs1 imm) = rs1 := by
  unfold rs1Of encodeI
  rw [field_high (by omega), field_high (by omega), field_high (by omega), field_low (by omega),
    BitVec.extractLsb'_eq_self, toFin_regBits]

theorem encodeI_imm : immIOf (encodeI o f3 rd rs1 imm) = (imm.extractLsb' 0 12).signExtend 32 := by
  unfold immIOf encodeI
  rw [field_high (by omega), field_high (by omega), field_high (by omega), field_high (by omega),
    BitVec.extractLsb'_eq_self]

end

/-! ## Format S -/

section
variable (rs1 rs2 : Reg) (imm : Word)

theorem encodeS_opcode : opcodeOf (encodeS rs1 rs2 imm) = 0b0100011#7 := by
  unfold opcodeOf encodeS
  rw [field_low (by omega), BitVec.extractLsb'_eq_self]

theorem encodeS_funct3 : funct3Of (encodeS rs1 rs2 imm) = 0b010#3 := by
  unfold funct3Of encodeS
  rw [field_high (by omega), field_high (by omega), field_low (by omega), BitVec.extractLsb'_eq_self]

theorem encodeS_rs1 : rs1Of (encodeS rs1 rs2 imm) = rs1 := by
  unfold rs1Of encodeS
  rw [field_high (by omega), field_high (by omega), field_high (by omega), field_low (by omega),
    BitVec.extractLsb'_eq_self, toFin_regBits]

theorem encodeS_rs2 : rs2Of (encodeS rs1 rs2 imm) = rs2 := by
  unfold rs2Of encodeS
  rw [field_high (by omega), field_high (by omega), field_high (by omega), field_high (by omega),
    field_low (by omega), BitVec.extractLsb'_eq_self, toFin_regBits]

theorem encodeS_imm : immSOf (encodeS rs1 rs2 imm) = (imm.extractLsb' 0 12).signExtend 32 := by
  unfold immSOf encodeS
  rw [field_high (by omega), field_high (by omega), field_high (by omega), field_high (by omega),
    field_high (by omega), BitVec.extractLsb'_eq_self,
    field_high (by omega), field_low (by omega), BitVec.extractLsb'_eq_self]
  congr 1
  exact BitVec.extractLsb'_append_extractLsb'_eq_extractLsb' (by omega)

end

/-! ## Formats B and J -/

section
variable (f3 : BitVec 3) (rd rs1 rs2 : Reg) (imm : Word)

theorem encodeB_opcode : opcodeOf (encodeB f3 rs1 rs2 imm) = 0b1100011#7 := by
  unfold opcodeOf encodeB
  rw [field_low (by omega), BitVec.extractLsb'_eq_self]

theorem encodeB_funct3 : funct3Of (encodeB f3 rs1 rs2 imm) = f3 := by
  unfold funct3Of encodeB
  rw [field_high (by omega), field_high (by omega), field_high (by omega), field_low (by omega), BitVec.extractLsb'_eq_self]

theorem encodeB_rs1 : rs1Of (encodeB f3 rs1 rs2 imm) = rs1 := by
  unfold rs1Of encodeB
  rw [field_high (by omega), field_high (by omega), field_high (by omega), field_high (by omega), field_low (by omega), BitVec.extractLsb'_eq_self, toFin_regBits]

theorem encodeB_rs2 : rs2Of (encodeB f3 rs1 rs2 imm) = rs2 := by
  unfold rs2Of encodeB
  rw [field_high (by omega), field_high (by omega), field_high (by omega), field_high (by omega), field_high (by omega), field_low (by omega), BitVec.extractLsb'_eq_self, toFin_regBits]

theorem encodeJ_opcode : opcodeOf (encodeJ rd imm) = 0b1101111#7 := by
  unfold opcodeOf encodeJ
  rw [field_low (by omega), BitVec.extractLsb'_eq_self]

theorem encodeJ_rd : rdOf (encodeJ rd imm) = rd := by
  unfold rdOf encodeJ
  rw [field_high (by omega), field_low (by omega), BitVec.extractLsb'_eq_self, toFin_regBits]

/-- The immediate of a word in format B: bits 12 to 1, then a 0. -/
theorem encodeB_imm : immBOf (encodeB f3 rs1 rs2 imm) =
    (imm.extractLsb' 1 12 ++ (0 : BitVec 1)).signExtend 32 := by
  have h1 : (encodeB f3 rs1 rs2 imm).extractLsb' 31 1 = imm.extractLsb' 12 1 := by
    unfold encodeB
    rw [field_high (by omega), field_high (by omega), field_high (by omega), field_high (by omega),
      field_high (by omega), field_high (by omega), field_high (by omega), BitVec.extractLsb'_eq_self]
  have h2 : (encodeB f3 rs1 rs2 imm).extractLsb' 7 1 = imm.extractLsb' 11 1 := by
    unfold encodeB
    rw [field_high (by omega), field_low (by omega), BitVec.extractLsb'_eq_self]
  have h3 : (encodeB f3 rs1 rs2 imm).extractLsb' 25 6 = imm.extractLsb' 5 6 := by
    unfold encodeB
    rw [field_high (by omega), field_high (by omega), field_high (by omega), field_high (by omega),
      field_high (by omega), field_high (by omega), field_low (by omega), BitVec.extractLsb'_eq_self]
  have h4 : (encodeB f3 rs1 rs2 imm).extractLsb' 8 4 = imm.extractLsb' 1 4 := by
    unfold encodeB
    rw [field_high (by omega), field_high (by omega), field_low (by omega), BitVec.extractLsb'_eq_self]
  unfold immBOf
  rw [h1, h2, h3, h4, BitVec.extractLsb'_append_extractLsb'_eq_extractLsb' (by omega),
    BitVec.extractLsb'_append_extractLsb'_eq_extractLsb' (by omega),
    BitVec.extractLsb'_append_extractLsb'_eq_extractLsb' (by omega)]

/-- The immediate of a word in format J: bits 20 to 1, then a 0. -/
theorem encodeJ_imm : immJOf (encodeJ rd imm) = (imm.extractLsb' 1 20 ++ (0 : BitVec 1)).signExtend 32 := by
  have h1 : (encodeJ rd imm).extractLsb' 31 1 = imm.extractLsb' 20 1 := by
    unfold encodeJ
    rw [field_high (by omega), field_high (by omega), field_high (by omega), field_high (by omega),
      field_high (by omega), BitVec.extractLsb'_eq_self]
  have h2 : (encodeJ rd imm).extractLsb' 12 8 = imm.extractLsb' 12 8 := by
    unfold encodeJ
    rw [field_high (by omega), field_high (by omega), field_low (by omega), BitVec.extractLsb'_eq_self]
  have h3 : (encodeJ rd imm).extractLsb' 20 1 = imm.extractLsb' 11 1 := by
    unfold encodeJ
    rw [field_high (by omega), field_high (by omega), field_high (by omega), field_low (by omega),
      BitVec.extractLsb'_eq_self]
  have h4 : (encodeJ rd imm).extractLsb' 21 10 = imm.extractLsb' 1 10 := by
    unfold encodeJ
    rw [field_high (by omega), field_high (by omega), field_high (by omega), field_high (by omega),
      field_low (by omega), BitVec.extractLsb'_eq_self]
  unfold immJOf
  rw [h1, h2, h3, h4, BitVec.extractLsb'_append_extractLsb'_eq_extractLsb' (by omega),
    BitVec.extractLsb'_append_extractLsb'_eq_extractLsb' (by omega),
    BitVec.extractLsb'_append_extractLsb'_eq_extractLsb' (by omega)]

end

/-! ## Immediates in range -/

/-- An immediate that fits `n` bits is the sign extension of its low `n` bits (R118). -/
theorem signExtend_low {n : Nat} (hn : 0 < n) (hn' : n ≤ 32) {imm : Word} (h : fitsSigned n imm = true) :
    (imm.extractLsb' 0 n).signExtend 32 = imm := by
  simp only [fitsSigned, Bool.and_eq_true, decide_eq_true_eq] at h
  apply BitVec.eq_of_toInt_eq
  obtain ⟨m, rfl⟩ : ∃ m, n = m + 1 := ⟨n - 1, by omega⟩
  simp only [Nat.add_sub_cancel] at h
  have hd : 2 ^ (m + 1) ∣ 2 ^ 32 := Nat.pow_dvd_pow 2 hn'
  have hp : ((2 ^ (m + 1) : Nat) : Int) = 2 * 2 ^ m := by push_cast; ring
  calc ((imm.extractLsb' 0 (m + 1)).signExtend 32).toInt
      = (imm.extractLsb' 0 (m + 1)).toInt := BitVec.toInt_signExtend_of_le hn'
    _ = (imm.toNat : Int).bmod (2 ^ (m + 1)) := by
        rw [BitVec.toInt_eq_toNat_bmod, BitVec.extractLsb'_toNat, Nat.shiftRight_zero]
        exact_mod_cast Int.emod_bmod (imm.toNat : Int) (2 ^ (m + 1))
    _ = imm.toInt.bmod (2 ^ (m + 1)) := by
        rw [BitVec.toInt_eq_toNat_bmod, Int.bmod_bmod_of_dvd hd]
    _ = imm.toInt := by
        refine Int.bmod_eq_of_le ?_ ?_ <;> rw [hp] <;> omega

/-- An even immediate ends in a 0. -/
theorem low_even {n : Nat} {imm : Word} (h : isEven imm = true) :
    imm.extractLsb' 1 n ++ (0 : BitVec 1) = imm.extractLsb' 0 (n + 1) := by
  have h0 : (0 : BitVec 1) = imm.extractLsb' 0 1 := by
    ext i hi
    have : i = 0 := by omega
    subst this
    simpa [isEven] using h.symm
  rw [h0, BitVec.extractLsb'_append_extractLsb'_eq_extractLsb' (by omega)]

end Sys2Proof
end

