-- ==== Sys2Proof/Tests/Slice0.lean ====
section
/-! SUPPORT. Tests and witnesses. Expected values come from spec/95_test_vectors.md (the vector is named)
or from a rule read by hand. -/

namespace Sys2Proof.Tests

open Sys2Proof.Machine

/-! ## Helpers -/

/-- A machine at reset with the default parameters, its program laid out from address 0. -/
def machine (is : List Instr) : State := State.resetWith Config.default (Program.ofInstrs 0 is)

/-- The state a step answers. -/
def stepped (s : State) : State :=
  match step s with
  | .next t => t
  | _ => s

/-- The state the meaning of `i` answers. -/
def ran (i : Instr) (s : State) : State :=
  match exec i s with
  | .next t => t
  | _ => s

/-- A register of the state the reference effect of `i` answers, with `a` in `x1` and `b` in `x2`. -/
def effect (i : Instr) (a b : Word) (r : Reg) : Word :=
  (ran i { machine [] with arf := ((Vector.replicate 32 0).set 1 a).set 2 b }).readReg r

/-- A station holding `i`, issued at `pc` as tag `t`, with both operands. -/
def holding (i : Instr) (pc : Word) (t rem : Nat) (vj vk : Word) : Station :=
  { busy := true, op := i.op, vj := vj, vk := vk, qj := none, qk := none, dest := t, rem := rem,
    total := i.op.latency Config.default, instr := i.record pc, ea := none }

/-- A ROB entry of `i`, issued at `pc` as tag `t`. -/
def entry (i : Instr) (pc : Word) (t : Nat) (ready : Bool) (result : Word) : RobEntry :=
  { tag := t, op := i.op, rd := i.rd, pc := pc, ready := ready, result := result, pred := false, target := 0 }

/-- The result `i` computes in Execute from the operands `a` and `b`, read from its ROB entry. -/
def computed (i : Instr) (a b : Word) : Option Word :=
  let s := { machine [] with
    rob := [entry i 0 1 false 0]
    alu := [holding i 0 1 0 a b]
    stage := .execute .alu 0 }
  (robFind (ran i s).rob 1).map RobEntry.result

/-! ## Decoding: one word for every constructor, from the encodings of R117 to R119 -/

-- 95 section 2.4
theorem test_decode_add : decode 0x01DF0FB3 = some (.add 31 30 29) := by decide
theorem test_decode_sub : decode 0x403100B3 = some (.sub 1 2 3) := by decide
theorem test_decode_slt : decode 0x00C5A533 = some (.slt 10 11 12) := by decide
theorem test_decode_xor : decode 0x0062C233 = some (.xor 4 5 6) := by decide
theorem test_decode_or : decode 0x009463B3 = some (.or 7 8 9) := by decide
theorem test_decode_and : decode 0x00F776B3 = some (.and 13 14 15) := by decide
theorem test_decode_addi : decode 0x800F8F93 = some (.addi 31 31 (BitVec.ofInt 32 (-2048))) := by decide
theorem test_decode_lw : decode 0xFFC1A103 = some (.lw 2 3 (BitVec.ofInt 32 (-4))) := by decide
theorem test_decode_sw : decode 0xFE74AC23 = some (.sw 9 7 (BitVec.ofInt 32 (-8))) := by decide
theorem test_decode_beq : decode 0x80208063 = some (.beq 1 2 (BitVec.ofInt 32 (-4096))) := by decide
theorem test_decode_bne : decode 0x7E419FE3 = some (.bne 3 4 4094) := by decide
theorem test_decode_jal : decode 0x8000006F = some (.jal 0 (BitVec.ofInt 32 (-1048576))) := by decide
-- V-JALR
theorem test_decode_jalr : decode 0x00008067 = some (.jalr 0 1 0) := by decide
-- 95 section 2.4: the more specific match wins (R120)
theorem test_decode_nop : decode 0x00000013 = some .nop := by decide
-- R117, written out bit by bit: funct7 rs2 rs1 funct3 rd opcode
theorem test_decode_bits :
    decode (0b0100000#7 ++ 0b00011#5 ++ 0b00010#5 ++ 0b000#3 ++ 0b00001#5 ++ 0b0110011#7) =
      some (.sub 1 2 3) := by decide
-- R121: SYSTEM, FENCE, LUI, SLTU, LB, ADD with a stray funct7 bit
theorem test_decode_refuses : [0x00000073, 0x0000000F, 0x000000B7, 0x003130B3, 0x00010083, 0x023100B3,
    (0x00000000 : Word)].map decode = List.replicate 7 none := by decide
theorem test_refusal_name : decodeOrName 0x00000073 = .error (.noRow 0x00000073) := rfl

/-! ## Well-formedness: each check refuses an ill-formed term -/

theorem test_config_default : Config.default.wf = true := by decide
theorem test_config_sizes : ∀ c ∈ [{ robSize := 0 }, { width := 0, commitWidth := 0 }, { aluRs := 0 },
    ({ lsRs := 0 } : Config)], c.sizesOk = false ∧ c.wf = false := by decide
theorem test_config_commit_width : ∀ c ∈ [{ commitWidth := 0 }, ({ commitWidth := 3 } : Config)],
    c.commitWidthOk = false ∧ c.wf = false := by decide
theorem test_config_latencies : ∀ c ∈ [{ latAlu := 0 }, { latLoad := 0 }, { latStore := 0 },
    { latBranch := 0 }, { l1iHit := 0 }, ({ l1dHit := 0 } : Config)],
    c.latenciesOk = false ∧ c.wf = false := by decide
theorem test_config_fixed : ∀ c ∈ [{ xlen := 64 }, { nreg := 16 }, { sets := 64 }, { ways := 4 },
    { block := 32 }, { ghrBits := 9 }, ({ phtSize := 512 } : Config)],
    c.sizesFixed = false ∧ c.wf = false := by decide
theorem test_config_mem_words : ({ memWords := 0 } : Config).wf = false ∧
    ({ memWords := 2 ^ 30 + 1 } : Config).wf = false ∧ ({ memWords := 2 ^ 30 } : Config).memWordsOk = true := by
  simp [Config.wf, Config.memWordsOk]
theorem test_config_reset_pc : ({ resetPc := 2 } : Config).resetPcOk = false := by decide
theorem test_config_mem_init : ∀ m ∈ [[(4, 1), (4, 2)], [(0, 0)], ([(262144, 1)] : Memory)],
    ({ memInit := m } : Config).memInitOk = false := by decide
theorem test_memory_order : Memory.wf [(4, 1), (0, 1)] = false := by decide
theorem test_memory_unlisted : Memory.wf [(4, 0)] = false := by decide
theorem test_memory_range : Memory.inRange [(4, 1)] 1 = false := by decide
theorem test_record_alignment : Record.wf ⟨2, .nop, 0, 0, 0, 0⟩ 2 = false := by decide
theorem test_record_key : Record.wf ⟨0, .nop, 0, 0, 0, 0⟩ 4 = false := by decide
theorem test_record_unused : ∀ r ∈ [⟨0, .add, 1, 1, 1, 4⟩, ⟨0, .addi, 1, 1, 1, 4⟩, ⟨0, .lw, 1, 1, 1, 4⟩,
    ⟨0, .sw, 1, 1, 1, 4⟩, ⟨0, .bne, 1, 1, 1, 4⟩, ⟨0, .jal, 1, 1, 0, 4⟩, ⟨0, .jalr, 1, 1, 1, 4⟩,
    (⟨0, .nop, 1, 0, 0, 0⟩ : Record)], r.unusedZero = false ∧ r.wf 0 = false := by decide
theorem test_record_jal_rd : Record.wf ⟨8, .jal, 5, 0, 0, 12⟩ 8 = true := by decide
theorem test_slot_unknown : Slot.wf .nop 0 (.unknown 0) = false := by decide
theorem test_slot_jalr : Slot.wf .refuse 0 (.record ⟨0, .jalr, 0, 1, 0, 0⟩) = false ∧
    Slot.wf .nop 0 (.record ⟨0, .jalr, 0, 1, 0, 0⟩) = true := by decide
theorem test_program_keys : Program.wf .nop
    [(0, .record ⟨0, .nop, 0, 0, 0, 0⟩), (0, .record ⟨0, .nop, 0, 0, 0, 0⟩)] = false := by decide
theorem test_imm_range : fitsSigned 12 2048 = false ∧ fitsSigned 12 2047 = true ∧
    fitsSigned 12 (BitVec.ofInt 32 (-2048)) = true ∧ fitsSigned 12 (BitVec.ofInt 32 (-2049)) = false := by
  decide
theorem test_imm_even : isEven 9 = false ∧ (Instr.beq 1 1 9).hasWordForm = false := by decide
theorem test_word_form : ∀ i ∈ [Instr.addi 1 1 2048, .lw 1 1 2048, .sw 1 1 2048, .beq 1 1 4096,
    .bne 1 1 4096, .jal 1 1048576, .jalr 1 1 2048, .addi 0 0 0], i.hasWordForm = false := by decide

/-- The refusals of the first step, each by its name (R329). -/
theorem test_step_refusals :
    step (State.resetWith { robSize := 0 } []) = .refused .badConfiguration ∧
    step (State.resetWith {} [(0, .unknown 0x73)]) = .refused (.unknownWord 0 0x73) ∧
    step (State.resetWith {} [(4, .record ⟨0, .nop, 0, 0, 0, 0⟩)]) = .refused (.illFormedRecord 4) ∧
    step (State.resetWith { jalrMode := .refuse } (Program.ofInstrs 0 [.jalr 0 1 0])) =
      .refused (.jalrReserved 0) ∧
    step (State.resetWith {} [(4, .record ⟨4, .nop, 0, 0, 0, 0⟩), (0, .record ⟨0, .nop, 0, 0, 0, 0⟩)]) =
      .refused .keysNotRising := ⟨rfl, rfl, rfl, rfl, rfl⟩

/-! ## The instructions -/

-- 95 section 2.1, in the reference reading and in Execute
theorem test_add_wraps : effect (.add 3 1 2) 0xFFFFFFFF 1 3 = 0 ∧
    computed (.add 3 1 2) 0x7FFFFFFF 1 = some 0x80000000 := by decide
theorem test_sub_order : effect (.sub 3 1 2) 0 1 3 = 0xFFFFFFFF ∧
    computed (.sub 3 1 2) 0x80000000 1 = some 0x7FFFFFFF := by decide
theorem test_and_bits : effect (.and 3 1 2) 0x0F0F 0xFF 3 = 0xF ∧
    computed (.and 3 1 2) 0xAAAAAAAA 0x55555555 = some 0 := by decide
theorem test_or_bits : effect (.or 3 1 2) 0x0F0F 0xFF 3 = 0xFFF ∧
    computed (.or 3 1 2) 0xAAAAAAAA 0x55555555 = some 0xFFFFFFFF := by decide
theorem test_xor_bits : effect (.xor 3 1 2) 0x0F0F 0xFF 3 = 0xFF0 ∧
    computed (.xor 3 1 2) 0xFFFFFFFF 0xFFFFFFFF = some 0 := by decide
theorem test_slt_signed : effect (.slt 3 1 2) 0xFFFFFFFF 0 3 = 1 ∧ effect (.slt 3 1 2) 0 0xFFFFFFFF 3 = 0 ∧
    computed (.slt 3 1 2) 0x80000000 0x7FFFFFFF = some 1 := by decide
theorem test_addi_wide : effect (.addi 3 1 0x12345678) 1 0 3 = 0x12345679 ∧
    computed (.addi 3 1 (BitVec.ofInt 32 (-2048))) 5 0 = some 0xFFFFF805 := by decide
-- R22
theorem test_add_x0 : effect (.add 0 1 2) 3 4 0 = 0 ∧ effect (.add 1 1 1) 3 0 1 = 6 := by decide
-- R147, R243
theorem test_nop : (ran .nop (machine [])).pc = 4 ∧ computed .nop 7 8 = some 0 := by decide
-- 95 section 2.2: the last word, and its neighbours
theorem test_lw_last_word :
    (ran (.lw 3 1 4) { machine [] with
      arf := (Vector.replicate 32 0).set 1 0x3FFF8, mem := [(0x3FFFC, 0x78), (0x3FFFF, 0x12)] }).readReg 3 =
      0x12000078 := by decide
theorem test_lw_faults :
    exec (.lw 3 0 0x40000) (machine []) = .fault (.memOutOfRange 0 0x40000) ∧
    exec (.lw 3 0 0x40002) (machine []) = .fault (.memMisaligned 0 0x40002) := ⟨rfl, rfl⟩
theorem test_sw_bytes :
    (ran (.sw 1 2 (BitVec.ofInt 32 (-4))) { machine [] with
      arf := ((Vector.replicate 32 0).set 1 8).set 2 0x01020304, mem := [(3, 9), (8, 9)] }).mem =
      [(3, 9), (4, 4), (5, 3), (6, 2), (7, 1), (8, 9)] := by decide
theorem test_sw_faults :
    exec (.sw 0 2 (BitVec.ofInt 32 (-4))) (machine []) = .fault (.memOutOfRange 0 0xFFFFFFFC) ∧
    exec (.sw 0 2 2) (machine []) = .fault (.memMisaligned 0 2) := ⟨rfl, rfl⟩
-- 95 section 2.3
theorem test_beq : (ran (.beq 1 2 8) { machine [] with pc := 4 }).pc = 12 ∧
    (ran (.beq 1 2 8) { machine [] with pc := 4, arf := (Vector.replicate 32 0).set 1 1 }).pc = 8 := by
  decide
theorem test_bne : (ran (.bne 1 2 (BitVec.ofInt 32 (-8))) { machine [] with pc := 16 }).pc = 20 ∧
    (ran (.bne 1 2 (BitVec.ofInt 32 (-8)))
      { machine [] with pc := 16, arf := (Vector.replicate 32 0).set 1 4 }).pc = 8 := by decide
theorem test_jal : (ran (.jal 5 12) { machine [] with pc := 8 }).pc = 20 ∧
    (ran (.jal 5 12) { machine [] with pc := 8 }).readReg 5 = 0 := by decide
-- V-JALR: it does not jump
theorem test_jalr : (ran (.jalr 5 1 0)
    { machine [] with pc := 4, arf := (Vector.replicate 32 0).set 1 8 }).pc = 8 := by decide

/-! ## One step -/

/-- S5, cycle 1: both `ADDI` issue; the second waits on the first. -/
theorem test_issue_two :
    let s := stepped (machine [.addi 1 0 1, .addi 1 1 1, .addi 1 1 1])
    s.pc = 8 ∧ s.rob.map RobEntry.tag = [1, 2] ∧ s.rat[(1 : Reg)] = .renamed 2 ∧
      (s.alu.take 2).map Station.qj = [none, some 1] ∧ s.counters.occAlu = ⟨2, 2⟩ := by decide

/-- S3, cycle 4: the mispredicted branch flushes and restarts at 12. -/
def s3 : State :=
  { machine [.addi 1 0 1, .beq 1 1 8, .sw 0 1 0, .addi 2 0 9] with
    pc := 16, nextTag := 5
    arf := (Vector.replicate 32 0).set 1 1
    rat := (Vector.replicate 32 .architectural).set 2 (.renamed 4)
    rob := [{ entry (.beq 1 1 8) 4 2 true 1 with target := 12 }, entry (.sw 0 1 0) 8 3 true 1,
      entry (.addi 2 0 9) 12 4 true 9]
    lsq := [⟨3, .store, some 0, some 1, true⟩]
    counters := { Counters.reset with committed := 1 } }

theorem test_flush :
    (stepped s3).pc = 12 ∧ (stepped s3).rob = [] ∧ (stepped s3).lsq = [] ∧ (stepped s3).mem = [] ∧
      (stepped s3).bp = ⟨1, [(4, 2)]⟩ ∧ (stepped s3).counters.flushes = 1 ∧
      (stepped s3).counters.bpCorrect = 0 ∧ (stepped s3).nextTag = 5 := by decide

/-- V-LU, cycle 4: the load commits, its result wakes the waiting `ADD`, which completes. -/
def vlu : State :=
  { machine [.lw 1 0 0, .add 2 1 1] with
    pc := 8, nextTag := 3
    rat := ((Vector.replicate 32 .architectural).set 1 (.renamed 1)).set 2 (.renamed 2)
    rob := [entry (.lw 1 0 0) 0 1 true 21, entry (.add 2 1 1) 4 2 false 0]
    alu := { holding (.add 2 1 1) 4 2 1 0 0 with qj := some 1, qk := some 1 } :: List.replicate 7 .idle
    lsq := [⟨1, .load, some 0, none, true⟩] }

theorem test_wake :
    (stepped vlu).rob = [entry (.add 2 1 1) 4 2 true 42] ∧ (stepped vlu).arf[(1 : Reg)] = 21 ∧
      (stepped vlu).rat[(1 : Reg)] = .architectural ∧ (stepped vlu).lsq = [] := by decide

/-- V-SL, cycle 4 and 5: the load at `rem = 0` waits for the store before it. -/
def vsl : State :=
  { machine [.lw 1 0 0, .sw 0 1 4, .lw 2 0 4] with
    pc := 12, nextTag := 4
    arf := (Vector.replicate 32 0).set 1 77
    rat := (Vector.replicate 32 .architectural).set 2 (.renamed 3)
    rob := [entry (.sw 0 1 4) 4 2 false 0, entry (.lw 2 0 4) 8 3 false 0]
    ls := [.idle, holding (.sw 0 1 4) 4 2 1 0 77, { holding (.lw 2 0 4) 8 3 0 0 0 with ea := some 4 }, .idle]
    lsq := [⟨2, .store, none, none, false⟩, ⟨3, .load, none, none, false⟩]
    counters := { Counters.reset with committed := 1 } }

theorem test_gate_closed :
    (stepped vsl).rob.map RobEntry.ready = [true, false] ∧
      (stepped vsl).lsq.map LsqEntry.memReady = [true, false] := by decide
theorem test_gate_none :
    (stepped { vsl with cfg := { loadGate := .none } }).rob.map RobEntry.ready = [true, true] := by decide

/-- A store with a misaligned address at the head. -/
def badHead : State :=
  { machine [.sw 0 1 2] with
    pc := 4, nextTag := 2
    rob := [entry (.sw 0 1 2) 0 1 true 0]
    lsq := [⟨1, .store, some 2, some 0, true⟩] }

theorem test_fault_latched :
    (stepped badHead).fault = some (.memMisaligned 0 2) ∧ (stepped badHead).rob = badHead.rob ∧
      (stepped badHead).counters.cycle = 1 ∧ (stepped badHead).counters.occRob = ⟨1, 1⟩ ∧
      (stepped (stepped badHead)) = stepped badHead := by decide

/-! ## Witnesses: for each obligation with hypotheses, a state and operands that meet them -/

/-- For `DecodeOfEncodeIsTheInstruction`: every constructor, immediates at the ends of their ranges. -/
theorem witness_has_word_form : [Instr.add 31 0 31, .sub 0 0 0, .and 1 2 3, .or 1 2 3, .xor 1 2 3, .slt 1 2 3,
    .addi 1 0 0, .addi 0 0 1, .addi 31 31 2047, .lw 1 2 (BitVec.ofInt 32 (-2048)), .sw 1 2 2047,
    .beq 1 2 (BitVec.ofInt 32 (-4096)), .bne 1 2 4094, .jal 1 1048574,
    .jal 0 (BitVec.ofInt 32 (-1048576)), .jalr 0 1 2047, .nop].all Instr.hasWordForm = true := by decide

/-- For `EncodeOfDecodeIsTheWord`. -/
theorem witness_decodes : decode 0x7FFFF0EF = some (.jal 1 1048574) := by decide

/-- A machine whose ALU station 0 and LS station 0 hold an instruction each, ready to complete. -/
def completing (st : Stage) (gate : LoadGate) (lsq : List LsqEntry) : State :=
  { machine [] with
    cfg := { loadGate := gate }
    rob := [entry (.add 1 2 3) 0 1 false 0, entry (.lw 1 2 4) 4 2 false 0]
    alu := [holding (.add 1 2 3) 0 1 0 5 6]
    ls := [{ holding (.lw 1 2 4) 4 2 0 8 0 with ea := some 12 }]
    lsq := lsq
    stage := st }

/-- For the statements of one instruction in Execute (`Computes`, the branches, `JAL`, `JALR`, `NOP`) and
`BroadcastFillsTheEntry`. -/
theorem witness_execute :
    (completing (.execute .alu 0) .none []).stage = .execute .alu 0 ∧
    (completing (.execute .alu 0) .none []).station? .alu 0 = some (holding (.add 1 2 3) 0 1 0 5 6) := by
  decide

/-- For the statements of one instruction in the reference reading. -/
theorem witness_reference : (machine []).stage = .reference ∧ (machine []).cfg.jalrMode = .nop ∧
    ({ machine [] with cfg := { jalrMode := .refuse } } : State).cfg.jalrMode = .refuse := by decide

/-- For the statements of one instruction in Issue. -/
theorem witness_issue : (completing (.issue 7) .none []).stage = .issue 7 := rfl

-- R116: the pools, latencies, kinds and `writes_reg`, under latencies that all differ
theorem test_op_table :
    let c : Config := { latAlu := 1, latLoad := 2, latStore := 3, latBranch := 4 }
    [Op.add, .sub, .and, .or, .xor, .slt, .addi, .nop, .jalr, .lw, .sw, .beq, .bne, .jal].map
        (fun o => (o.pool, o.latency c, o.lsqKind, o.writesReg)) =
      List.replicate 7 (.alu, 1, none, true) ++ [(.alu, 1, none, false), (.alu, 1, none, false),
        (.ls, 2, some .load, true), (.ls, 3, some .store, false)] ++ List.replicate 3 (.alu, 4, none, false) := by
  decide

/-- For the statements of one instruction in Commit. -/
theorem witness_commit : ({ vlu with stage := .commit } : State).stage = .commit ∧
    ({ vlu with stage := .commit } : State).rob =
      entry (.lw 1 0 0) 0 1 true 21 :: [entry (.add 2 1 1) 4 2 false 0] := by decide

/-- For `LwLoadsTheWord` and `SwStoresTheWord`: an address for each clause, at the ends of its range. -/
theorem witness_addresses :
    ((machine []).readReg 0 + 0x3FFFC : Word).toNat % 4 = 0 ∧
    ((machine []).readReg 0 + 0x3FFFC : Word).toNat / 4 < (machine []).cfg.memWords ∧
    (machine []).mem.wf = true ∧
    ((machine []).readReg 0 + 0x40000 : Word).toNat % 4 = 0 ∧
    (machine []).cfg.memWords ≤ ((machine []).readReg 0 + 0x40000 : Word).toNat / 4 ∧
    ((machine []).readReg 0 + 0x40002 : Word).toNat % 4 ≠ 0 := by decide

/-- For `RenameReadsTheNewestProducer`: a committed, a ready and a pending source. -/
theorem witness_rename :
    vlu.rat[(3 : Reg)] = .architectural ∧
    vlu.rat[(1 : Reg)] = .renamed 1 ∧ robFind vlu.rob 1 = some (entry (.lw 1 0 0) 0 1 true 21) ∧
    vlu.rat[(2 : Reg)] = .renamed 2 ∧ robFind vlu.rob 2 = some (entry (.add 2 1 1) 4 2 false 0) := by decide

/-- For `BlockedIssueChangesNothing`: a full ROB, no instruction, no free station. -/
theorem witness_blocked :
    (let s : State := { vlu with cfg := { robSize := 2 } }; s.cfg.robSize ≤ s.rob.length) ∧
    vlu.program.lookup vlu.pc = none ∧
    (let s := completing .reference .none []
     let p : State := { s with program := Program.ofInstrs 0 [.add 1 1 1] }
     p.program.lookup p.pc = some ⟨0, .add, 1, 1, 1, 0⟩ ∧ ∀ st ∈ (if Op.add = .lw ∨ Op.add = .sw then p.ls else p.alu), st.busy = true) := by decide

/-- For `LowestFreeStationIsTaken`: station 0 of the ALU pool is busy, and no station of the other. -/
theorem witness_next_issue : ({ vlu with pc := 4 } : State).nextIssue = some (.add 2 1 1, 1) ∧
    ({ vlu with pc := 0 } : State).nextIssue = some (.lw 1 0 0, 0) := by decide

/-- For its second half: the same two attempts, the stop tests written out. -/
theorem witness_stop_tests : vlu.rob.length < vlu.cfg.robSize ∧
    vlu.program.lookup 4 = some ⟨4, .add, 2, 1, 1, 0⟩ ∧ vlu.alu.map Station.busy = true :: List.replicate 7 false ∧
    vlu.program.lookup 0 = some ⟨0, .lw, 1, 0, 0, 0⟩ ∧ vlu.ls.map Station.busy = List.replicate 4 false := by decide

/-- For `VisitCapturesCountsAndCompletes`: idle; one operand arrives, the other is still awaited; two
cycles left; the last cycle; none left (a load behind its gate). -/
theorem witness_waiting :
    let st := { holding (.add 2 1 1) 4 3 1 0 0 with qj := some 1, qk := some 2 }
    let s : State := { vlu with alu := [st] }
    s.station? .alu 0 = some st ∧ st.busy = true ∧ (st.captureFrom s.rob).wakeable = false ∧
      (st.captureFrom s.rob).qj = none ∧
    (Station.idle.busy = false) ∧
    (let st := holding (.lw 1 0 4) 0 1 2 8 0; st.busy = true ∧ (st.captureFrom []).wakeable = true ∧ 2 ≤ st.rem) ∧
    (let st := holding (.lw 1 0 4) 0 1 1 8 0; st.busy = true ∧ (st.captureFrom []).wakeable = true ∧ st.rem ≤ 1) ∧
    (let st := holding (.lw 1 0 4) 0 1 0 8 0; st.busy = true ∧ (st.captureFrom []).wakeable = true ∧ st.rem ≤ 1) := by
  decide

/-- For `CaptureTakesReadyResults`: a ready producer, a pending one, and none. -/
theorem witness_capture :
    robFind vlu.rob 1 = some (entry (.lw 1 0 0) 0 1 true 21) ∧ (entry (.lw 1 0 0) 0 1 true 21).ready = true ∧
    (robFind vlu.rob 2).map RobEntry.ready = some false ∧ robFind vlu.rob 9 = none := by decide

/-- For `CountdownComputesTheAddress`: the first count of a `LW`, a later one, and an `ADD`. -/
theorem witness_countdown :
    (let st := holding (.lw 1 0 4) 0 1 2 8 0; 0 < st.rem ∧ st.rem = st.total ∧ st.instr.op = .lw) ∧
    (let st := holding (.lw 1 0 4) 0 1 1 8 0; 0 < st.rem ∧ st.rem ≠ st.total) ∧
    (let st := holding (.add 1 2 3) 0 1 1 8 0
     0 < st.rem ∧ st.rem = st.total ∧ st.instr.op ≠ .lw ∧ st.instr.op ≠ .sw) := by decide

/-- For `LoadWaitsForOlderStores` and `StoreExecutesIntoTheQueue`: a closed gate, the gate opened by the
parameter, and by a queue whose only store is younger. -/
theorem witness_load_gate :
    (let s := completing (.execute .ls 0) .olderStores [⟨1, .store, none, none, false⟩, ⟨2, .load, none, none, false⟩]
     s.stage = .execute .ls 0 ∧
     s.station? .ls 0 = some { holding (.lw 1 2 4) 4 2 0 8 0 with ea := some 12 } ∧
     s.cfg.loadGate = .olderStores ∧
     s.lsq = [] ++ ⟨1, .store, none, none, false⟩ :: [⟨2, .load, none, none, false⟩]) ∧
    (completing (.execute .ls 0) .none []).cfg.loadGate = .none ∧
    (let s := completing (.execute .ls 0) .olderStores [⟨2, .load, none, none, false⟩, ⟨3, .store, none, none, false⟩]
     ∀ q ∈ s.lsq.takeWhile (fun x => x.tag != 2), q.kind = .load) := by decide

/-- For the clause on `LW` of `CommitWritesTheRegister`. -/
theorem witness_commit_load :
    vlu.lsq = ⟨1, .load, some 0, none, true⟩ :: [] ∧ (0 : Word).toNat % 4 = 0 ∧
    (0 : Word).toNat / 4 < vlu.cfg.memWords := by decide

/-- A machine whose head is a store in commit, to the last word of memory. -/
def committing : State :=
  { machine [] with
    rob := [entry (.sw 1 2 0) 0 1 true 7]
    lsq := [⟨1, .store, some 0x3FFFC, some 7, true⟩]
    stage := .commit }

/-- For `CommitStoresTheWord`. -/
theorem witness_commit_store :
    committing.stage = .commit ∧ committing.rob = entry (.sw 1 2 0) 0 1 true 7 :: [] ∧
    committing.lsq = ⟨1, .store, some 0x3FFFC, some 7, true⟩ :: [] ∧ committing.mem.wf = true ∧
    (0x3FFFC : Word).toNat % 4 = 0 ∧ (0x3FFFC : Word).toNat / 4 < committing.cfg.memWords := by decide

/-- For `MemoryCommitStalls`: no entry, another entry first, an unresolved entry. -/
theorem witness_stall :
    ({ committing with lsq := [] } : State).lsq = [] ∧ committing.fault = none ∧
    ({ committing with lsq := [⟨2, .load, none, none, true⟩] } : State).lsq = [⟨2, .load, none, none, true⟩] ∧
    2 ≠ (entry (.sw 1 2 0) 0 1 true 7).tag ∧
    (entry (.sw 1 2 0) 0 1 true 7).ready = true ∧ (entry (.sw 1 2 0) 0 1 true 7).op = .sw ∧
    (⟨1, .store, none, none, false⟩ : LsqEntry).memReady = false := by decide

/-- For `BadAddressLatchesTheFault`: a misaligned address, and the first one out of range. -/
theorem witness_bad_address :
    badHead.Admitted ∧ badHead.fault = none ∧ badHead.stage = .reference ∧
    badHead.rob = entry (.sw 0 1 2) 0 1 true 0 :: [] ∧ (entry (.sw 0 1 2) 0 1 true 0).ready = true ∧
    (entry (.sw 0 1 2) 0 1 true 0).op = .sw ∧ badHead.lsq = ⟨1, .store, some 2, some 0, true⟩ :: [] ∧
    (2 : Word).toNat % 4 ≠ 0 ∧ badHead.cfg.memWords ≤ (0x40000 : Word).toNat / 4 := by decide

/-- For `FaultedStateIsAbsorbing`. -/
theorem witness_faulted : (stepped badHead).Admitted ∧ (stepped badHead).fault ≠ none := by decide

/-- For `MispredictFlushes`: predicted not taken and taken (`s3`), and an entry for the other way round. -/
theorem witness_mispredict :
    s3.Admitted ∧ s3.fault = none ∧ s3.rob = { entry (.beq 1 1 8) 4 2 true 1 with target := 12 } :: s3.rob.tail ∧
    (entry (.beq 1 1 8) 4 2 true 1).ready = true ∧ (entry (.beq 1 1 8) 4 2 true 1).op = .beq ∧
    (entry (.beq 1 1 8) 4 2 true 1).pred ≠ decide ((entry (.beq 1 1 8) 4 2 true 1).result = 1) ∧
    (let e := { entry (.bne 1 1 8) 4 2 true 0 with pred := true }
     e.ready = true ∧ e.op = .bne ∧ e.pred ≠ decide (e.result = 1)) := by decide

/-- For `CorrectBranchRetires`, both directions. -/
theorem witness_correct_branch :
    (let e := { entry (.beq 1 1 8) 4 2 true 1 with pred := true }
     let s : State := { s3 with rob := [e], stage := .commit }
     s.stage = .commit ∧ s.rob = e :: [] ∧ e.pred = decide (e.result = 1)) ∧
    (entry (.bne 1 1 8) 4 2 true 0).pred = decide ((entry (.bne 1 1 8) 4 2 true 0).result = 1) := by decide

/-- For the statements about any step: a step that commits, and one that flushes. -/
theorem witness_step_next : vlu.Admitted ∧ vlu.fault = none ∧ step vlu = .next (stepped vlu) ∧
    s3.Admitted ∧ s3.fault = none ∧ step s3 = .next (stepped s3) :=
  ⟨rfl, rfl, rfl, rfl, rfl, rfl⟩

/-- Three ready heads, a mispredicted branch the last, under COMMIT_WIDTH = 3. -/
def threeReady (a : Word) : State :=
  { machine [.add 1 2 3, .sw 0 1 4, .beq 0 0 8] with
    cfg := { width := 3, commitWidth := 3 }
    rob := [entry (.add 1 2 3) 0 1 true 5, entry (.sw 0 1 4) 4 2 true 7,
      { entry (.beq 0 0 8) 8 3 true 1 with target := 16 }]
    lsq := [⟨2, .store, some a, some 7, true⟩] }

-- R269, R270: one step commits two entries and flushes at the third; a bad address ends it after the first
theorem test_commit_width :
    (let t := stepped (threeReady 4)
     t.counters.committed = 2 ∧ t.counters.flushes = 1 ∧ t.pc = 16 ∧ t.arf[(1 : Reg)] = 5 ∧ memWord t.mem 1 = 7) ∧
    (let t := stepped (threeReady 6)
     t.counters.committed = 1 ∧ t.fault = some (.memMisaligned 4 6) ∧ t.mem = [] ∧ t.counters.flushes = 0) := by
  decide

/-- For `WidthsBoundTheStep`: a step that issues nothing (`vlu`), a fault after one commit, an attempt
that retires and one that aborts; for a head that is not ready see `witness_behind`. -/
theorem witness_widths :
    (stepped vlu).nextTag < vlu.nextTag + vlu.cfg.width ∧
    (threeReady 6).Admitted ∧ (threeReady 6).fault = none ∧ step (threeReady 6) = .next (stepped (threeReady 6)) ∧
    (stepped (threeReady 6)).counters.committed = (threeReady 6).counters.committed + 1 ∧
    (threeReady 6).lsq[((threeReady 6).rob.take 1).countP (fun e => e.op = .lw ∨ e.op = .sw)]? =
      some ⟨2, .store, some 6, some 7, true⟩ ∧
    (ran (.add 1 2 3) ((threeReady 6).atStage .commit)).counters.committed = 1 ∧
    (ran (.sw 0 1 2) (badHead.atStage .commit)).fault ≠ none :=
  ⟨by decide, rfl, rfl, rfl, rfl, rfl, rfl, by decide⟩

/-- For `OnlyStoreCommitsChangeMemory`, `OnlyWritersChangeARegister` and `OnlyBranchesTrainThePredictor`. -/
theorem witness_not_committed :
    let took := (stepped vlu).counters.committed - vlu.counters.committed
    step vlu = .next (stepped vlu) ∧ vlu.rob.take took = [entry (.lw 1 0 0) 0 1 true 21] ∧
    (stepped vlu).counters.flushes = vlu.counters.flushes ∧ Op.lw ≠ .sw ∧ (1 : Reg) ≠ 2 ∧
    Op.lw ≠ .beq ∧ Op.lw ≠ .bne :=
  ⟨rfl, rfl, rfl, by decide, by decide, by decide, by decide⟩

/-- A store and a branch, both ready, behind a head that is not, with COMMIT_WIDTH = 2. -/
def behind : State :=
  { machine [.add 1 2 3, .sw 0 1 4, .beq 0 0 8] with
    cfg := { commitWidth := 2 }
    rob := [entry (.add 1 2 3) 0 1 false 0, entry (.sw 0 1 4) 4 2 true 7, entry (.beq 0 0 8) 8 3 true 1]
    lsq := [⟨2, .store, some 4, some 7, true⟩] }

/-- For the same three: nothing behind a head that is not ready takes part (R260). -/
theorem witness_behind : step behind = .next (stepped behind) ∧
    (stepped behind).counters.committed - behind.counters.committed = 0 ∧
    (stepped behind).counters.flushes - behind.counters.flushes = 0 ∧
    (stepped behind).mem = behind.mem ∧ (stepped behind).bp = behind.bp := ⟨rfl, rfl, rfl, rfl, rfl⟩

/-- For `PredictorUpdateMovesOneCounter`: a saturated counter and a zero one. -/
theorem witness_predictor :
    (let p : Predictor := ⟨1, [(4, 3), (5, 0)]⟩
     sparseWf weaklyNotTaken p.pht = true ∧ (∀ c ∈ p.pht, c.1 < 1024) ∧
     (5 : BitVec 10) = ((4 : Word) ^^^ p.ghr.setWidth 32).extractLsb' 0 10 ∧
     (4 : BitVec 10) = ((5 : Word) ^^^ p.ghr.setWidth 32).extractLsb' 0 10) := by decide

/-- A cache with address 0 in way 0 and address 2048 in way 1 of set 0. -/
def warm : Cache := (Cache.access 1 10 2048 true (Cache.access 1 10 0 false .reset).1).1

/-- For `CacheAccessHitsOrFills`: a hit in each way, and a miss that replaces the older one; the tie and
the empty set are `Cache.reset`. -/
theorem witness_cache :
    (0 : Fin 32).val = ((4 : Word).extractLsb' 6 5).toNat ∧ (0 : BitVec 21) = (4 : Word).extractLsb' 11 21 ∧
    (0 : Fin 32).val = ((2052 : Word).extractLsb' 6 5).toNat ∧ (1 : BitVec 21) = (2052 : Word).extractLsb' 11 21 ∧
    (31 : Fin 32).val = ((0xFFFFFFFF : Word).extractLsb' 6 5).toNat ∧
    (warm.sets[(0 : Fin 32)]).way0.valid = true ∧ (warm.sets[(0 : Fin 32)]).way0.tag = 0 ∧
    (warm.sets[(0 : Fin 32)]).way1.valid = true ∧ (warm.sets[(0 : Fin 32)]).way1.tag = 1 ∧
    (warm.access 1 10 4096 false).2 = (false, 11) ∧ (Cache.reset.access 1 10 4096 false).2 = (false, 11) ∧
    (warm.sets[(0 : Fin 32)]).way0.lru ≤ (warm.sets[(0 : Fin 32)]).way1.lru := by decide

-- R301: index a[10:6] and tag a[31:11], at the ends of both fields
theorem test_cache_bits : [(0x3F : Word), 0x40, 0x7C0, 0x800, 0x80000000].map
    (fun a => ((cacheIndex a).val, (cacheTag a).toNat)) =
  [(0, 0), (1, 0), (31, 0), (0, 1), (0, 0x100000)] := by decide

/-- For `StepRefusesExactlyTheIllFormed`: both sides occur. -/
theorem witness_refused :
    (Config.default.wf = true ∧ (machine [.nop]).program.wf .nop = true) ∧
    ¬ (({ latAlu := 0 } : Config).wf = true) ∧ ¬ (({ nreg := 16 } : Config).wf = true) := by decide

/-- For `StepRunsTheDecodedInstruction`: after reset, at the first word. -/
theorem witness_step_runs :
    let s := machine [.addi 1 0 5, .addi 2 0 7]
    s.Admitted ∧ s.fault = none ∧ commitStage s.cfg.commitWidth s.beginCycle = .next (s.beginCycle, false) ∧
    executeStage s.beginCycle = .next s.beginCycle ∧ s.beginCycle.cfg.width = 1 + 1 ∧
    s.beginCycle.rob.length < s.beginCycle.cfg.robSize ∧
    s.beginCycle.program.lookup s.beginCycle.pc = some ⟨0, .addi, 1, 0, 0, 5⟩ ∧
    ((if Op.addi = .lw ∨ Op.addi = .sw then s.beginCycle.ls else s.beginCycle.alu)[0]?).map Station.busy =
      some false ∧
    exec (.addi 1 0 5) (s.beginCycle.atStage (.issue 0)) =
      .next (ran (.addi 1 0 5) (s.beginCycle.atStage (.issue 0))) ∧
    issueStage 1 (ran (.addi 1 0 5) (s.beginCycle.atStage (.issue 0))) =
      .next (ran (.addi 2 0 7) ((ran (.addi 1 0 5) (s.beginCycle.atStage (.issue 0))).atStage (.issue 1))) :=
  ⟨rfl, rfl, rfl, rfl, rfl, by decide, rfl, rfl, rfl, rfl⟩

/-- A machine drained after a run. -/
def drained : State :=
  { machine [.addi 1 0 5, .addi 2 0 7, .add 3 1 2] with
    pc := 12, nextTag := 4
    counters := { Counters.reset with cycle := 5, committed := 3 } }

theorem drained_drained : drained.Drained :=
  ⟨rfl, rfl, by decide, by decide, rfl, rfl⟩

theorem drained_components : drained.ComponentInv := by
  constructor <;> decide

theorem drained_core : drained.CoreInv := by
  constructor <;> decide

/-- For `DrainedStepIssuesTheFetchedWord`. -/
theorem witness_drained : (drained.withFetchWord 32 0x002081B3).Admitted ∧
    decode 0x002081B3 = some (.add 3 1 2) := ⟨rfl, by decide⟩

/-- For `HaltedStepOnlyCountsTheCycle`. -/
theorem witness_halted : drained.Admitted ∧ drained.halted = true := ⟨rfl, rfl⟩

/-- For `ZeroRegisterIsKept` and the kept invariants, in states in the middle of a run. -/
theorem witness_core_inv : vlu.CoreInv ∧ vsl.CoreInv ∧ s3.CoreInv := by
  refine ⟨?_, ?_, ?_⟩ <;> constructor <;> decide

theorem witness_component_inv : vlu.ComponentInv := by
  constructor <;> decide

/-- For `InvariantsHoldAtReset`. -/
theorem witness_start : startRefusal Config.default (Program.ofInstrs 0 [.nop]) = none := rfl

/-- For `HeadAlwaysProgresses`: a ready head (`vlu`) and one that is not (`vsl`). -/
theorem witness_head :
    vlu.rob = entry (.lw 1 0 0) 0 1 true 21 :: vlu.rob.tail ∧ step vlu = .next (stepped vlu) ∧
    vsl.Admitted ∧ vsl.fault = none ∧ vsl.rob = entry (.sw 0 1 4) 4 2 false 0 :: vsl.rob.tail ∧
    step vsl = .next (stepped vsl) := ⟨rfl, rfl, rfl, rfl, rfl, rfl⟩

/-- For `AloneInstructionReachesItsEffect`. -/
theorem witness_alone :
    let s := machine [.lw 1 0 0]
    s.Drained ∧ s.ComponentInv ∧ s.Admitted ∧ s.program.lookup s.pc = some ⟨0, .lw, 1, 0, 0, 0⟩ ∧
    Op.lw ≠ .beq ∧ Op.lw ≠ .bne ∧ refStep s = .next (ran (.lw 1 0 0) s) ∧
    s.program.lookup (ran (.lw 1 0 0) s).pc = none :=
  ⟨⟨rfl, rfl, by decide, by decide, rfl, rfl⟩, by constructor <;> decide, rfl, rfl, by decide, by decide, rfl, rfl⟩

/-- `vlu` with the word its load read in memory. -/
def following : State := { vlu with mem := [(0, 21)] }

/-- The reference where the load is next. -/
def followed : State := { machine [.lw 1 0 0, .add 2 1 1] with mem := [(0, 21)] }

theorem following_young : Youngest following.rob 1 2 1 :=
  ⟨by decide, by decide, by unfold RobEntry.Writes; decide, by unfold RobEntry.Writes; decide⟩

theorem following_slot : SlotOk following.rob (following.dataBefore 2) 1 2 0 (some 1) :=
  ⟨by simp, fun x hx => by cases hx; exact following_young⟩

/-- For `StepFollowsTheReference`: a load that is ready at the head, an `ADD` that waits for it. -/
theorem witness_follows : following.DataInv ∧ following.CoreInv ∧ following.cfg.loadGate = .olderStores ∧
    Tracks followed following ∧ following.fault = none ∧ step following = .next (stepped following) := by
  refine ⟨⟨?_, by decide, ⟨rfl, rfl, trivial⟩, ?_, by decide, by decide, by unfold RobEntry.Writes; decide⟩,
    by constructor <;> decide, rfl, ⟨rfl, rfl, rfl, rfl, rfl⟩, rfl, rfl⟩
  · have h : ∀ e ∈ following.rob, (following.program.lookup e.pc).isSome = true ∧
        (instrAt following.program e.pc).op = e.op ∧ (instrAt following.program e.pc).rd = e.rd := by decide
    exact fun e he => ⟨Option.isSome_iff_exists.1 (h e he).1, (h e he).2⟩
  · have h : ∀ st ∈ following.stations, st.busy = true → st.instr = (Instr.add 2 1 1).record 4 ∧ st.dest = 2 ∧
        st.vj = 0 ∧ st.vk = 0 ∧ st.qj = some 1 ∧ st.qk = some 1 := by decide
    intro st hst hb
    obtain ⟨h1, h2, h3, h4, h5, h6⟩ := h st hst hb
    rw [h1, h2, h3, h4, h5, h6]
    exact ⟨following_slot, following_slot⟩

/-- For `CoreStateIsAReferencePrefix`: a state after the reset state. -/
theorem witness_reachable : Config.default.loadGate = .olderStores ∧
    Reachable Config.default (Program.ofInstrs 0 [.nop]) (stepped (machine [.nop])) :=
  ⟨rfl, .step (machine [.nop]) _ .reset rfl⟩

/-- For `CoreEndsAsTheReferenceEnds`: a program whose reference ends, and one whose reference faults. -/
theorem witness_reference_ends :
    startRefusal Config.default (Program.ofInstrs 0 [.nop]) = none ∧
    refRun 1 (machine [.nop]) = .next (ran .nop (machine [.nop])) ∧
    (ran .nop (machine [.nop])).refEnded = true ∧
    refRun 0 (machine [.lw 1 0 2]) = .next (machine [.lw 1 0 2]) ∧
    refStep (machine [.lw 1 0 2]) = .fault (.memMisaligned 0 2) := ⟨rfl, rfl, rfl, rfl, rfl⟩

end Sys2Proof.Tests
end

section
/-! The outcome of a step against the checks before a run (spec/60_exceptions.md R329). -/

namespace Sys2Proof.Machine

/-- R187: the latched fault is no outcome of the step; the faulted machine goes on as it is. -/
theorem step_of_faulted {s : State} (ha : s.Admitted) (hf : s.fault ≠ none) : step s = .next s := by
  have ha' : startRefusal s.cfg s.program = none := ha
  have hf' : s.fault.isSome = true := Option.isSome_iff_ne_none.2 hf
  simp only [step, ha', hf', if_true]

theorem step_of_refusal {s : State} {r : Refusal} (h : startRefusal s.cfg s.program = some r) :
    step s = .refused r := by
  simp only [step, h]

/-- The step has no third outcome on an admitted machine: no stage ends in a fault or a refusal. -/
theorem State.Admitted.step_next {s : State} (ha : s.Admitted) : ∃ t, step s = .next t := by
  by_cases hf : s.fault = none
  · obtain ⟨t, ht, -⟩ := step_total s ha hf
    exact ⟨t, ht⟩
  · exact ⟨s, step_of_faulted ha hf⟩

theorem step_next_iff (s : State) : (∃ t, step s = .next t) ↔ s.Admitted :=
  ⟨fun ⟨_, ht⟩ => (step_cases ht).1, State.Admitted.step_next⟩

theorem step_refused_iff (s : State) : (∃ r, step s = .refused r) ↔ ¬ s.Admitted := by
  constructor
  · rintro ⟨r, hr⟩ ha
    obtain ⟨t, ht⟩ := ha.step_next
    cases hr.symm.trans ht
  · intro hn
    obtain ⟨r, hr⟩ := Option.ne_none_iff_exists'.1 hn
    exact ⟨r, step_of_refusal hr⟩

/-- Settles O46: a step answers exactly on the admitted machines and refuses on all others, and the
admitted machines are those that meet R8 and R115. -/
theorem stepRefusesExactlyTheIllFormed : Obligations.StepRefusesExactlyTheIllFormed := by
  intro s
  rw [← startRefusal_none]
  exact ⟨step_next_iff s, step_refused_iff s⟩

end Sys2Proof.Machine
end

section
/-! What a step keeps: parameters and program store, the invariants of spec/10_state.md R41 and those of
the components, and that they hold after reset. -/

namespace Sys2Proof.Machine

variable {s t : State}

/-! ### The frames of Commit and Issue, by field -/

theorem Committed.cfg {n : Nat} {b : Bool} (c : Committed n s t b) : t.cfg = s.cfg := c.frame.1

theorem Committed.program {n : Nat} {b : Bool} (c : Committed n s t b) : t.program = s.program :=
  c.frame.2.1

theorem Committed.nextTag {n : Nat} {b : Bool} (c : Committed n s t b) : t.nextTag = s.nextTag :=
  c.frame.2.2.1

theorem Issued.cfg {n : Nat} (c : Issued n s t) : t.cfg = s.cfg := c.frame.1

theorem Issued.program {n : Nat} (c : Issued n s t) : t.program = s.program := c.frame.2.1

theorem Issued.arf {n : Nat} (c : Issued n s t) : t.arf = s.arf := c.frame.2.2.1

theorem Issued.mem {n : Nat} (c : Issued n s t) : t.mem = s.mem := c.frame.2.2.2.1

theorem Issued.counters {n : Nat} (c : Issued n s t) : t.counters = s.counters :=
  c.frame.2.2.2.2.2.2.1

theorem Issued.fault {n : Nat} (c : Issued n s t) : t.fault = s.fault := c.frame.2.2.2.2.2.2.2.1

/-! ### Parameters and program store -/

theorem Retires.fixed {h : RobEntry} (r : Retires h s t) : t.cfg = s.cfg ∧ t.program = s.program := by
  cases r <;> simp

theorem Aborts.fixed {h : RobEntry} (a : Aborts h s t) : t.cfg = s.cfg ∧ t.program = s.program := by
  cases a <;> simp

/-- A state that passes the checks before the run still does with other contents. -/
theorem State.Admitted.of_fixed (ha : s.Admitted) (h : t.cfg = s.cfg ∧ t.program = s.program) :
    t.Admitted := by
  rw [State.Admitted, h.1, h.2]; exact ha

theorem Cycled.fixed (c : Cycled s t) : t.cfg = s.cfg ∧ t.program = s.program := by
  cases c with
  | aborted u hc => exact ⟨hc.cfg, hc.program⟩
  | full u v w hc he hi =>
    exact ⟨hi.cfg.trans (he.frame.cfg.trans hc.cfg),
      hi.program.trans (he.frame.program.trans hc.program)⟩

/-- Settles O47: the frame of each stage holds them (R35, R43). -/
theorem parametersAndProgramAreFixed : Obligations.ParametersAndProgramAreFixed := by
  intro s t hstep
  obtain ⟨-, ⟨-, rfl⟩ | ⟨-, c⟩⟩ := step_cases hstep
  · exact ⟨rfl, rfl⟩
  · exact c.fixed

/-! ### The core -/

/-- An issue attempt keeps the invariants: it takes a free station, and what issues has a latency of at
least 1, by the checks before the run (R8). -/
theorem State.CoreInv.next_issue (hi : s.CoreInv) (ha : s.Admitted) {i : Instr} {k : Nat}
    (hn : s.nextIssue = some (i, k)) (b : Bool) (n : Word) : (s.issue i k b n).CoreInv := by
  obtain ⟨-, -, ⟨st, hs, hb⟩, -⟩ := nextIssue_some hn
  exact hi.issue hs hb (ha.latency i.op)

/-- Settles O55: each part of a step keeps the invariants, under the checks before the run, which it
keeps too. -/
theorem coreInvariantsAreKept : Obligations.CoreInvariantsAreKept := by
  intro s t hi ha hstep
  refine (step_keeps (P := fun u => u.CoreInv ∧ u.Admitted) ?_ ?_ ?_ ?_ ?_ ?_ ?_ hstep ⟨hi, ha⟩).1
  · exact fun u hu => ⟨hu.1.beginCycle, hu.2⟩
  · exact fun u hu => ⟨hu.1.endCycle, hu.2⟩
  · exact fun u x hu => ⟨hu.1.atStage x, hu.2⟩
  · exact fun h tl u v hu hr hd hab => ⟨hu.1.aborts hab, hu.2.of_fixed hab.fixed⟩
  · exact fun h tl u v hu hr hd hre => ⟨hu.1.retires hr hd hre, hu.2.of_fixed hre.fixed⟩
  · exact fun p k u v hu hv => ⟨hu.1.visited hv, hu.2.of_fixed ⟨hv.frame.cfg, hv.frame.program⟩⟩
  · exact fun u i k hu hn => ⟨hu.1.next_issue hu.2 hn _ _, hu.2.of_fixed ⟨by simp, by simp⟩⟩

/-! ### Register 0 -/

theorem State.ZeroRegister.of_eq (hz : s.ZeroRegister) (ha : t.arf[(0 : Reg)] = s.arf[(0 : Reg)])
    (hr : t.rat[(0 : Reg)] = s.rat[(0 : Reg)]) : t.ZeroRegister :=
  ⟨ha.trans hz.1, hr.trans hz.2⟩

theorem State.ZeroRegister.retires (hz : s.ZeroRegister) {h : RobEntry} (r : Retires h s t) :
    t.ZeroRegister := by
  cases r with
  | writing | load =>
    exact hz.of_eq (by simpa using commitReg_arf_zero s h.rd h) (by simpa using commitReg_rat_zero s h.rd h)
  | branch | store | plain => exact hz.of_eq (by simp) (by simp)

theorem State.ZeroRegister.aborts (hz : s.ZeroRegister) {h : RobEntry} (a : Aborts h s t) :
    t.ZeroRegister := by
  cases a with
  | fault => exact hz.of_eq rfl rfl
  | flush => exact ⟨hz.1, by simp⟩

theorem State.ZeroRegister.issue (hz : s.ZeroRegister) (i : Instr) (k : Nat) (b : Bool) (n : Word) :
    (s.issue i k b n).ZeroRegister := by
  refine hz.of_eq (by simp) ?_
  rw [State.issue_rat, ratName_getElem]
  simp

/-- Settles O52: commit and rename pass over register 0 (R22, R212, R264). -/
theorem zeroRegisterIsKept : Obligations.ZeroRegisterIsKept := by
  intro s t hz hstep
  refine step_keeps (P := State.ZeroRegister) ?_ ?_ ?_ ?_ ?_ ?_ ?_ hstep hz
  · exact fun u hu => hu
  · exact fun u hu => hu
  · exact fun u x hu => hu
  · exact fun h tl u v hu hr hd hab => hu.aborts hab
  · exact fun h tl u v hu hr hd hre => hu.retires hre
  · exact fun p k u v hu hv => hu.of_eq (by rw [hv.frame.arf]) (by rw [hv.frame.rat])
  · exact fun u i k hu hn => hu.issue i k _ _

/-! ### The components -/

/-- Settles O54: each part of a step keeps the components in order, and the end of the cycle puts the
stage at rest (log 2). -/
theorem componentInvariantsAreKept : Obligations.ComponentInvariantsAreKept := by
  intro s t hc hstep
  have hparts : t.PartsInv := by
    refine step_keeps (P := State.PartsInv) ?_ ?_ ?_ ?_ ?_ ?_ ?_ hstep hc.parts
    · exact fun u hu => hu.beginCycle
    · exact fun u hu => hu.endCycle
    · exact fun u x hu => hu.atStage x
    · exact fun h tl u v hu hr hd hab => hu.aborts hab
    · exact fun h tl u v hu hr hd hre => hu.retires hre
    · exact fun p k u v hu hv => hu.visited hv
    · exact fun u i k hu hn => hu.issue (nextIssue_some hn).1
  refine hparts.components ?_
  obtain ⟨-, ⟨-, rfl⟩ | ⟨-, c⟩⟩ := step_cases hstep
  · exact hc.atRest
  · cases c <;> rfl

/-! ### Reset -/

/-- The invariants of a machine with nothing in flight. -/
theorem State.CoreInv.empty (hrob : s.rob = []) (hlsq : s.lsq = [])
    (hst : ∀ st ∈ s.stations, st.busy = false) (hrat : ∀ i : Reg, s.rat[i] = .architectural)
    (htag : s.TagsAccounted) (hz : s.arf[(0 : Reg)] = 0) : s.CoreInv := by
  have hidle : ∀ {P : Station → Prop}, ∀ st ∈ s.stations, st.busy = true → P st := by
    intro P st hm hb
    rw [hst st hm] at hb
    cases hb
  refine ⟨?_, ?_, hidle, ?_, ?_, hidle, ?_, htag, ⟨hz, hrat 0⟩, ?_, ?_, hidle⟩
  · simp [State.TagsRise, hrob]
  · simp [State.TagsIssued, hrob]
  · intro i x hx; simp [hrat i, RatEntry.tag?] at hx
  · simp [State.LsqMatchesRob, hrob, hlsq]
  · simp [State.OneStationEach, hrob]
  · simp [State.MemReadyAgrees, hlsq]
  · simp [State.LsqResolved, hlsq]

theorem resetWith_idle (c : Config) (p : Program) :
    ∀ st ∈ (State.resetWith c p).stations, st.busy = false := by
  intro st hst
  simp only [State.stations, State.resetWith, List.mem_append, List.mem_replicate] at hst
  rcases hst with ⟨-, rfl⟩ | ⟨-, rfl⟩ <;> rfl

theorem resetWith_coreInv (c : Config) (p : Program) : (State.resetWith c p).CoreInv :=
  .empty rfl rfl (resetWith_idle c p) (fun i => by simp [State.resetWith])
    (by simp [State.TagsAccounted, State.resetWith, Counters.reset]) (by simp [State.resetWith])

theorem resetWith_componentInv (c : Config) (p : Program) (h : startRefusal c p = none) :
    (State.resetWith c p).ComponentInv := by
  have hc := ((startRefusal_none c p).1 h).1
  obtain ⟨-, -, -, -, -, -, -, -, -, -, -, hwf, hrange⟩ := Config.wf_parts hc
  exact ⟨hwf, hrange, by simp [State.resetWith], by simp [State.resetWith], Nat.zero_le _,
    Cache.reset_ok, Cache.reset_ok, Predictor.reset_ok, rfl⟩

/-- Settles O53: nothing is in flight at reset, and the components are in order (R44). -/
theorem invariantsHoldAtReset : Obligations.InvariantsHoldAtReset := fun c p =>
  ⟨resetWith_coreInv c p, .empty rfl (resetWith_idle c p), resetWith_componentInv c p⟩

end Sys2Proof.Machine
end

section
/-! What a step does to the ROB, and what only the commit of an entry changes (spec/53_commit_flush.md
R260 to R273). -/

namespace Sys2Proof.Machine

variable {s t : State}

/-! ### Variants -/

theorem Op.isMem_iff (o : Op) : o.isMem = true ↔ o = .lw ∨ o = .sw := by cases o <;> decide

theorem Op.isCondBranch_iff (o : Op) : o.isCondBranch = true ↔ o = .beq ∨ o = .bne := by
  cases o <;> decide

theorem Op.writesReg_iff (o : Op) :
    o.writesReg = true ↔ o ∈ [Op.add, .sub, .and, .or, .xor, .slt, .addi, .lw] := by
  cases o <;> decide

theorem State.pool_of_op (s : State) (o : Op) :
    s.pool o.pool = if o = .lw ∨ o = .sw then s.ls else s.alu := by
  cases o <;> rfl

/-! ### Rename -/

/-- A source whose producer is in the ROB takes its result, or waits for it (R206). -/
theorem State.rename_renamed (s : State) {i : Reg} {p : Nat} {e : RobEntry} (hi : i ≠ 0)
    (hr : s.rat[i] = .renamed p) (hf : robFind s.rob p = some e) :
    s.rename i = if e.ready then (e.result, none) else (0, some p) := by
  simp only [State.rename, hi, if_false, hr, hf]

/-- Settles O18: the branches of `State.rename` (R206), with register 0 hard-wired (R22, log 15). -/
theorem renameReadsTheNewestProducer : Obligations.RenameReadsTheNewestProducer := by
  refine fun s => ⟨s.rename_zero, fun i hi =>
    ⟨fun ha => ?_, fun p e hr hf hd => ?_, fun p e hr hf hd => ?_⟩⟩
  · simp only [State.rename, hi, if_false, ha]
  · rw [s.rename_renamed hi hr hf, if_pos hd]
  · rw [s.rename_renamed hi hr hf, hd]
    rfl

/-- A step of a machine without a fault is one cycle (R180, R187). -/
theorem step_cycled (hf : s.fault = none) (h : step s = .next t) : Cycled s t :=
  ((step_cases h).2.resolve_left fun hc => hc.1 hf).2

/-! ### Only a commit changes memory and registers -/

/-- Settles O38: of the commits only that of a store writes memory (R265). -/
theorem onlyStoreCommitsChangeMemory : Obligations.OnlyStoreCommitsChangeMemory := by
  intro s t hstep hq
  refine step_unchanged State.mem (fun e => e.op = .sw) (fun _ => False) (fun _ _ => rfl) (fun _ => rfl)
    (fun _ => rfl) (fun _ _ hx => hx.mem) (fun _ _ _ hi => hi.mem) ?_ ?_ hstep hq
    (fun _ _ => id)
  · intro h u v ha
    cases ha <;> exact .inl rfl
  · intro h u v hr
    cases hr with
    | store ho => exact .inr ho
    | branch | writing | load | plain => exact .inl (by simp)

theorem commitReg_arf_ne (s : State) {rd r : Reg} (h : RobEntry) (hr : ¬ (rd = r ∧ r ≠ 0)) :
    (s.commitReg rd h).arf[r] = s.arf[r] := by
  unfold State.commitReg
  split
  · rfl
  · rename_i h0
    have : (rd : Nat) ≠ (r : Nat) := fun hv => hr ⟨Fin.ext hv, Fin.ext hv ▸ h0⟩
    simp [this]

/-- A retiring commit writes no register but the entry's destination, if the entry writes one. -/
theorem Retires.arf {h : RobEntry} (hu : Retires h s t) (r : Reg) :
    t.arf[r] = s.arf[r] ∨ (h.rd = r ∧ r ≠ 0 ∧ h.op.writesReg = true) := by
  have hreg : h.op.writesReg = true → (s.commitReg h.rd h).arf[r] = s.arf[r] ∨
      (h.rd = r ∧ r ≠ 0 ∧ h.op.writesReg = true) := fun hw => by
    by_cases hr : h.rd = r ∧ r ≠ 0
    · exact .inr ⟨hr.1, hr.2, hw⟩
    · exact .inl (commitReg_arf_ne s h hr)
  cases hu with
  | writing hw => exact hreg hw
  | load ho => exact hreg (by rw [ho]; rfl)
  | branch | store | plain => exact .inl rfl

/-- Settles O39: of the commits only that of an entry with the register as its destination writes it, and
none writes register 0 (R22, R264). -/
theorem onlyWritersChangeARegister : Obligations.OnlyWritersChangeARegister := by
  intro s t r hstep hq
  refine step_unchanged (fun u => u.arf[r]) (fun e => e.rd = r ∧ r ≠ 0 ∧ e.op.writesReg = true)
    (fun _ => False) (fun _ _ => rfl) (fun _ => rfl) (fun _ => rfl) (fun _ _ hx => by rw [hx.arf])
    (fun _ _ _ hi => by rw [hi.arf]) ?_ (fun _ _ _ hr => hr.arf r) hstep ?_ (fun _ _ => id)
  · intro h u v ha
    cases ha <;> exact .inl rfl
  · rintro e he ⟨hrd, h0, hw⟩
    exact hq e he hrd h0 ((Op.writesReg_iff e.op).1 hw)

/-! ### The queue -/

/-- The entries a Commit stage retires, `m` of them, were ready and no mispredicted branch (R263). -/
theorem Committed.retired {n m : Nat} {b : Bool} (c : Committed n s t b)
    (hm : t.counters.committed = s.counters.committed + m) :
    ∀ e ∈ s.rob.take m, e.ready = true ∧
      ((e.op = .beq ∨ e.op = .bne) → e.pred = decide (e.result = 1)) := by
  obtain rfl : t.counters.committed - s.counters.committed = m := by omega
  exact fun e he => ⟨c.ready.1 e he, fun ho => c.predicted.1 e he ((Op.isCondBranch_iff e.op).2 ho)⟩

/-- A Commit stage flushes at a ready, mispredicted branch behind the `m` entries it retires, and fetch
goes on at its target (R263, R272). -/
theorem Committed.flushedAt {n m : Nat} {b : Bool} (c : Committed n s t b)
    (hm : t.counters.committed = s.counters.committed + m)
    (hf : t.counters.flushes ≠ s.counters.flushes) :
    ∃ e, s.rob[m]? = some e ∧ e.ready = true ∧ (e.op = .beq ∨ e.op = .bne) ∧
      e.pred ≠ decide (e.result = 1) ∧ t.pc = e.target := by
  obtain rfl : t.counters.committed - s.counters.committed = m := by omega
  obtain ⟨e, he, hd, hb, hp⟩ := c.ready.2 hf
  exact ⟨e, he, hd, (Op.isCondBranch_iff e.op).1 hb, hp, c.predicted.2 hf e he⟩

/-- Execute and Issue leave the counters to Commit, and Issue appends entries with the next tags to the
ROB, of which Execute keeps what Issue set. -/
theorem backEnd_queue {n : Nat} {l : List (PoolId × Nat)} {u : State} (he : Scanned l s u)
    (hi : Issued n u t) : t.counters = s.counters ∧ ∃ new : List (Nat × Op × Reg × Word × Bool),
      t.nextTag = s.nextTag + new.length ∧
      new.map (·.1) = (List.range new.length).map (s.nextTag + ·) ∧
      t.rob.map RobEntry.identity = s.rob.map RobEntry.identity ++ new := by
  obtain ⟨-, -, -, -, -, -, -, -, -, new, -, hrob, htag, hnew⟩ := hi.frame
  rw [he.frame.nextTag] at htag hnew
  refine ⟨hi.counters.trans he.frame.counters, new.map RobEntry.identity, by simpa using htag, ?_, ?_⟩
  · rw [List.length_map, ← hnew, List.map_map]
    rfl
  · rw [hrob, List.map_append, he.frame.rob]

/-- Settles O37: the Commit stage pops from the head or empties, Execute keeps what Issue set, and Issue
appends. -/
theorem robIsAQueue : Obligations.RobIsAQueue := by
  intro s t _ hf hstep
  cases step_cycled hf hstep with
  | aborted u hc =>
    obtain ⟨m, -, hm, hcase⟩ := hc.queue
    refine ⟨m, [], hm, hc.nextTag, rfl, hc.retired hm, ?_⟩
    rcases hcase with ⟨hfl, hrob⟩ | ⟨-, hfl, hrob⟩
    · exact .inl ⟨hfl, by simp [hrob]⟩
    · exact .inr ⟨hfl, hrob, rfl, hc.flushedAt hm (by omega)⟩
  | full u v w hc he hi =>
    obtain ⟨m, -, hm, ⟨hfl, hrob⟩ | ⟨hb, -⟩⟩ := hc.queue
    · obtain ⟨hk, new, htag, hnew, hw⟩ := backEnd_queue he hi
      rw [hc.nextTag] at htag hnew
      rw [hrob] at hw
      rw [← hk] at hm hfl
      exact ⟨m, new, hm, htag, hnew, hc.retired (hk ▸ hm), .inl ⟨hfl, hw⟩⟩
    · cases hb

end Sys2Proof.Machine
end

section
/-! How far a step goes, where it stops early, and that the head of the ROB is never held up
(spec/50_pipeline_step.md R183, spec/53_commit_flush.md R260 to R270). -/

namespace Sys2Proof.Machine

variable {s t : State}

/-! ### The bounds -/

theorem Cycled.counters_bound (c : Cycled s t) :
    s.counters.committed ≤ t.counters.committed ∧ s.counters.flushes ≤ t.counters.flushes ∧
    t.counters.committed + t.counters.flushes ≤
      s.counters.committed + s.counters.flushes + s.cfg.commitWidth ∧
    t.counters.flushes ≤ s.counters.flushes + 1 := by
  obtain ⟨u, b, hc, h1, h2⟩ := c.committed
  have hb : s.beginCycle.counters.committed = s.counters.committed ∧
      s.beginCycle.counters.flushes = s.counters.flushes := ⟨rfl, rfl⟩
  obtain ⟨m, -, hm, hcase⟩ := hc.queue
  have hatt := hc.attempts.1
  have hfl : u.counters.flushes = s.counters.flushes ∨
      u.counters.flushes = s.counters.flushes + 1 := hcase.imp (·.1) (·.2.1)
  omega

/-- The Issue stage allocates up to its number of attempts, a tag each (R26). -/
theorem Issued.tags {n : Nat} (c : Issued n s t) : s.nextTag ≤ t.nextTag ∧ t.nextTag ≤ s.nextTag + n := by
  obtain ⟨-, -, -, -, -, -, -, -, -, new, hn, -, htag, -⟩ := c.frame
  omega

theorem Cycled.tags (c : Cycled s t) :
    s.nextTag ≤ t.nextTag ∧ t.nextTag ≤ s.nextTag + s.cfg.width := by
  cases c with
  | aborted u hc =>
    have h : u.nextTag = s.nextTag := hc.nextTag
    rw [State.endCycle_nextTag, h]
    omega
  | full u v w hc he hi =>
    have h : v.nextTag = s.nextTag := he.frame.nextTag.trans hc.nextTag
    have hw : v.cfg = s.cfg := he.frame.cfg.trans hc.cfg
    rw [State.endCycle_nextTag, ← h, ← hw]
    exact hi.tags

/-! ### Where Issue stops -/

/-- A cycle that allocates fewer than `WIDTH` tags faulted, flushed, or ends where a stop test holds. -/
theorem Cycled.issue_stops (c : Cycled s t) (h : t.nextTag < s.nextTag + s.cfg.width) :
    t.fault ≠ none ∨ t.counters.flushes = s.counters.flushes + 1 ∨ t.nextIssue = none := by
  cases c with
  | aborted u hc => exact (hc.attempts.2 rfl).imp_right .inl
  | full u v w hc he hi =>
    have hv : v.nextTag = s.nextTag := he.frame.nextTag.trans hc.nextTag
    have hw : v.cfg = s.cfg := he.frame.cfg.trans hc.cfg
    rw [← hv, ← hw] at h
    exact .inr (.inr (hi.stops h))

/-- The stop tests of R201 and R202, with the pool written out. -/
theorem stop_tests_of_nextIssue_none (h : s.nextIssue = none) :
    s.cfg.robSize ≤ s.rob.length ∨ s.program.lookup s.pc = none ∨
      ∃ r, s.program.lookup s.pc = some r ∧
        ∀ st ∈ (if r.op = .lw ∨ r.op = .sw then s.ls else s.alu), st.busy = true := by
  refine (nextIssue_none.1 h).imp_right (Or.imp_right ?_)
  rintro ⟨r, hl, hb⟩
  rw [Record.instr_op, State.pool_of_op] at hb
  exact ⟨r, hl, hb⟩

/-! ### Where Commit stops -/

/-- The latched fault is the one the Commit stage ends with. -/
theorem Cycled.commit_stage (c : Cycled s t) : ∃ u b, Committed s.cfg.commitWidth s.beginCycle u b ∧
    t.counters.committed = u.counters.committed ∧ t.counters.flushes = u.counters.flushes ∧
    t.fault = u.fault := by
  cases c with
  | aborted u hc => exact ⟨u, true, hc, rfl, rfl, rfl⟩
  | full u v w hc he hi =>
    have hk : w.counters = u.counters := (backEnd_queue he hi).1
    have hf : w.fault = u.fault := hi.fault.trans he.frame.fault
    exact ⟨u, false, hc, by rw [← hk]; rfl, by rw [← hk]; rfl, hf⟩

/-- The LSQ entry of the ROB entry `e`, if there is one, is not its own, not resolved, or has a field
that is unknown (R261, log 10). -/
theorem memory_check_fails {e : RobEntry} {q : List LsqEntry}
    (h : memoryHead e q = none ∨ ∃ l a, memoryHead e q = some (l, a) ∧ e.op = .sw ∧ l.data = none) :
    ∀ l, q.head? = some l → l.tag ≠ e.tag ∨ l.memReady = false ∨ l.addr = none ∨
      (e.op = .sw ∧ l.data = none) := by
  intro l hl
  rcases h with hn | ⟨l', a, hs, ho, hd⟩
  · by_contra hc
    simp only [not_or, not_not, Bool.not_eq_false, ← ne_eq] at hc
    obtain ⟨ht, hr, ha, -⟩ := hc
    obtain ⟨a, ha⟩ := Option.ne_none_iff_exists'.1 ha
    have hs := memoryHead_eq_some.2 ⟨hl, ht, hr, ha⟩
    rw [hn] at hs
    cases hs
  · rw [(memoryHead_eq_some.1 hs).1, Option.some.injEq] at hl
    exact .inr (.inr (.inr ⟨ho, hl ▸ hd⟩))

/-- The faults of an address, by its alignment and range (R262). -/
theorem addressFault_some {c : Config} {pc a : Word} {f : Fault} (h : addressFault c pc a = some f) :
    (a.toNat % 4 ≠ 0 ∧ f = .memMisaligned pc a) ∨
      (a.toNat % 4 = 0 ∧ c.memWords ≤ a.toNat / 4 ∧ f = .memOutOfRange pc a) := by
  by_cases ha : a.toNat % 4 = 0
  · by_cases hr : c.memWords ≤ a.toNat / 4
    · rw [addressFault_outOfRange ha hr, Option.some.injEq] at h
      exact .inr ⟨ha, hr, h.symm⟩
    · rw [addressFault_none.2 ⟨ha, by omega⟩] at h
      cases h
  · rw [addressFault_misaligned ha, Option.some.injEq] at h
    exact .inl ⟨ha, h.symm⟩

/-- The number of loads and stores among ROB entries, with the variants written out. -/
theorem countP_isMem (l : List RobEntry) :
    l.countP (fun e => e.op = .lw ∨ e.op = .sw) = l.countP (·.op.isMem) :=
  List.countP_congr fun e _ => by rw [Op.isMem_iff, decide_eq_true_eq]

/-- Where the Commit stage of a cycle ends, with the LSQ entry at its place (R261, R262, R269). -/
theorem Cycled.commit_stops (c : Cycled s t) (hf : s.fault = none) {n : Nat} {q : Option LsqEntry}
    (hn : t.counters.committed = s.counters.committed + n)
    (hq : q = s.lsq[(s.rob.take n).countP (fun e => e.op = .lw ∨ e.op = .sw)]?) :
    (t.fault = none → n < s.cfg.commitWidth → t.counters.flushes = s.counters.flushes →
      s.rob[n]? = none ∨ ∃ e, s.rob[n]? = some e ∧ (e.ready = false ∨ ((e.op = .lw ∨ e.op = .sw) ∧
        ∀ l, q = some l → l.tag ≠ e.tag ∨ l.memReady = false ∨ l.addr = none ∨
          (e.op = .sw ∧ l.data = none)))) ∧
    ∀ f, t.fault = some f → ∃ e l a, s.rob[n]? = some e ∧ e.ready = true ∧ (e.op = .lw ∨ e.op = .sw) ∧
      q = some l ∧ l.tag = e.tag ∧ l.memReady = true ∧ l.addr = some a ∧
      ((a.toNat % 4 ≠ 0 ∧ f = .memMisaligned e.pc a) ∨
        (a.toNat % 4 = 0 ∧ s.cfg.memWords ≤ a.toNat / 4 ∧ f = .memOutOfRange e.pc a)) := by
  obtain ⟨u, b, hc, h1, h2, h3⟩ := c.commit_stage
  rw [countP_isMem, ← List.head?_drop] at hq
  obtain ⟨hstop, hfault⟩ := hc.stops hf (m := n) (h1 ▸ hn) rfl
  rw [h2, h3, hq]
  refine ⟨fun hu hlt hfl => (hstop hu hlt hfl).imp_right ?_, fun f hu => ?_⟩
  · rintro ⟨e, he, hd⟩
    exact ⟨e, he, hd.imp_right fun ⟨hm, hx⟩ => ⟨(Op.isMem_iff e.op).1 hm, memory_check_fails hx⟩⟩
  · obtain ⟨e, l, a, he, hd, hm, hl, ha⟩ := hfault f hu
    obtain ⟨hhead, htag, hr, haddr⟩ := memoryHead_eq_some.1 hl
    exact ⟨e, l, a, he, hd, (Op.isMem_iff e.op).1 hm, hhead, htag, hr, haddr, addressFault_some ha⟩

/-- An attempt with an instruction of the head's variant, and its destination where it writes one, is the
commit of the head (log 17). -/
theorem exec_of_head {h : RobEntry} {i : Instr} {u : State} (ho : i.op = h.op)
    (hr : h.op ∈ [Op.add, .sub, .and, .or, .xor, .slt, .addi, .lw] → i.rd = h.rd)
    (he : exec i (s.atStage .commit) = .next u) : commitOf h.op h.rd (s.atStage .commit) = u := by
  rw [exec_commit_of i h.rd _ rfl (fun hw => hr ((Op.writesReg_iff h.op).1 (ho ▸ hw))), ho] at he
  exact Host.Outcome.next.inj he

/-- Settles O36: the counters count the attempts, and each stage ends early only at a stop of its own. -/
theorem widthsBoundTheStep : Obligations.WidthsBoundTheStep := by
  refine ⟨fun s t _ hstep => ?_, fun s t _ hf hstep hlt => ?_, fun s t n q _ hf hstep hn hq => ?_,
    fun s u h tl i n hf hr hd ho hrd he => commitStage_succ n hf hr hd (exec_of_head ho hrd he)⟩
  · obtain ⟨-, ⟨-, rfl⟩ | ⟨-, c⟩⟩ := step_cases hstep
    · omega
    · obtain ⟨h1, h2, h3, h4⟩ := c.counters_bound
      exact ⟨h1, h2, h3, h4, c.tags⟩
  · have c := step_cycled hf hstep
    rw [← c.fixed.1]
    exact (c.issue_stops hlt).imp_right (Or.imp_right stop_tests_of_nextIssue_none)
  · exact (step_cycled hf hstep).commit_stops hf hn hq

/-! ### The head -/

/-- A Commit stage with an attempt left retires a ready head, flushes or latches a fault (R260, R269). -/
theorem State.CoreInv.ready_head_leaves (hi : s.CoreInv) {h : RobEntry} {tl : List RobEntry} {n : Nat}
    {b : Bool} (c : Committed (n + 1) s t b) (hr : s.rob = h :: tl) (hd : h.ready = true) :
    s.counters.committed < t.counters.committed ∨ s.counters.flushes < t.counters.flushes ∨
      t.fault ≠ none := by
  cases c with
  | empty _ _ hr' => rw [hr] at hr'; cases hr'
  | notReady _ _ h' tl' hr' hd' =>
    rw [hr] at hr'; cases hr'
    rw [hd] at hd'; cases hd'
  | stall _ _ h' tl' hr' _ hs =>
    rw [hr] at hr'; cases hr'
    exact absurd hs (hi.not_stalls hr hd)
  | abort _ _ _ h' tl' hr' hd' ha =>
    rcases ha.marks with hm | hm
    · exact .inr (.inr (Option.isSome_iff_ne_none.1 hm))
    · exact .inr (.inl (by rw [hm]; exact Nat.lt_succ_self _))
  | retire _ _ u _ _ h' tl' hr' hd' hu hc =>
    obtain ⟨m, -, hm, -⟩ := hc.queue
    have hu1 : u.counters.committed = s.counters.committed + 1 := hu.counts.1
    exact .inl (by omega)

/-- A head that is not ready ends the Commit stage at once (R260). -/
theorem Committed.of_not_ready {n : Nat} {b : Bool} (c : Committed n s t b) {h : RobEntry}
    {tl : List RobEntry} (hr : s.rob = h :: tl) (hd : h.ready = false) : t = s ∧ b = false := by
  have absurd_ready : ∀ {h' tl'}, s.rob = h' :: tl' → h'.ready = true → t = s ∧ b = false := by
    intro h' tl' hr' hd'
    rw [hr] at hr'; cases hr'
    rw [hd] at hd'; cases hd'
  cases c with
  | zero | empty | notReady => exact ⟨rfl, rfl⟩
  | stall _ _ _ _ hr' hd' | abort _ _ _ _ _ hr' hd' | retire _ _ _ _ _ _ _ hr' hd' =>
    exact absurd_ready hr' hd'

/-- Execute and Issue take the instruction of a head that is not ready a cycle on (R233). -/
theorem State.CoreInv.head_within (hi : s.CoreInv) {h : RobEntry} {tl : List RobEntry}
    (hr : s.rob = h :: tl) (hd : h.ready = false) {n : Nat} {u : State} (he : Scanned (scanOrder s) s u)
    (hu : Issued n u t) : ∃ p k, t.HeadWithin p k h.tag (s.remaining h.tag) := by
  have hh : h ∈ s.rob := by rw [hr]; exact List.mem_cons_self
  obtain ⟨p, k, st, hs, hb, hdest⟩ := hi.station_of hh hd
  rw [hi.remaining_eq hh hd (station?_mem hs) hb hdest]
  have hw : s.HeadWithin p k h.tag (st.rem + 1) :=
    ⟨h, tl, hr, rfl, .inr ⟨st, hs, hb, hdest, Nat.lt_succ_self _⟩⟩
  exact ⟨p, k, hu.head ((he.head hi hw).2 (mem_scanOrder hs))⟩

/-- Settles O56: a ready head's commit never stalls, and the station of one that is not ready waits for
nothing, is visited once, and counts or completes there. -/
theorem headAlwaysProgresses : Obligations.HeadAlwaysProgresses := by
  intro s t h tl hi ha hf hr hstep
  have ht : t.CoreInv := coreInvariantsAreKept s t hi ha hstep
  have c : Cycled s t := step_cycled hf hstep
  constructor
  · intro hd
    obtain ⟨u, b, hc, h1, h2, h3⟩ := c.commit_stage
    obtain ⟨-, -, -, -, hpos, -⟩ := Config.wf_parts ((startRefusal_none _ _).1 ha).1
    obtain ⟨n, hn⟩ : ∃ n, s.cfg.commitWidth = n + 1 := ⟨s.cfg.commitWidth - 1, by omega⟩
    rw [hn] at hc
    rw [h1, h2, h3]
    exact hi.beginCycle.ready_head_leaves hc hr hd
  · intro hd
    cases c with
    | aborted u hc => cases (hc.of_not_ready hr hd).2
    | full u v w hc he hu =>
      obtain ⟨rfl, -⟩ := hc.of_not_ready hr hd
      obtain ⟨p, k, e, tl', hrob, htag, hcase⟩ := hi.beginCycle.head_within hr hd he hu
      refine ⟨e, tl', hrob, htag, ?_⟩
      by_cases hrd : e.ready = true
      · exact .inl hrd
      · obtain ⟨st, hs, hb, hdest, hlt⟩ := hcase.resolve_left hrd
        have hmem : e ∈ w.endCycle.rob := by rw [State.endCycle_rob, hrob]; exact List.mem_cons_self
        have hst : st ∈ w.endCycle.stations := station?_mem (s := w) hs
        have hrem := ht.remaining_eq hmem (by simpa using hrd) hst hb (hdest.trans htag.symm)
        rw [htag] at hrem
        exact .inr (by rw [hrem]; exact hlt)

end Sys2Proof.Machine
end

section
/-! Relations of Sys2Proof/Laws/ that say what a part of a step can do are exact: the part answers the
state they relate, and no other. -/

namespace Sys2Proof.Machine

variable {s t : State}

/-! ### Commit -/

theorem commitOf_condBranch {o : Op} (h : o.isCondBranch = true) (rd : Reg) (s : State) :
    commitOf o rd s = s.commitBranch := by
  cases o with
  | beq | bne => rfl
  | _ => cases h

theorem commitOf_writing {o : Op} (hw : o.writesReg = true) (hm : o.isMem = false) (rd : Reg) (s : State) :
    commitOf o rd s = s.commitWriting rd := by
  cases o with
  | add | sub | and | or | xor | slt | addi => rfl
  | lw => cases hm
  | _ => cases hw

theorem commitOf_plain {o : Op} (hw : o.writesReg = false) (hm : o.isMem = false)
    (hb : o.isCondBranch = false) (rd : Reg) (s : State) : commitOf o rd s = s.commitPlain := by
  cases o with
  | jal | jalr | nop => rfl
  | sw => cases hm
  | beq | bne => cases hb
  | _ => cases hw

theorem Aborts.commitOf_eq {h : RobEntry} {tl : List RobEntry} (ha : Aborts h s t) (hr : s.rob = h :: tl) :
    commitOf h.op h.rd s = t := by
  cases ha with
  | fault hm q a hq f hf =>
    rcases (Op.isMem_iff h.op).1 hm with ho | ho
    · simp only [ho, commitOf, State.commitLoad, hr, hq, hf]
    · simp only [ho, commitOf, State.commitStore, hr, hq, hf]
  | flush hb hp =>
    rw [commitOf_condBranch hb]
    simp only [State.commitBranch, hr]
    exact if_neg hp

theorem Retires.commitOf_eq {h : RobEntry} {tl : List RobEntry} (hu : Retires h s t)
    (hr : s.rob = h :: tl) : commitOf h.op h.rd s = t := by
  cases hu with
  | branch hb hp =>
    rw [commitOf_condBranch hb]
    simp only [State.commitBranch, hr]
    exact if_pos hp
  | writing hw hm => simp only [commitOf_writing hw hm, State.commitWriting, hr]
  | load ho q a hq hf => simp only [ho, commitOf, State.commitLoad, hr, hq, hf]
  | store ho q a v hq hf hv => simp only [ho, commitOf, State.commitStore, hr, hq, hf, hv]
  | plain hw hm hb => simp only [commitOf_plain hw hm hb, State.commitPlain, hr]

/-- A head whose commit changes nothing ends the Commit stage (R261, R270). -/
theorem commitStage_of_stall {h : RobEntry} {tl : List RobEntry} (n : Nat) (hf : s.fault = none)
    (hr : s.rob = h :: tl) (hd : h.ready = true)
    (hc : commitOf h.op h.rd (s.atStage .commit) = s.atStage .commit) :
    commitStage (n + 1) s = .next (s.atStage .commit, false) := by
  have he := exec_commit h.op h.rd (s.atStage .commit) rfl
  rw [hc] at he
  simp [commitStage, hr, hd, he, attemptAborted, attemptRetired, hf]

/-- An aborting head ends the Commit stage and the cycle (R262, R270, R274). -/
theorem Aborts.commitStage_eq {h : RobEntry} {tl : List RobEntry} (ha : Aborts h (s.atStage .commit) t)
    (n : Nat) (hf : s.fault = none) (hr : s.rob = h :: tl) (hd : h.ready = true) :
    commitStage (n + 1) s = .next (t, true) :=
  (commitStage_succ n hf hr hd (ha.commitOf_eq hr)).2
    (ha.marks.imp Option.isSome_iff_ne_none.1 fun hm => by rw [hm]; exact Nat.succ_ne_self _)

/-- A retiring head is followed by the next attempt (R269). -/
theorem Retires.commitStage_eq {h : RobEntry} {tl : List RobEntry} (hu : Retires h (s.atStage .commit) t)
    (n : Nat) (hf : s.fault = none) (hr : s.rob = h :: tl) (hd : h.ready = true) :
    commitStage (n + 1) s = commitStage n t :=
  (commitStage_succ n hf hr hd (hu.commitOf_eq hr)).1 hu.counts.1

/-! ### Execute -/

theorem Completed.exec_eq {i : Instr} {p : PoolId} {k : Nat} {st : Station} (c : Completed i p k st s t)
    (hst : s.stage = .execute p k) (hs : s.station? p k = some st) : exec i s = .next t := by
  cases c with
  | plain hm hb =>
    cases i with
    | lw | sw => cases hm
    | beq | bne => cases hb
    | _ =>
      simp [exec, execAdd, execSub, execAnd, execOr, execXor, execSlt, execAddi, execJal, execJalr,
        execNop, computing, inert, hst, State.completeWith, hs, resultOf]
  | branch hb =>
    cases i with
    | beq | bne =>
      simp only [exec, execBeq, execBne, branching, hst, State.completeBranch, hs]
      rfl
    | _ => cases hb
  | load ho ea hea hg =>
    cases i with
    | lw => simp only [exec, execLw, hst, State.completeLoad, hs, hg, if_true, hea]; rfl
    | _ => cases ho
  | store ho ea hea =>
    cases i with
    | sw => simp only [exec, execSw, hst, State.completeStore, hs, hea]
    | _ => cases ho
  | stay hm hw =>
    cases i with
    | lw =>
      rcases hw with hea | ⟨-, hg⟩
      · simp only [exec, execLw, hst, State.completeLoad, hs, hea, ite_self]
      · simp [exec, execLw, hst, State.completeLoad, hs, hg]
    | sw =>
      rcases hw with hea | ⟨ho, -⟩
      · simp only [exec, execSw, hst, State.completeStore, hs, hea]
      · cases ho
    | _ => cases hm

theorem Visited.visit_eq {p : PoolId} {k : Nat} (v : Visited p k s t) : visit p k s = .next t := by
  cases v with
  | skip h =>
    cases hs : s.station? p k with
    | none => simp only [visit, hs]
    | some st => simp [visit, hs, h st hs]
  | wait st hs hb hw => simp [visit, hs, hb, hw]
  | count st hs hb hw hr => simp [visit, hs, hb, hw, hr]
  | complete st t hs hb hw hr hc =>
    have he := hc.exec_eq rfl (State.station?_setStation_self s p k _ st hs)
    simpa [visit, hs, hb, hw, hr] using he

theorem Scanned.scan_eq {l : List (PoolId × Nat)} (c : Scanned l s t) : scan l s = .next t := by
  induction c with
  | nil => rfl
  | cons p k l s u t hv _ ih => simp only [scan, hv.visit_eq, ih]

/-! ### Issue and the step -/

theorem Issued.issueStage_eq {n : Nat} (c : Issued n s t) : issueStage n s = .next t := by
  induction c with
  | zero => rfl
  | stop n s h => simp only [issueStage, h]
  | issue n s t i k h _ ih =>
    simp only [issueStage, h, exec_issue i (s.atStage (.issue k)) k rfl]
    exact ih

theorem step_of_abort {u : State} (ha : s.Admitted) (hf : s.fault = none)
    (hc : commitStage s.cfg.commitWidth s.beginCycle = .next (u, true)) : step s = .next u.endCycle := by
  have ha' : startRefusal s.cfg s.program = none := ha
  simp only [step, ha', hf, Option.isSome_none, Bool.false_eq_true, if_false, cycle, hc]

theorem step_of_full {u v w : State} (ha : s.Admitted) (hf : s.fault = none)
    (hc : commitStage s.cfg.commitWidth s.beginCycle = .next (u, false)) (he : executeStage u = .next v)
    (hi : issueStage v.cfg.width v = .next w) : step s = .next w.endCycle := by
  have ha' : startRefusal s.cfg s.program = none := ha
  simp only [step, ha', hf, Option.isSome_none, Bool.false_eq_true, if_false, cycle, hc, backEnd, he, hi]

end Sys2Proof.Machine
end

section
/-! No rule reads a counter or the log (spec/60_exceptions.md R330, R335): each part of a step does on a
state with other counters and another log what it does on the state. -/

namespace Sys2Proof.Machine

variable {s t : State}

/-- The state with other counters and another log. -/
def State.withTally (k : Counters) (l : List LogEvent) (s : State) : State :=
  { s with counters := k, log := l }

theorem State.withTally_station? (s : State) (k : Counters) (l : List LogEvent) (p : PoolId) (j : Nat) :
    (s.withTally k l).station? p j = s.station? p j := by cases p <;> rfl

theorem State.withTally_setStation (s : State) (k : Counters) (l : List LogEvent) (p : PoolId) (j : Nat)
    (st : Station) : (s.withTally k l).setStation p j st = (s.setStation p j st).withTally k l := by
  cases p <;> rfl

theorem State.withTally_freeStationAt (s : State) (k : Counters) (l : List LogEvent) (p : PoolId) (j : Nat)
    (st : Station) : (s.withTally k l).freeStationAt p j st = (s.freeStationAt p j st).withTally k l :=
  s.withTally_setStation k l p j _

theorem State.withTally_commitReg (s : State) (k : Counters) (l : List LogEvent) (rd : Reg)
    (h : RobEntry) : (s.withTally k l).commitReg rd h = (s.commitReg rd h).withTally k l := by
  unfold State.commitReg
  split <;> rfl

theorem State.withTally_nextIssue (s : State) (k : Counters) (l : List LogEvent) :
    (s.withTally k l).nextIssue = s.nextIssue := by
  have hp : ∀ p, (s.withTally k l).pool p = s.pool p := fun p => by cases p <;> rfl
  simp only [State.nextIssue, hp]
  rfl

/-! ### Commit -/

theorem Aborts.withTally {h : RobEntry} (a : Aborts h s t) (k : Counters) (l : List LogEvent) :
    ∃ k' l', Aborts h (s.withTally k l) (t.withTally k' l') := by
  cases a with
  | fault hm q a hq f hf => exact ⟨k, _, .fault (s := s.withTally k l) hm q a hq f hf⟩
  | flush hb hp => exact ⟨_, _, .flush hb hp⟩

theorem Retires.withTally {h : RobEntry} (r : Retires h s t) (k : Counters) (l : List LogEvent) :
    ∃ k' l', Retires h (s.withTally k l) (t.withTally k' l') := by
  cases r with
  | branch hb hp => exact ⟨_, _, .branch hb hp⟩
  | writing hw hm =>
    have hu := Retires.writing (s := s.withTally k l) hw hm
    rw [State.withTally_commitReg] at hu
    exact ⟨_, _, hu⟩
  | load ho q a hq hf =>
    have hu := Retires.load (s := s.withTally k l) ho q a hq hf
    rw [State.withTally_commitReg] at hu
    exact ⟨_, _, hu⟩
  | store ho q a v hq hf hv => exact ⟨_, _, .store ho q a v hq hf hv⟩
  | plain hw hm hb => exact ⟨_, _, .plain hw hm hb⟩

/-- A head whose commit changes nothing: the memory check fails, or a store has no data and no fault. -/
theorem Stalls.commitOf_withTally {h : RobEntry} {tl : List RobEntry} (hs : Stalls h s) (hr : s.rob = h :: tl)
    (hf : s.fault = none) (hc : commitOf h.op h.rd s = s) (k : Counters) (l : List LogEvent) :
    commitOf h.op h.rd (s.withTally k l) = s.withTally k l := by
  have hr' : (s.withTally k l).rob = h :: tl := hr
  obtain ⟨hm, hq | ⟨q, a, hq, ho, hd⟩⟩ := hs
  · have hq' : memoryHead h (s.withTally k l).lsq = none := hq
    rcases (Op.isMem_iff h.op).1 hm with ho | ho
    · simp only [ho, commitOf, State.commitLoad, hr', hq']
    · simp only [ho, commitOf, State.commitStore, hr', hq']
  · have hq' : memoryHead h (s.withTally k l).lsq = some (q, a) := hq
    cases hx : addressFault s.cfg h.pc a with
    | some f =>
      rw [(Aborts.fault hm q a hq f hx).commitOf_eq hr] at hc
      rw [← hc] at hf
      cases hf
    | none =>
      have hx' : addressFault (s.withTally k l).cfg h.pc a = none := hx
      simp only [ho, commitOf, State.commitStore, hr', hq', hx', hd]

theorem commitStage_withTally {n : Nat} {b : Bool} (hf : s.fault = none)
    (h : commitStage n s = .next (t, b)) (k : Counters) (l : List LogEvent) :
    ∃ k' l', commitStage n (s.withTally k l) = .next (t.withTally k' l', b) := by
  induction n generalizing s k l with
  | zero => cases h; exact ⟨k, l, rfl⟩
  | succ n ih =>
    cases hr : s.rob with
    | nil =>
      have hr' : (s.withTally k l).rob = [] := hr
      simp only [commitStage, hr] at h
      cases h
      exact ⟨k, l, by simp only [commitStage, hr']⟩
    | cons e tl =>
      have hr' : (s.withTally k l).rob = e :: tl := hr
      cases hd : e.ready with
      | false =>
        simp only [commitStage, hr, hd, Bool.false_eq_true, if_false] at h
        cases h
        exact ⟨k, l, by simp only [commitStage, hr', hd, Bool.false_eq_true, if_false]⟩
      | true =>
        rcases commitOf_cases (s.atStage .commit) e tl hr with ⟨hs, hc⟩ | ha | hu
        · rw [commitStage_of_stall n hf hr hd hc] at h
          cases h
          exact ⟨k, l, commitStage_of_stall n hf hr' hd (hs.commitOf_withTally hr hf hc k l)⟩
        · rw [ha.commitStage_eq n hf hr hd] at h
          cases h
          obtain ⟨k', l', ha'⟩ := ha.withTally k l
          exact ⟨k', l', Aborts.commitStage_eq (s := s.withTally k l) ha' n hf hr' hd⟩
        · rw [hu.commitStage_eq n hf hr hd] at h
          obtain ⟨k₁, l₁, hu'⟩ := hu.withTally k l
          obtain ⟨k', l', ht⟩ := ih (hu.counts.2.2.1.trans hf) h k₁ l₁
          exact ⟨k', l', (Retires.commitStage_eq (s := s.withTally k l) hu' n hf hr' hd).trans ht⟩

/-! ### Execute -/

theorem Completed.withTally {i : Instr} {p : PoolId} {j : Nat} {st : Station} (c : Completed i p j st s t)
    (k : Counters) (l : List LogEvent) : Completed i p j st (s.withTally k l) (t.withTally k l) := by
  cases c with
  | plain hm hb => rw [← State.withTally_freeStationAt]; exact .plain (s := s.withTally k l) hm hb
  | branch hb => rw [← State.withTally_freeStationAt]; exact .branch (s := s.withTally k l) hb
  | load ho ea hea hg =>
    rw [← State.withTally_freeStationAt]; exact .load (s := s.withTally k l) ho ea hea hg
  | store ho ea hea =>
    rw [← State.withTally_freeStationAt]; exact .store (s := s.withTally k l) ho ea hea
  | stay hm hw => exact .stay hm hw

theorem Visited.withTally {p : PoolId} {j : Nat} (v : Visited p j s t) (k : Counters)
    (l : List LogEvent) : Visited p j (s.withTally k l) (t.withTally k l) := by
  have hs' : ∀ {st}, s.station? p j = some st → (s.withTally k l).station? p j = some st := fun hs => by
    rw [State.withTally_station?, hs]
  cases v with
  | skip h => exact .skip fun st hs => h st (by rwa [State.withTally_station?] at hs)
  | wait st hs hb hw => rw [← State.withTally_setStation]; exact .wait st (hs' hs) hb hw
  | count st hs hb hw hr => rw [← State.withTally_setStation]; exact .count st (hs' hs) hb hw hr
  | complete st _ hs hb hw hr hc =>
    refine .complete st _ (hs' hs) hb hw hr ?_
    rw [State.withTally_setStation]
    exact hc.withTally k l

theorem Scanned.withTally {v : List (PoolId × Nat)} (c : Scanned v s t) (k : Counters)
    (l : List LogEvent) : Scanned v (s.withTally k l) (t.withTally k l) := by
  induction c with
  | nil => exact .nil _
  | cons p j v s u t hv _ ih => exact .cons p j v _ _ _ (hv.withTally k l) ih

/-! ### Issue and the step -/

theorem State.withTally_issue (s : State) (k : Counters) (l : List LogEvent) (i : Instr) (j : Nat)
    (b : Bool) (n : Word) : (s.withTally k l).issue i j b n = (s.issue i j b n).withTally k l := by
  unfold State.issue
  rw [← State.withTally_setStation]
  rfl

theorem Issued.withTally {n : Nat} (c : Issued n s t) (k : Counters) (l : List LogEvent) :
    Issued n (s.withTally k l) (t.withTally k l) := by
  induction c with
  | zero => exact .zero _
  | stop n s h => exact .stop n _ (by rw [State.withTally_nextIssue, h])
  | issue n s t i j h _ ih =>
    refine .issue n _ _ i j (by rw [State.withTally_nextIssue, h]) ?_
    rw [← State.withTally_issue] at ih
    exact ih

/-- Settles O44: a faulted state answers itself; else the Commit stage carries over to other counters and
another log, and so do Execute and Issue, which write neither. -/
theorem countersAndLogAreNeverRead : Obligations.CountersAndLogAreNeverRead := by
  intro s t k l hstep
  have ha : s.Admitted := (step_cases hstep).1
  by_cases hf : s.fault = none
  · obtain ⟨u, b, hc, -⟩ := commitStage_total s.cfg.commitWidth s.beginCycle hf
    obtain ⟨k', l', hc'⟩ :=
      commitStage_withTally (s := s.beginCycle) hf hc { k with cycle := k.cycle + 1 } l
    cases b with
    | true =>
      rw [step_of_abort ha hf hc] at hstep
      cases hstep
      exact ⟨_, _, step_of_abort (s := s.withTally k l) (u := u.withTally k' l') ha hf hc'⟩
    | false =>
      obtain ⟨v, he, hv⟩ := executeStage_total u
      obtain ⟨w, hi, hw⟩ := issueStage_total v.cfg.width v
      rw [step_of_full ha hf hc he hi] at hstep
      cases hstep
      exact ⟨_, _, step_of_full (s := s.withTally k l) (w := w.withTally k' l') ha hf hc'
        (hv.withTally k' l').scan_eq (hw.withTally k' l').issueStage_eq⟩
  · rw [step_of_faulted ha hf] at hstep
    cases hstep
    exact ⟨k, l, step_of_faulted (s := s.withTally k l) ha hf⟩

end Sys2Proof.Machine
end

section
/-! Data memory under the load gate (spec/20_memory.md R77 to R80): when a load completes, what Execute
leaves alone, and the step beside the sequential reference. -/

namespace Sys2Proof.Machine

variable {s t : State}

/-! ### The load gate -/

/-- A store in front of every entry of tag `x` is older than it (R80). -/
theorem olderStore_of_append {lsq pre post : List LsqEntry} {q : LsqEntry} {x : Nat}
    (hl : lsq = pre ++ q :: post) (hq : q.kind = .store) (hx : ∀ e ∈ pre ++ [q], e.tag ≠ x) :
    olderStore x lsq = true := by
  have hfront : lsq.takeWhile (fun e => e.tag != x) =
      (pre ++ [q]) ++ post.takeWhile fun e => e.tag != x := by
    rw [hl, List.append_cons, List.takeWhile_append_of_pos fun e he => bne_iff_ne.2 (hx e he)]
  simp [olderStore, hfront, hq]

/-- No store is older where every entry in front is a load. -/
theorem olderStore_eq_false {lsq : List LsqEntry} {x : Nat}
    (h : ∀ q ∈ lsq.takeWhile (fun e => e.tag != x), q.kind = .load) : olderStore x lsq = false :=
  List.any_eq_false.2 fun q hq => by simp [h q hq]

/-- Settles O26: the gate is the test for an older store (R80), and the two cases of a load's completion
are a closed gate and an open one (R238). -/
theorem loadWaitsForOlderStores : Obligations.LoadWaitsForOlderStores := by
  intro rd rs1 imm s p k st ea hstage hst hea
  refine ⟨fun hc ⟨pre, q, post, hl, hq, hx⟩ => ?_, fun h => ?_⟩
  · have hclosed : s.loadGateOpen st.dest = false := by
      simp [State.loadGateOpen, hc, olderStore_of_append hl hq hx]
    exact (Completed.stay (i := .lw rd rs1 imm) rfl (.inr ⟨rfl, hclosed⟩)).exec_eq hstage hst
  · have hopen : s.loadGateOpen st.dest = true := by
      rcases h with hc | hq
      · simp [State.loadGateOpen, hc]
      · simp [State.loadGateOpen, olderStore_eq_false hq]
    exact (Completed.load (i := .lw rd rs1 imm) rfl ea hea hopen).exec_eq hstage hst

/-! ### The frame of Execute -/

/-- Settles O28: the stage answers, and the scan of the stations stays inside the frame. -/
theorem executeStageKeepsTheArchitecture : Obligations.ExecuteStageKeepsTheArchitecture := by
  intro s
  obtain ⟨t, hstage, hscan⟩ := executeStage_total s
  have hf : ExecuteFrame s t := hscan.frame
  exact ⟨t, hstage, hf.arf, hf.rat, hf.pc, hf.mem, hf.bp, hf.nextTag, hf.counters, hf.fault, hf.log,
    hf.l1i, hf.cfg, hf.program, hf.rob, hf.lsq⟩

/-! ### The step beside the sequential reference -/

theorem Tracks.beginCycle {u : State} (h : Tracks u s) : Tracks u s.beginCycle :=
  ⟨h.cfg, h.program, h.arf, h.mem, h.pc⟩

theorem Tracks.endCycle {u : State} (h : Tracks u s) : Tracks u s.endCycle :=
  ⟨h.cfg, h.program, h.arf, h.mem, h.pc⟩

/-- Execute and Issue keep what the queues hold, commit nothing and flush nothing, and the reference
stays. -/
theorem backEnd_refines {n : Nat} {l : List (PoolId × Nat)} {v : State} (he : Scanned l s v)
    (hs : Issued n v t) (hd : s.DataInv) (hi : s.CoreInv) (ha : s.Admitted)
    (hgate : s.cfg.loadGate = .olderStores) :
    t.DataInv ∧ t.counters = s.counters ∧ t.fault = s.fault ∧ ∀ u, Tracks u s → Tracks u t := by
  obtain ⟨hdv, hiv, htv⟩ := he.refines hd hi hgate
  obtain ⟨hdt, -, htt⟩ := hs.refines hdv hiv (ha.of_fixed ⟨he.frame.cfg, he.frame.program⟩)
  exact ⟨hdt, hs.counters.trans he.frame.counters, hs.fault.trans he.frame.fault,
    fun u hu => htt u (htv u hu)⟩

/-- A cycle is as many instructions of the reference as its Commit stage commits and flushes (R190,
R260, R276). -/
theorem Cycled.refines (c : Cycled s t) (hd : s.DataInv) (hi : s.CoreInv) (ha : s.Admitted)
    (hf : s.fault = none) (hgate : s.cfg.loadGate = .olderStores) {u : State} (ht : Tracks u s) :
    t.DataInv ∧ ∃ k v,
      t.counters.committed + t.counters.flushes = s.counters.committed + s.counters.flushes + k ∧
      refRun k u = .next v ∧ Tracks v t ∧ ∀ f, t.fault = some f → refStep v = .fault f := by
  have commit {x : State} {b : Bool} (hc : Committed s.cfg.commitWidth s.beginCycle x b) :=
    hc.refines hd.beginCycle hi.beginCycle ha hf u ht.beginCycle
  cases c with
  | aborted x hc =>
    obtain ⟨hdx, -, k, v, hrun, hv, hcount, hfault⟩ := commit hc
    exact ⟨hdx.endCycle, k, v, hcount, hrun, hv.endCycle, hfault⟩
  | full x y z hc he hs =>
    obtain ⟨hdx, hix, k, v, hrun, hv, hcount, hfault⟩ := commit hc
    obtain ⟨hdz, hcz, hfz, htz⟩ := backEnd_refines he hs hdx hix
      (State.Admitted.of_fixed (s := s) ha ⟨hc.cfg, hc.program⟩) (by rw [hc.cfg]; exact hgate)
    rw [← hcz] at hcount
    rw [← hfz] at hfault
    exact ⟨hdz.endCycle, k, v, hcount, hrun, (htz v hv).endCycle, hfault⟩

/-- Settles O58: a faulted state stays and the reference with it, any other goes through a cycle. -/
theorem stepFollowsTheReference : Obligations.StepFollowsTheReference := by
  intro s t u hi hd hgate ht hfault hstep
  obtain ⟨ha, ⟨-, rfl⟩ | ⟨hf, c⟩⟩ := step_cases hstep
  · exact ⟨hd, 0, u, rfl, rfl, ht, hfault⟩
  · exact c.refines hd hi ha hf hgate ht

end Sys2Proof.Machine
end

section
/-! The word form, both ways (spec/30_encoding.md R117 to R121): a word is the encoding of its fields, the
decoder reads the fields back, and the rows of the mask and match table are conditions on them. -/

namespace Sys2Proof

/-! ### A word is its fields -/

theorem regBits_rdOf (w : Word) : regBits (rdOf w) = w.extractLsb' 7 5 := rfl

theorem regBits_rs1Of (w : Word) : regBits (rs1Of w) = w.extractLsb' 15 5 := rfl

theorem regBits_rs2Of (w : Word) : regBits (rs2Of w) = w.extractLsb' 20 5 := rfl

/-- The low bits of an immediate are those of the field that it is the sign extension of. -/
theorem extractLsb'_signExtend_low {n : Nat} (x : BitVec n) {start len : Nat} (h : start + len ≤ n)
    (hn : n ≤ 32) : (x.signExtend 32).extractLsb' start len = x.extractLsb' start len := by
  ext i hi
  rw [BitVec.getElem_extractLsb', BitVec.getElem_extractLsb', BitVec.getLsbD_signExtend,
    if_pos (by omega), decide_eq_true (by omega), Bool.true_and]

/-! The word of each format is put together from the fields of a word, from the top down: each field joins
the bits above it. -/

theorem encodeR_fields {w : Word} (h : opcodeOf w = 0b0110011#7) :
    encodeR (funct7Of w) (funct3Of w) (rdOf w) (rs1Of w) (rs2Of w) = w := by
  unfold encodeR
  rw [← h, regBits_rdOf, regBits_rs1Of, regBits_rs2Of]
  unfold funct7Of funct3Of opcodeOf
  iterate 5 rw [BitVec.extractLsb'_append_extractLsb'_eq_extractLsb' (by omega)]
  exact BitVec.extractLsb'_eq_self

theorem encodeI_fields (w : Word) :
    encodeI (opcodeOf w) (funct3Of w) (rdOf w) (rs1Of w) (immIOf w) = w := by
  unfold encodeI immIOf
  rw [extractLsb'_signExtend_low _ (by omega) (by omega), BitVec.extractLsb'_eq_self, regBits_rdOf,
    regBits_rs1Of]
  unfold funct3Of opcodeOf
  iterate 4 rw [BitVec.extractLsb'_append_extractLsb'_eq_extractLsb' (by omega)]
  exact BitVec.extractLsb'_eq_self

theorem encodeS_fields {w : Word} (h : opcodeOf w = 0b0100011#7) (h3 : funct3Of w = 0b010#3) :
    encodeS (rs1Of w) (rs2Of w) (immSOf w) = w := by
  unfold encodeS immSOf
  rw [extractLsb'_signExtend_low _ (by omega) (by omega), field_high (by omega),
    BitVec.extractLsb'_eq_self, extractLsb'_signExtend_low _ (by omega) (by omega), field_low (by omega),
    BitVec.extractLsb'_eq_self, ← h, ← h3, regBits_rs1Of, regBits_rs2Of]
  unfold funct3Of opcodeOf
  iterate 5 rw [BitVec.extractLsb'_append_extractLsb'_eq_extractLsb' (by omega)]
  exact BitVec.extractLsb'_eq_self

/-- The parts of the immediate of format B stand where its word has them. -/
theorem immBOf_parts (w : Word) :
    (immBOf w).extractLsb' 12 1 = w.extractLsb' 31 1 ∧ (immBOf w).extractLsb' 11 1 = w.extractLsb' 7 1 ∧
    (immBOf w).extractLsb' 5 6 = w.extractLsb' 25 6 ∧ (immBOf w).extractLsb' 1 4 = w.extractLsb' 8 4 := by
  unfold immBOf
  refine ⟨?_, ?_, ?_, ?_⟩ <;> rw [extractLsb'_signExtend_low _ (by omega) (by omega)]
  · iterate 4 rw [field_high (by omega)]
    exact BitVec.extractLsb'_eq_self
  · iterate 3 rw [field_high (by omega)]
    rw [field_low (by omega)]
    exact BitVec.extractLsb'_eq_self
  · iterate 2 rw [field_high (by omega)]
    rw [field_low (by omega)]
    exact BitVec.extractLsb'_eq_self
  · rw [field_high (by omega), field_low (by omega)]
    exact BitVec.extractLsb'_eq_self

theorem encodeB_fields {w : Word} (h : opcodeOf w = 0b1100011#7) :
    encodeB (funct3Of w) (rs1Of w) (rs2Of w) (immBOf w) = w := by
  obtain ⟨h12, h11, h5, h1⟩ := immBOf_parts w
  unfold encodeB
  rw [h12, h11, h5, h1, ← h, regBits_rs1Of, regBits_rs2Of]
  unfold funct3Of opcodeOf
  iterate 7 rw [BitVec.extractLsb'_append_extractLsb'_eq_extractLsb' (by omega)]
  exact BitVec.extractLsb'_eq_self

/-- The parts of the immediate of format J stand where its word has them. -/
theorem immJOf_parts (w : Word) :
    (immJOf w).extractLsb' 20 1 = w.extractLsb' 31 1 ∧ (immJOf w).extractLsb' 1 10 = w.extractLsb' 21 10 ∧
    (immJOf w).extractLsb' 11 1 = w.extractLsb' 20 1 ∧ (immJOf w).extractLsb' 12 8 = w.extractLsb' 12 8 := by
  unfold immJOf
  refine ⟨?_, ?_, ?_, ?_⟩ <;> rw [extractLsb'_signExtend_low _ (by omega) (by omega)]
  · iterate 4 rw [field_high (by omega)]
    exact BitVec.extractLsb'_eq_self
  · rw [field_high (by omega), field_low (by omega)]
    exact BitVec.extractLsb'_eq_self
  · iterate 2 rw [field_high (by omega)]
    rw [field_low (by omega)]
    exact BitVec.extractLsb'_eq_self
  · iterate 3 rw [field_high (by omega)]
    rw [field_low (by omega)]
    exact BitVec.extractLsb'_eq_self

theorem encodeJ_fields {w : Word} (h : opcodeOf w = 0b1101111#7) : encodeJ (rdOf w) (immJOf w) = w := by
  obtain ⟨h20, h1, h11, h12⟩ := immJOf_parts w
  unfold encodeJ
  rw [h20, h1, h11, h12, ← h, regBits_rdOf]
  unfold opcodeOf
  iterate 5 rw [BitVec.extractLsb'_append_extractLsb'_eq_extractLsb' (by omega)]
  exact BitVec.extractLsb'_eq_self

/-! ### The immediate of a word is in range -/

theorem fitsSigned_signExtend {n : Nat} (hn : n ≤ 32) (x : BitVec n) :
    fitsSigned n (x.signExtend 32) = true := by
  simp only [fitsSigned, BitVec.toInt_signExtend_of_le hn, Bool.and_eq_true, decide_eq_true_eq]
  exact ⟨x.le_toInt, x.toInt_lt⟩

theorem isEven_signExtend {n : Nat} (x : BitVec n) :
    isEven ((x ++ (0 : BitVec 1)).signExtend 32) = true := by
  rw [isEven, BitVec.getLsbD_signExtend, if_pos (by omega), BitVec.getLsbD_append]
  rfl

/-! ### Words that spell `NOP` -/

theorem ne_nop_of_opcode {w : Word} (h : opcodeOf w ≠ 0b0010011#7) : w ≠ 0x00000013#32 := by
  rintro rfl
  exact h rfl

/-- Only `ADDI x0,x0,0` has the word of `NOP` (R120). -/
theorem encode_addi_eq_nop_iff {rd rs1 : Reg} {imm : Word} (h : fitsSigned 12 imm = true) :
    encode (.addi rd rs1 imm) = 0x00000013#32 ↔ rd = 0 ∧ rs1 = 0 ∧ imm = 0 := by
  constructor
  · intro he
    simp only [encode] at he
    refine ⟨?_, ?_, ?_⟩
    · rw [← encodeI_rd 0b0010011 0b000 rd rs1 imm, he]; rfl
    · rw [← encodeI_rs1 0b0010011 0b000 rd rs1 imm, he]; rfl
    · rw [← signExtend_low (by omega) (by omega) h, ← encodeI_imm 0b0010011 0b000 rd rs1 imm, he]; rfl
  · rintro ⟨rfl, rfl, rfl⟩
    rfl

/-! ### Decoding a word that was encoded -/

theorem encodeI_imm_of_fits (o : BitVec 7) (f3 : BitVec 3) (rd rs1 : Reg) {imm : Word}
    (h : fitsSigned 12 imm = true) : immIOf (encodeI o f3 rd rs1 imm) = imm := by
  rw [encodeI_imm, signExtend_low (by omega) (by omega) h]

theorem encodeS_imm_of_fits (rs1 rs2 : Reg) {imm : Word} (h : fitsSigned 12 imm = true) :
    immSOf (encodeS rs1 rs2 imm) = imm := by
  rw [encodeS_imm, signExtend_low (by omega) (by omega) h]

theorem encodeB_imm_of_fits (f3 : BitVec 3) (rs1 rs2 : Reg) {imm : Word} (h : fitsSigned 13 imm = true)
    (he : isEven imm = true) : immBOf (encodeB f3 rs1 rs2 imm) = imm := by
  rw [encodeB_imm, low_even he, signExtend_low (by omega) (by omega) h]

theorem encodeJ_imm_of_fits (rd : Reg) {imm : Word} (h : fitsSigned 21 imm = true)
    (he : isEven imm = true) : immJOf (encodeJ rd imm) = imm := by
  rw [encodeJ_imm, low_even he, signExtend_low (by omega) (by omega) h]

/-- Settles O1: the decoder takes the branch of the format's opcode and of the variant's function fields,
and reads back each operand. -/
theorem decodeOfEncodeIsTheInstruction : Obligations.DecodeOfEncodeIsTheInstruction := by
  intro i h
  cases i with
  | add | sub | and | or | xor | slt =>
    simp [encode, decode, ne_nop_of_opcode, encodeR_opcode, decodeR, encodeR_funct7, encodeR_funct3,
      encodeR_rd, encodeR_rs1, encodeR_rs2]
  | addi rd rs1 imm =>
    simp only [Instr.hasWordForm, Bool.and_eq_true, Bool.not_eq_true', Bool.and_eq_false_iff,
      beq_eq_false_iff_ne] at h
    obtain ⟨hi, hz⟩ := h
    have hn : encode (.addi rd rs1 imm) ≠ 0x00000013#32 :=
      mt (encode_addi_eq_nop_iff hi).1 (by tauto)
    simp only [decode, hn, if_false]
    simp [encode, encodeI_opcode, encodeI_funct3, encodeI_rd, encodeI_rs1,
      encodeI_imm_of_fits _ _ _ _ hi]
  | lw | jalr =>
    simp [encode, decode, ne_nop_of_opcode, encodeI_opcode, encodeI_funct3, encodeI_rd, encodeI_rs1,
      encodeI_imm_of_fits _ _ _ _ h]
  | sw rs1 rs2 imm =>
    simp [encode, decode, ne_nop_of_opcode, encodeS_opcode, encodeS_funct3, encodeS_rs1, encodeS_rs2,
      encodeS_imm_of_fits _ _ h]
  | beq | bne =>
    obtain ⟨hi, he⟩ := Bool.and_eq_true_iff.1 h
    simp [encode, decode, ne_nop_of_opcode, encodeB_opcode, encodeB_funct3, encodeB_rs1, encodeB_rs2,
      encodeB_imm_of_fits _ _ _ hi he]
  | jal rd imm =>
    obtain ⟨hi, he⟩ := Bool.and_eq_true_iff.1 h
    simp [encode, decode, ne_nop_of_opcode, encodeJ_opcode, encodeJ_rd, encodeJ_imm_of_fits _ hi he]
  | nop => rfl

/-! ### Encoding what was decoded -/

/-- A word in format R that decodes is the word of its instruction, which has one whatever its operands. -/
theorem encode_of_decodeR {w : Word} {i : Instr} (ho : opcodeOf w = 0b0110011#7)
    (h : decodeR w = some i) : i.hasWordForm = true ∧ encode i = w := by
  have he := encodeR_fields ho
  unfold decodeR at h
  by_cases h7 : funct7Of w = 0b0000000#7
  · rw [if_pos h7] at h
    split_ifs at h with h3 h3 h3 h3 h3 <;> cases h <;> rw [h7, h3] at he <;> exact ⟨rfl, he⟩
  · rw [if_neg h7] at h
    split_ifs at h with h73
    cases h
    rw [h73.1, h73.2] at he
    exact ⟨rfl, he⟩

/-- Settles O2: in each branch of the decoder the fields make up the word, and the immediate, a sign
extension, is in range. -/
theorem encodeOfDecodeIsTheWord : Obligations.EncodeOfDecodeIsTheWord := by
  intro w i h
  have hi : fitsSigned 12 (immIOf w) = true := fitsSigned_signExtend (by omega) _
  have hs : fitsSigned 12 (immSOf w) = true := fitsSigned_signExtend (by omega) _
  have hb : (fitsSigned 13 (immBOf w) && isEven (immBOf w)) = true :=
    Bool.and_eq_true_iff.2 ⟨fitsSigned_signExtend (by omega) _, isEven_signExtend _⟩
  have hj : (fitsSigned 21 (immJOf w) && isEven (immJOf w)) = true :=
    Bool.and_eq_true_iff.2 ⟨fitsSigned_signExtend (by omega) _, isEven_signExtend _⟩
  have hei := encodeI_fields w
  unfold decode at h
  split_ifs at h with hn hR hI h3 hL h3 hJR h3 hS h3 hB h3 h3 hJ
  · cases h; exact ⟨rfl, hn.symm⟩
  · exact encode_of_decodeR hR h
  · cases h
    rw [hI, h3] at hei
    refine ⟨?_, hei⟩
    have hz := mt (encode_addi_eq_nop_iff hi).2 (hei.trans_ne hn)
    simp only [Instr.hasWordForm, hi, Bool.true_and, Bool.not_eq_true', Bool.and_eq_false_iff,
      beq_eq_false_iff_ne]
    tauto
  · cases h; exact ⟨hi, by rwa [hL, h3] at hei⟩
  · cases h; exact ⟨hi, by rwa [hJR, h3] at hei⟩
  · cases h; exact ⟨hs, encodeS_fields hS h3⟩
  · cases h
    have heb := encodeB_fields hB
    exact ⟨hb, by rwa [h3] at heb⟩
  · cases h
    have heb := encodeB_fields hB
    exact ⟨hb, by rwa [h3] at heb⟩
  · cases h; exact ⟨hj, encodeJ_fields hJ⟩

/-! ### The mask and match table -/

/-- A word is the opcode, `funct3`, `funct7` and what lies between them. -/
theorem word_ext {v w : Word} (ho : opcodeOf v = opcodeOf w) (h7 : v.extractLsb' 7 5 = w.extractLsb' 7 5)
    (h3 : funct3Of v = funct3Of w) (h15 : v.extractLsb' 15 10 = w.extractLsb' 15 10)
    (hf : funct7Of v = funct7Of w) : v = w := by
  have join : ∀ x : Word, funct7Of x ++ x.extractLsb' 15 10 ++ funct3Of x ++ x.extractLsb' 7 5 ++
      opcodeOf x = x := fun x => by
    unfold funct7Of funct3Of opcodeOf
    iterate 4 rw [BitVec.extractLsb'_append_extractLsb'_eq_extractLsb' (by omega)]
    exact BitVec.extractLsb'_eq_self
  rw [← join v, ← join w, ho, h7, h3, h15, hf]

/-- A row whose mask is 0 outside opcode, `funct3` and `funct7` compares these fields alone. -/
theorem and_eq_iff_fields {m v : Word} (w : Word) (h7 : m.extractLsb' 7 5 = 0)
    (h15 : m.extractLsb' 15 10 = 0) (hv : v &&& m = v) :
    w &&& m = v ↔ opcodeOf w &&& opcodeOf m = opcodeOf v ∧ funct3Of w &&& funct3Of m = funct3Of v ∧
      funct7Of w &&& funct7Of m = funct7Of v := by
  have field : ∀ (x : Word) start len,
      (x &&& m).extractLsb' start len = x.extractLsb' start len &&& m.extractLsb' start len :=
    fun _ _ _ => BitVec.extractLsb'_and
  constructor
  · rintro rfl
    exact ⟨(field w 0 7).symm, (field w 12 3).symm, (field w 25 7).symm⟩
  · rintro ⟨ho, h3, hf⟩
    refine word_ext ((field w 0 7).trans ho) ?_ ((field w 12 3).trans h3) ?_ ((field w 25 7).trans hf)
    · rw [← hv, field, field, h7]; exact BitVec.and_zero.trans BitVec.and_zero.symm
    · rw [← hv, field, field, h15]; exact BitVec.and_zero.trans BitVec.and_zero.symm

/-- The rows of format R (R119). -/
theorem and_maskR_eq {v : Word} (w : Word) (hv : v &&& 0xFE00707F = v) : w &&& 0xFE00707F = v ↔
    opcodeOf w = opcodeOf v ∧ funct3Of w = funct3Of v ∧ funct7Of w = funct7Of v := by
  rw [and_eq_iff_fields w rfl rfl hv, show opcodeOf 0xFE00707F = BitVec.allOnes 7 from rfl,
    show funct3Of 0xFE00707F = BitVec.allOnes 3 from rfl,
    show funct7Of 0xFE00707F = BitVec.allOnes 7 from rfl, BitVec.and_allOnes, BitVec.and_allOnes,
    BitVec.and_allOnes]

/-- The rows with an opcode and a `funct3` (R119). -/
theorem and_maskI_eq {v : Word} (w : Word) (hv : v &&& 0x0000707F = v) : w &&& 0x0000707F = v ↔
    opcodeOf w = opcodeOf v ∧ funct3Of w = funct3Of v := by
  have hf : funct7Of v = 0 := by
    rw [← hv]; exact BitVec.extractLsb'_and.trans BitVec.and_zero
  rw [and_eq_iff_fields w rfl rfl hv, show opcodeOf 0x0000707F = BitVec.allOnes 7 from rfl,
    show funct3Of 0x0000707F = BitVec.allOnes 3 from rfl, show funct7Of 0x0000707F = 0 from rfl,
    BitVec.and_allOnes, BitVec.and_allOnes, hf]
  exact and_congr_right fun _ => and_iff_left BitVec.and_zero

/-- The row with an opcode alone (R119). -/
theorem and_maskJ_eq (w : Word) : w &&& 0x0000007F = 0x0000006F ↔ opcodeOf w = 0b1101111#7 := by
  rw [and_eq_iff_fields w rfl rfl rfl, show opcodeOf 0x0000007F = BitVec.allOnes 7 from rfl,
    BitVec.and_allOnes]
  exact and_iff_left ⟨BitVec.and_zero, BitVec.and_zero⟩

theorem find?_cons_eq_ite {α : Type} (p : α → Bool) (a : α) (l : List α) :
    (a :: l).find? p = if p a = true then some a else l.find? p := by
  cases h : p a <;> simp [h]

/-- The table of R119, its rows as conditions on the fields. -/
theorem spelledOp_eq (w : Word) : spelledOp w =
    if w = 0x00000013#32 then some .nop
    else if opcodeOf w = 0b0110011#7 ∧ funct3Of w = 0b000#3 ∧ funct7Of w = 0b0000000#7 then some .add
    else if opcodeOf w = 0b0110011#7 ∧ funct3Of w = 0b000#3 ∧ funct7Of w = 0b0100000#7 then some .sub
    else if opcodeOf w = 0b0110011#7 ∧ funct3Of w = 0b010#3 ∧ funct7Of w = 0b0000000#7 then some .slt
    else if opcodeOf w = 0b0110011#7 ∧ funct3Of w = 0b100#3 ∧ funct7Of w = 0b0000000#7 then some .xor
    else if opcodeOf w = 0b0110011#7 ∧ funct3Of w = 0b110#3 ∧ funct7Of w = 0b0000000#7 then some .or
    else if opcodeOf w = 0b0110011#7 ∧ funct3Of w = 0b111#3 ∧ funct7Of w = 0b0000000#7 then some .and
    else if opcodeOf w = 0b0010011#7 ∧ funct3Of w = 0b000#3 then some .addi
    else if opcodeOf w = 0b0000011#7 ∧ funct3Of w = 0b010#3 then some .lw
    else if opcodeOf w = 0b0100011#7 ∧ funct3Of w = 0b010#3 then some .sw
    else if opcodeOf w = 0b1100011#7 ∧ funct3Of w = 0b000#3 then some .beq
    else if opcodeOf w = 0b1100011#7 ∧ funct3Of w = 0b001#3 then some .bne
    else if opcodeOf w = 0b1100111#7 ∧ funct3Of w = 0b000#3 then some .jalr
    else if opcodeOf w = 0b1101111#7 then some .jal
    else none := by
  have hn : w &&& 0xFFFFFFFF = w := BitVec.and_allOnes
  simp only [spelledOp, maskTable, find?_cons_eq_ite, List.find?_nil, beq_iff_eq, hn,
    apply_ite (Option.map MaskMatch.op), Option.map_some, Option.map_none]
  simp only [and_maskR_eq (v := 0x00000033) w rfl, and_maskR_eq (v := 0x40000033) w rfl,
    and_maskR_eq (v := 0x00002033) w rfl, and_maskR_eq (v := 0x00004033) w rfl,
    and_maskR_eq (v := 0x00006033) w rfl, and_maskR_eq (v := 0x00007033) w rfl,
    and_maskI_eq (v := 0x00000013) w rfl, and_maskI_eq (v := 0x00002003) w rfl,
    and_maskI_eq (v := 0x00002023) w rfl, and_maskI_eq (v := 0x00000063) w rfl,
    and_maskI_eq (v := 0x00001063) w rfl, and_maskI_eq (v := 0x00000067) w rfl, and_maskJ_eq]
  rfl

/-- Among the words with the opcode of format R. -/
theorem decodeR_follows {w : Word} (ho : opcodeOf w = 0b0110011#7) :
    (decodeR w).map Instr.op = spelledOp w := by
  have hn : w ≠ 0x00000013#32 := ne_nop_of_opcode (by rw [ho]; decide)
  rw [spelledOp_eq]
  unfold decodeR
  by_cases h7 : funct7Of w = 0b0000000#7
  · simp [hn, ho, h7, apply_ite (Option.map Instr.op), Instr.op]
  · simp [hn, ho, h7, apply_ite (Option.map Instr.op), Instr.op, and_comm]

/-- Settles O3: under each opcode the decoder and the rows of the table test the same fields. -/
theorem decodeFollowsTheMaskTable : Obligations.DecodeFollowsTheMaskTable := by
  intro w
  by_cases hR : opcodeOf w = 0b0110011#7
  · have hn : w ≠ 0x00000013#32 := ne_nop_of_opcode (by rw [hR]; decide)
    rw [← decodeR_follows hR, decode, if_neg hn, if_pos hR]
  · rw [spelledOp_eq]
    unfold decode
    simp only [hR, false_and, if_false, apply_ite (Option.map Instr.op), Option.map_some,
      Option.map_none, Instr.op]
    by_cases hI : opcodeOf w = 0b0010011#7
    · simp [hI]
    by_cases hL : opcodeOf w = 0b0000011#7
    · simp [hL]
    by_cases hJR : opcodeOf w = 0b1100111#7
    · simp [hJR]
    by_cases hS : opcodeOf w = 0b0100011#7
    · simp [hS]
    by_cases hB : opcodeOf w = 0b1100011#7
    · simp [hB]
    simp [hI, hL, hJR, hS, hB]

/-- Settles O4: the decoder on six words and on that of `ECALL`. -/
theorem spelledWordsDecode : Obligations.SpelledWordsDecode := by
  unfold Obligations.SpelledWordsDecode
  decide

end Sys2Proof
end

section
/-! Decoded records (spec/30_encoding.md R111 to R116), and what each instruction allocates when it issues
(spec/51_issue_rename.md R205 to R215). -/

namespace Sys2Proof.Machine

variable {s t : State}

/-! ### Records -/

theorem record_of_instr_iff (r : Record) : r.instr.record r.pc = r ↔ r.unusedZero = true := by
  obtain ⟨pc, op, rd, rs1, rs2, imm⟩ := r
  cases op <;> simp [Record.instr, Instr.record, Record.unusedZero, eq_comm (a := (0 : Reg)),
    eq_comm (a := 0#32), and_assoc]

/-- Settles O5: of the fields, `pc` is the key and those the variant does not use are 0 (R115). -/
theorem recordIsThatOfItsInstruction : Obligations.RecordIsThatOfItsInstruction := by
  intro r a
  rw [Record.wf, Bool.and_eq_true, Bool.and_eq_true, decide_eq_true_eq, beq_iff_eq, and_assoc]
  refine and_congr_right fun _ => ⟨?_, fun h => ?_⟩
  · rintro ⟨rfl, hz⟩
    exact (record_of_instr_iff r).2 hz
  · have hpc : r.pc = a := by rw [← h, Instr.record_pc]
    exact ⟨hpc, (record_of_instr_iff r).1 (by rw [hpc, h])⟩

/-! ### Issue -/

theorem State.issue_pool_self (s : State) (i : Instr) (k : Nat) (b : Bool) (n : Word) :
    (s.issue i k b n).pool i.op.pool = (s.pool i.op.pool).set k (s.issuedStation i) := by
  rw [State.issue, State.setStation_pool_self]
  cases i.op.pool <;> rfl

theorem State.issue_pool_ne (s : State) (i : Instr) (k : Nat) (b : Bool) (n : Word) {p : PoolId}
    (hp : p ≠ i.op.pool) : (s.issue i k b n).pool p = s.pool p := by
  unfold State.issue
  revert hp
  cases i.op.pool <;> cases p <;> simp [State.setStation, State.setPool, State.pool]

/-- Settles O19: the table is the record, slots and class of each variant (R113, R116), and with them the
allocation is one for all (R205, R208 to R213). -/
theorem issueAllocatesInOrder : Obligations.IssueAllocatesInOrder := by
  intro i k s r j2 k2 pool lat kind writes cond htable hstage
  obtain ⟨rfl, rfl, rfl, rfl, rfl, rfl, rfl, rfl⟩ : r = i.record s.pc ∧ j2 = i.slotJ ∧ k2 = i.slotK ∧
      pool = i.op.pool ∧ lat = i.op.latency s.cfg ∧ kind = i.op.lsqKind ∧ writes = i.op.writesReg ∧
      cond = i.op.isCondBranch := by
    cases i <;> cases htable <;> exact ⟨rfl, rfl, rfl, rfl, rfl, rfl, rfl, rfl⟩
  refine ⟨_, exec_issue i s k hstage, by simp, ?_, ?_, fun p hp => s.issue_pool_ne i k _ _ hp, ?_,
    fun x => ?_, ?_, by simp, by simp, by simp, by simp, by simp, by simp, by simp, by simp, by simp, by simp⟩
  · simp [State.issuedEntry, predicted]
  · rw [State.issue_pool_self, Instr.record_op]
    rfl
  · rw [State.issue_lsq, lsqPush]
    cases i.op.lsqKind <;> simp
  · rw [State.issue_rat, ratName_getElem, Instr.record_rd]
  · rw [State.issue_pc]
    cases i <;> rfl

/-! ### JALR -/

/-- Settles O17: the parts of JALR are those of NOP but for the refusal (R173, log 18). -/
theorem jalrActsAsNop : Obligations.JalrActsAsNop := by
  intro rd rs1 imm s
  refine ⟨fun hs hm => ?_, fun hs hm => ?_, fun k hs => ?_, fun p k st hs hst => ?_, fun h tl hs hr => ?_⟩
  · change _ = Host.Outcome.next (s.setPc (fallThrough s.pc))
    simp only [exec, execJalr, inert, hs, hm, reduceCtorEq, and_false, if_false]
  · simp only [exec, execJalr, hs, hm, and_self, if_true]
  · exact ⟨_, exec_issue _ s k hs, State.issue_pc .., by simp [ratName, Instr.op, Op.writesReg],
      State.issue_bp .., State.issue_rob ..⟩
  · exact (Completed.plain (i := .jalr rd rs1 imm) rfl rfl).exec_eq hs hst
  · rw [exec_commit_of (.jalr rd rs1 imm) 0 s hs (fun h => by cases h)]
    simp only [Instr.op, commitOf, State.commitPlain, hr]
    simp [State.retire, State.wake, State.afterCommit]

end Sys2Proof.Machine
end

section
/-! Stages with nothing to do, or one station to visit, and the step of a machine with nothing in flight
(spec/50_pipeline_step.md R180). -/

namespace Sys2Proof.Machine

variable {s t : State}

/-! ### Stations that hold nothing -/

/-- Every station but the `k`-th of pool `p` holds nothing. -/
def State.OthersIdle (p : PoolId) (k : Nat) (s : State) : Prop :=
  ∀ p' k' st, (p', k') ≠ (p, k) → s.station? p' k' = some st → st.busy = false

theorem State.Drained.idle (hd : s.Drained) {p : PoolId} {k : Nat} {st : Station}
    (hs : s.station? p k = some st) : st.busy = false :=
  hd.stations st (station?_mem hs)

theorem Scanned.of_idle {l : List (PoolId × Nat)}
    (h : ∀ x ∈ l, ∀ st, s.station? x.1 x.2 = some st → st.busy = false) : Scanned l s s := by
  induction l with
  | nil => exact .nil s
  | cons x l ih =>
    exact .cons x.1 x.2 l s s s (.skip (h x List.mem_cons_self))
      (ih fun y hy => h y (List.mem_cons_of_mem _ hy))

/-- A scan that visits one busy station, once. -/
theorem Scanned.of_visit {p : PoolId} {k : Nat} {l : List (PoolId × Nat)} (hn : l.Nodup) (hl : (p, k) ∈ l)
    (hs : s.OthersIdle p k) (ht : t.OthersIdle p k) (hv : Visited p k s t) : Scanned l s t := by
  induction l with
  | nil => cases hl
  | cons x l ih =>
    obtain ⟨hx, hn⟩ := List.nodup_cons.1 hn
    by_cases hxp : x = (p, k)
    · subst hxp
      exact .cons p k l s t t hv (.of_idle fun y hy st =>
        ht y.1 y.2 st fun h => hx ((show y = (p, k) from h) ▸ hy))
    · exact .cons x.1 x.2 l s s t (.skip (hs x.1 x.2 · hxp))
        (ih hn ((List.mem_cons.1 hl).resolve_left fun h => hxp h.symm))

theorem scanOrder_nodup (s : State) : (scanOrder s).Nodup := by
  have hinj : ∀ p : PoolId, Function.Injective fun k : Nat => (p, k) := fun p a b h => (Prod.mk.inj h).2
  refine List.nodup_append.2 ⟨(List.nodup_range).map (hinj _), (List.nodup_range).map (hinj _), ?_⟩
  intro x hx y hy
  obtain ⟨a, -, rfl⟩ := List.mem_map.1 hx
  obtain ⟨b, -, rfl⟩ := List.mem_map.1 hy
  simp

/-- The Execute stage of a machine in which one station is busy. -/
theorem executeStage_of_visit {p : PoolId} {k : Nat} {st : Station} (hst : s.station? p k = some st)
    (hs : s.OthersIdle p k) (ht : t.OthersIdle p k) (hv : Visited p k s t) : executeStage s = .next t :=
  (Scanned.of_visit (scanOrder_nodup s) (mem_scanOrder hst) hs ht hv).scan_eq

theorem executeStage_of_idle (h : ∀ st ∈ s.stations, st.busy = false) : executeStage s = .next s :=
  (Scanned.of_idle fun _ _ _ hs => h _ (station?_mem hs)).scan_eq

/-! ### The ends of the other stages -/

theorem commitStage_of_empty (n : Nat) (h : s.rob = []) : commitStage n s = .next (s, false) := by
  cases n with
  | zero => rfl
  | succ n => simp only [commitStage, h]

theorem commitStage_of_not_ready (n : Nat) {h : RobEntry} {tl : List RobEntry} (hr : s.rob = h :: tl)
    (hd : h.ready = false) : commitStage n s = .next (s, false) := by
  cases n with
  | zero => rfl
  | succ n => simp only [commitStage, hr, hd, Bool.false_eq_true, if_false]

/-- Issue ends at once where there is nothing to fetch (R202). -/
theorem issueStage_of_nothing (n : Nat) (h : s.program.lookup s.pc = none) : issueStage n s = .next s := by
  cases n with
  | zero => rfl
  | succ n => simp only [issueStage, nextIssue_none.2 (.inr (.inl h))]

/-! ### The step of a drained machine -/

theorem State.ComponentInv.pool_length (hc : s.ComponentInv) (ha : s.Admitted) (p : PoolId) :
    0 < (s.pool p).length := by
  obtain ⟨-, -, halu, hls, -⟩ := Config.wf_parts ((startRefusal_none _ _).1 ha).1
  cases p with
  | alu => rw [State.pool_alu, hc.aluSize]; exact halu
  | ls => rw [State.pool_ls, hc.lsSize]; exact hls

/-- The first attempt of a drained machine takes station 0 of the pool (R201 to R203). -/
theorem State.Drained.nextIssue (hd : s.Drained) (hrob : 0 < s.cfg.robSize) {r : Record}
    (hl : s.program.lookup s.pc = some r) (hp : 0 < (s.pool r.instr.op.pool).length) :
    s.nextIssue = some (r.instr, 0) := by
  have hst : s.station? r.instr.op.pool 0 = some (s.pool r.instr.op.pool)[0] := List.getElem?_eq_getElem hp
  exact nextIssue_eq_some (by rw [hd.rob]; exact hrob) hl ⟨_, hst, hd.idle hst⟩ fun j st hj => by omega

/-- The step of a drained machine is its Issue stage, whose first attempt issues what stands at `pc`. -/
theorem State.Drained.step_issue (hd : s.Drained) (hp : ∀ p, 0 < (s.pool p).length) (ha : s.Admitted)
    {r : Record} (hl : s.program.lookup s.pc = some r) :
    ∃ v, exec r.instr (s.beginCycle.atStage (.issue 0)) = .next v ∧
      ∀ u, issueStage (s.cfg.width - 1) v = .next u → step s = .next u.endCycle := by
  obtain ⟨hrob, hwidth, -⟩ := Config.wf_parts ((startRefusal_none _ _).1 ha).1
  have hn : s.beginCycle.nextIssue = some (r.instr, 0) := hd.nextIssue hrob hl (hp _)
  obtain ⟨v, hv, hrest⟩ := issueStage_succ hn
  refine ⟨v, hv, fun u hu => step_of_full ha hd.fault (commitStage_of_empty _ hd.rob)
    (executeStage_of_idle hd.stations) ?_⟩
  rw [← hu, ← hrest, Nat.sub_add_cancel hwidth]
  rfl

theorem withFetchWord_program (s : State) (w : Word) {i : Instr} (h : decode w = some i) :
    (s.withFetchWord 32 w.toNat).program = s.program.place s.pc (.record (i.record s.pc)) := by
  have hw : BitVec.ofNat 32 (w.toNat % 2 ^ 32) = w := by
    rw [Nat.mod_eq_of_lt w.isLt, BitVec.ofNat_toNat, BitVec.setWidth_eq]
  simp only [State.withFetchWord, hw, slotOfWord, h]

/-- Settles O49: the record placed at `pc` is the one fetched there, and its instruction the one decoded. -/
theorem drainedStepIssuesTheFetchedWord : Obligations.DrainedStepIssuesTheFetchedWord := by
  intro s w i hd hc ha hw
  have hl : (s.withFetchWord 32 w.toNat).program.lookup s.pc = some (i.record s.pc) := by
    rw [withFetchWord_program s w hw, lookup_place]
  have hd' : (s.withFetchWord 32 w.toNat).Drained :=
    ⟨hd.rob, hd.lsq, hd.stations, hd.rat, hd.fault, hd.atRest⟩
  have hc' : (s.withFetchWord 32 w.toNat).ComponentInv :=
    ⟨hc.memCanonical, hc.memInRange, hc.aluSize, hc.lsSize, hc.robSize, hc.l1i, hc.l1d, hc.predictor,
      hc.atRest⟩
  have h := hd'.step_issue (hc'.pool_length ha) ha hl
  rwa [Instr.record_instr] at h

end Sys2Proof.Machine
end

section
/-! An instruction that runs alone, from its issue to its commit (spec/50_pipeline_step.md R190,
spec/52_execute_cdb.md R233 to R246). -/

namespace Sys2Proof.Machine

variable {s t : State} {i : Instr}

/-! ### The states between issue and commit -/

/-- Beside the state `s` in which `i` issued alone: what stays while `i` is in flight, and that Issue finds
nothing more. -/
structure Alone (s : State) (i : Instr) (t : State) : Prop where
  cfg : t.cfg = s.cfg
  program : t.program = s.program
  data : t.data = s.data
  rat : t.rat = ratName i s.nextTag s.rat
  pc : t.pc = nextFetch i false s.pc
  fault : t.fault = none
  committed : t.counters.committed = s.counters.committed
  last : t.program.lookup t.pc = none

/-- The station of `i`, issued in the drained state `s`, with `n` cycles left. -/
def State.heldStation (s : State) (i : Instr) (n : Nat) : Station :=
  { s.issuedStation i with
    rem := n
    ea := if n < i.op.latency s.cfg ∧ i.op.isMem = true then some (s.data.ea i) else none }

/-- The instruction `i` is in station 0 of its pool with `n` cycles left, and nothing else is in flight. -/
structure InStation (s : State) (i : Instr) (n : Nat) (t : State) : Prop extends Alone s i t where
  rob : t.rob = [s.issuedEntry i false]
  lsq : t.lsq = lsqPush i s.nextTag []
  station : t.station? i.op.pool 0 = some (s.heldStation i n)
  others : t.OthersIdle i.op.pool 0

/-- The ROB entry of `i` when its result is there. -/
def State.readyEntry (s : State) (i : Instr) : RobEntry :=
  { s.issuedEntry i false with result := s.data.value s.cfg i, ready := true }

/-- The LSQ entry of the load or store `i` when it is resolved. -/
structure Resolved (s : State) (i : Instr) (q : LsqEntry) : Prop where
  tag : q.tag = s.nextTag
  ready : q.memReady = true
  addr : q.addr = some (s.data.ea i)
  data : i.op = .sw → q.data = some (s.data.read i.slotK)

/-- The instruction `i` is the ready head of the ROB, and nothing else is in flight. -/
structure AtHead (s : State) (i : Instr) (t : State) : Prop extends Alone s i t where
  rob : t.rob = [s.readyEntry i]
  lsq : if i.op.isMem then ∃ q, t.lsq = [q] ∧ Resolved s i q else t.lsq = []
  idle : ∀ st ∈ t.stations, st.busy = false

theorem Alone.beginCycle (h : Alone s i t) : Alone s i t.beginCycle :=
  ⟨h.cfg, h.program, h.data, h.rat, h.pc, h.fault, h.committed, h.last⟩

theorem Alone.endCycle (h : Alone s i t) : Alone s i t.endCycle :=
  ⟨h.cfg, h.program, h.data, h.rat, h.pc, h.fault, h.committed, h.last⟩

theorem Alone.execute (h : Alone s i t) {u : State} (hf : ExecuteFrame t u) : Alone s i u := by
  refine ⟨hf.cfg.trans h.cfg, hf.program.trans h.program, ?_, hf.rat.trans h.rat, hf.pc.trans h.pc,
    hf.fault.trans h.fault, by rw [hf.counters, h.committed], by rw [hf.program, hf.pc, h.last]⟩
  rw [← h.data, State.data, State.data, hf.arf, hf.mem]

theorem InStation.endCycle {n : Nat} (h : InStation s i n t) : InStation s i n t.endCycle := by
  have hst : ∀ p k, t.endCycle.station? p k = t.station? p k := fun p k => by cases p <;> rfl
  exact ⟨h.toAlone.endCycle, h.rob, h.lsq, (hst _ _).trans h.station, fun p k st hne hs =>
    h.others p k st hne ((hst p k).symm.trans hs)⟩

theorem AtHead.endCycle (h : AtHead s i t) : AtHead s i t.endCycle :=
  ⟨h.toAlone.endCycle, h.rob, h.lsq, h.idle⟩

/-! ### Issue -/

/-- A source of a drained machine is its register, and waits for nothing (R206). -/
theorem State.Drained.rename (hd : s.Drained) (r : Reg) : s.rename r = (s.data.read r, none) := by
  unfold State.rename Data.read
  split
  · rfl
  · rw [hd.rat r]; rfl

theorem State.Drained.held_wakeable (hd : s.Drained) (i : Instr) (n : Nat) :
    (s.heldStation i n).wakeable = true := by
  simp [State.heldStation, State.issuedStation, Station.wakeable, hd.rename]

/-- An issue into station 0 of a pool replaces it and no other. -/
theorem issue_othersIdle (hidle : ∀ st ∈ s.stations, st.busy = false)
    (hp : 0 < (s.pool i.op.pool).length) (b : Bool) (n : Word) :
    (s.issue i 0 b n).station? i.op.pool 0 = some (s.issuedStation i) ∧
      (s.issue i 0 b n).OthersIdle i.op.pool 0 := by
  refine ⟨?_, fun p k st hne hs => hidle st (station?_mem (p := p) (k := k) ?_)⟩
  · rw [State.station?, State.issue_pool_self, List.getElem?_set_self hp]
  · rw [← hs]
    by_cases hpp : p = i.op.pool
    · subst hpp
      rw [State.station?, State.station?, State.issue_pool_self,
        List.getElem?_set_ne (by rintro rfl; exact hne rfl)]
    · rw [State.station?, State.station?, State.issue_pool_ne _ _ _ _ _ hpp]

theorem State.heldStation_latency (s : State) (i : Instr) :
    s.heldStation i (i.op.latency s.cfg) = s.issuedStation i := by
  simp [State.heldStation, State.issuedStation]

/-- The step that issues `i`. -/
theorem State.Drained.step_inStation (hd : s.Drained) (hp : ∀ p, 0 < (s.pool p).length) (ha : s.Admitted)
    {r : Record} (hl : s.program.lookup s.pc = some r) (hb : r.instr.op.isCondBranch = false)
    (hlast : s.program.lookup (nextFetch r.instr false s.pc) = none) :
    ∃ t, step s = .next t ∧ InStation s r.instr (r.instr.op.latency s.cfg) t := by
  obtain ⟨v, hv, hrest⟩ := hd.step_issue hp ha hl
  have hpred : predicted r.instr (s.beginCycle.atStage (.issue 0)) = false := by
    rw [predicted, hb, Bool.false_and]
  rw [exec_issue _ _ 0 rfl, hpred] at hv
  cases hv
  obtain ⟨hst, hothers⟩ := issue_othersIdle (s := s.beginCycle.atStage (.issue 0)) (i := r.instr)
    hd.stations (hp _) false (nextFetch r.instr false s.pc)
  refine ⟨_, hrest _ (issueStage_of_nothing _ (by simpa using hlast)),
    InStation.endCycle ⟨?_, ?_, ?_, ?_, hothers⟩⟩
  · exact ⟨by simp, by simp, by simp [State.data], by simp, by simp, by simpa using hd.fault, by simp,
      by simpa using hlast⟩
  · simp [hd.rob]
    rfl
  · simp [hd.lsq]
  · rw [State.heldStation_latency]
    exact hst

/-! ### Execute -/

/-- A cycle in which the instruction in flight is not ready is its Execute stage. -/
theorem InStation.step_execute {n : Nat} (h : InStation s i n t) (ha : s.Admitted) {u : State}
    (he : executeStage t.beginCycle = .next u) : step t = .next u.endCycle ∧ Alone s i u := by
  have hu : Alone s i u := h.toAlone.beginCycle.execute (executeStage_scanned he).frame
  exact ⟨step_of_full (ha.of_fixed ⟨h.cfg, h.program⟩) h.fault
    (commitStage_of_not_ready _ (tl := []) h.rob rfl) he (issueStage_of_nothing _ hu.last), hu⟩

theorem immOf_eq_record (i : Instr) (pc : Word) : (i.record pc).imm = immOf i := by cases i <;> rfl

/-- A visit takes a cycle off the count; the first one finds the address of a load or store (R233, R234). -/
theorem State.Drained.held_countdown (hd : s.Drained) {n : Nat} (hn : n + 1 ≤ i.op.latency s.cfg) :
    (s.heldStation i (n + 1)).countdown = s.heldStation i n := by
  have hea : effectiveAddress (s.issuedStation i).vj (s.issuedStation i).instr.imm = s.data.ea i := by
    simp [State.issuedStation, hd.rename, Data.ea, immOf_eq_record]
  have hmem : (s.issuedStation i).instr.op.isMem = i.op.isMem := by
    rw [State.issuedStation, Instr.record_op]
  have htotal : (s.issuedStation i).total = i.op.latency s.cfg := rfl
  have hlt : n < i.op.latency s.cfg := hn
  rcases Nat.eq_or_lt_of_le hn with hfirst | hlater
  · simp [State.heldStation, Station.countdown, hea, hmem, htotal, ← hfirst]
  · simp [State.heldStation, Station.countdown, hmem, htotal, hlater, hlater.ne, hlt]

/-- Replacing the one busy station. -/
theorem State.OthersIdle.setStation {p : PoolId} {k : Nat} (h : s.OthersIdle p k) (st : Station) :
    (s.setStation p k st).OthersIdle p k := fun p' k' st' hne hs =>
  h p' k' st' hne (by rwa [station?_setStation_ne _ _ _ _ _ _ hne] at hs)

theorem Visited.count_of_wakeable {p : PoolId} {k : Nat} {st : Station} (hs : s.station? p k = some st)
    (hb : st.busy = true) (hw : st.wakeable = true) (hr : st.countdown.rem ≠ 0) :
    Visited p k s (s.setStation p k st.countdown) := by
  have hc := st.captureFrom_wakeable s.rob hw
  have hv := Visited.count (s := s) st hs hb
  rw [hc] at hv
  exact hv hw hr

theorem Visited.complete_of_wakeable {p : PoolId} {k : Nat} {st : Station} (hs : s.station? p k = some st)
    (hb : st.busy = true) (hw : st.wakeable = true) (hr : st.countdown.rem = 0)
    (hc : Completed st.instr.instr p k st.countdown
      ((s.setStation p k st.countdown).atStage (.execute p k)) t) : Visited p k s t := by
  have hst := st.captureFrom_wakeable s.rob hw
  have hv := Visited.complete (s := s) st t hs hb
  rw [hst] at hv
  exact hv hw hr hc

theorem InStation.step_count {n : Nat} (h : InStation s i (n + 2) t) (hd : s.Drained) (ha : s.Admitted)
    (hn : n + 2 ≤ i.op.latency s.cfg) : ∃ u, step t = .next u ∧ InStation s i (n + 1) u := by
  have hst : t.beginCycle.station? i.op.pool 0 = some (s.heldStation i (n + 2)) := h.station
  have hothers : t.beginCycle.OthersIdle i.op.pool 0 := h.others
  have hv := Visited.count_of_wakeable hst rfl (hd.held_wakeable i _)
    (by rw [hd.held_countdown hn]; exact Nat.succ_ne_zero n)
  rw [hd.held_countdown hn] at hv
  obtain ⟨hstep, hu⟩ := h.step_execute ha (executeStage_of_visit hst hothers (hothers.setStation _) hv)
  exact ⟨_, hstep, InStation.endCycle ⟨hu, by simpa using h.rob, by simpa using h.lsq,
    State.station?_setStation_self _ _ _ _ _ hst, hothers.setStation _⟩⟩

/-! ### Completion -/

theorem stations_idle_of_station? (h : ∀ p k st, s.station? p k = some st → st.busy = false) :
    ∀ st ∈ s.stations, st.busy = false := by
  intro st hst
  rcases List.mem_append.1 hst with hm | hm
  · obtain ⟨k, hk⟩ := List.mem_iff_getElem?.1 hm
    exact h .alu k st hk
  · obtain ⟨k, hk⟩ := List.mem_iff_getElem?.1 hm
    exact h .ls k st hk

/-- Freeing the one busy station, in a state with the same pools. -/
theorem State.OthersIdle.free {p : PoolId} {k : Nat} {st st₀ : Station} (h : s.OthersIdle p k)
    (hs : s.station? p k = some st₀) (halu : t.alu = s.alu) (hls : t.ls = s.ls) :
    ∀ st' ∈ (t.freeStationAt p k st).stations, st'.busy = false := by
  have hst : ∀ p k, t.station? p k = s.station? p k := fun p k => by
    cases p <;> simp [State.station?, State.pool, halu, hls]
  refine stations_idle_of_station? fun p' k' st' hst' => ?_
  by_cases hne : (p', k') = (p, k)
  · cases hne
    rw [State.freeStationAt, State.station?_setStation_self t _ _ _ _ ((hst _ _).trans hs)] at hst'
    cases hst'
    rfl
  · rw [State.freeStationAt, station?_setStation_ne _ _ _ _ _ _ hne, hst] at hst'
    exact h p' k' st' hne hst'

theorem robUpdate_singleton (e : RobEntry) (f : RobEntry → RobEntry) : robUpdate e.tag f [e] = [f e] := by
  simp [robUpdate]

/-- The LSQ of an instruction that issued alone (R209). -/
theorem lsqPush_nil (x : Nat) {kind : LsqKind} (h : i.op.lsqKind = some kind) :
    lsqPush i x [] = [⟨x, kind, none, none, false⟩] := by
  simp [lsqPush, h]

theorem lsqPush_of_not_mem (x : Nat) (lsq : List LsqEntry) (h : i.op.isMem = false) :
    lsqPush i x lsq = lsq := by
  rw [Op.isMem, Option.isSome_eq_false_iff, Option.isNone_iff_eq_none] at h
  simp [lsqPush, h]

/-- What the completion of an instruction that runs alone leaves in the queues: nothing holds up a load or
store, whose address is there and whose LSQ entry is the only one (R237 to R239, R241). -/
theorem Completed.alone {x : State} {p : PoolId} {k : Nat} (hc : Completed i p k (s.heldStation i 0) x t)
    (hd : s.Drained) (hn : 1 ≤ i.op.latency s.cfg) (hb : i.op.isCondBranch = false) (hcfg : x.cfg = s.cfg)
    (hdata : x.data = s.data) (hrob : x.rob = [s.issuedEntry i false])
    (hlsq : x.lsq = lsqPush i s.nextTag []) (hst : x.station? p k = some (s.heldStation i 0))
    (hothers : x.OthersIdle p k) :
    t.rob = [s.readyEntry i] ∧ (∀ st ∈ t.stations, st.busy = false) ∧
      if i.op.isMem then ∃ q, t.lsq = [q] ∧ Resolved s i q else t.lsq = [] := by
  have hdest : (s.heldStation i 0).dest = s.nextTag := rfl
  have hvj : (s.heldStation i 0).vj = s.data.read i.slotJ := congrArg Prod.fst (hd.rename i.slotJ)
  have hvk : (s.heldStation i 0).vk = s.data.read i.slotK := congrArg Prod.fst (hd.rename i.slotK)
  have hea : i.op.isMem = true → (s.heldStation i 0).ea = some (s.data.ea i) := fun hm => if_pos ⟨hn, hm⟩
  have hentry : ∀ v, v = s.data.value s.cfg i →
      robUpdate s.nextTag (fun e => { e with result := v, ready := true }) x.rob = [s.readyEntry i] := by
    rintro v rfl
    rw [hrob]
    exact robUpdate_singleton (s.issuedEntry i false) _
  have hvalue : i.op ≠ .lw → resultOf i (s.data.read i.slotJ) (s.data.read i.slotK) = s.data.value s.cfg i :=
    fun ho => by rw [Data.value, if_neg ho]
  have hgate : i.op = .lw → x.loadGateOpen s.nextTag = true := fun ho => by
    rw [lsqPush_nil _ (show i.op.lsqKind = some .load by rw [ho]; rfl)] at hlsq
    simp [State.loadGateOpen, olderStore, hlsq]
  cases hc with
  | plain hm =>
    refine ⟨?_, hothers.free hst rfl rfl, ?_⟩
    · rw [State.freeStationAt_rob, State.broadcast_rob, hdest, hvj, hvk]
      exact hentry _ (hvalue fun ho => by rw [ho] at hm; cases hm)
    · rw [hm, State.freeStationAt_lsq, State.broadcast_lsq, hlsq, lsqPush_of_not_mem _ _ hm]
      rfl
  | branch h => rw [hb] at h; cases h
  | load ho ea he hg =>
    have hm : i.op.isMem = true := by rw [ho]; rfl
    rw [hea hm, Option.some.injEq] at he
    refine ⟨?_, hothers.free hst rfl rfl, ?_⟩
    · rw [State.freeStationAt_rob, State.broadcast_rob, hdest]
      refine hentry _ ?_
      simp only [State.memRead, Data.value, ho, if_true, ← he, ← hdata, hcfg, State.data_mem]
    · rw [if_pos hm, State.freeStationAt_lsq, State.broadcast_lsq, hlsq,
        lsqPush_nil _ (show i.op.lsqKind = some .load by rw [ho]; rfl)]
      exact ⟨⟨s.nextTag, .load, some ea, none, true⟩, by simp [lsqUpdate, hdest], rfl, rfl, by rw [he],
        fun hs => by rw [ho] at hs; cases hs⟩
  | store ho ea he =>
    have hm : i.op.isMem = true := by rw [ho]; rfl
    rw [hea hm, Option.some.injEq] at he
    refine ⟨?_, hothers.free hst rfl rfl, ?_⟩
    · rw [State.freeStationAt_rob, State.broadcast_rob, hdest, hvk]
      refine hentry _ ?_
      rw [← hvalue fun hl => by rw [ho] at hl; cases hl]
      cases i with
      | sw => rfl
      | _ => cases ho
    · rw [if_pos hm, State.freeStationAt_lsq, State.broadcast_lsq, hlsq,
        lsqPush_nil _ (show i.op.lsqKind = some .store by rw [ho]; rfl)]
      exact ⟨⟨s.nextTag, .store, some ea, some (s.heldStation i 0).vk, true⟩, by simp [lsqUpdate, hdest],
        rfl, rfl, by rw [he], fun _ => by rw [hvk]⟩
  | stay hm hw =>
    rcases hw with he | ⟨ho, hg⟩
    · rw [hea hm] at he; cases he
    · rw [hdest, hgate ho] at hg; cases hg

/-- The step in which the last cycle is counted and the instruction completes. -/
theorem InStation.step_complete (h : InStation s i 1 t) (hd : s.Drained) (ha : s.Admitted)
    (hn : 1 ≤ i.op.latency s.cfg) (hb : i.op.isCondBranch = false) :
    ∃ u, step t = .next u ∧ AtHead s i u := by
  have hst : t.beginCycle.station? i.op.pool 0 = some (s.heldStation i 1) := h.station
  have hothers : t.beginCycle.OthersIdle i.op.pool 0 := h.others
  have hst0 := State.station?_setStation_self t.beginCycle i.op.pool 0 (s.heldStation i 0) _ hst
  obtain ⟨u, -, hc⟩ := exec_execute i
    ((t.beginCycle.setStation i.op.pool 0 (s.heldStation i 0)).atStage (.execute i.op.pool 0)) i.op.pool 0
    (s.heldStation i 0) rfl hst0
  obtain ⟨hrob, hidle, hlsq⟩ := hc.alone hd hn hb (by simpa using h.cfg)
    (by simpa [State.data] using h.data) (by simpa using h.rob) (by simpa using h.lsq) hst0
    (hothers.setStation _)
  have hv : Visited i.op.pool 0 t.beginCycle u := by
    refine .complete_of_wakeable hst rfl (hd.held_wakeable i _) ?_ ?_ <;> rw [hd.held_countdown hn]
    · rfl
    · rwa [show (s.heldStation i 1).instr.instr = i from Instr.record_instr i s.pc]
  obtain ⟨hstep, hu⟩ := h.step_execute ha
    (executeStage_of_visit hst hothers (fun p k st _ hs => hidle st (station?_mem hs)) hv)
  exact ⟨_, hstep, AtHead.endCycle ⟨hu, hrob, hlsq, hidle⟩⟩

/-! ### Commit -/

theorem Retires.stations {h : RobEntry} (hu : Retires h s t) :
    t.stations = s.stations.map fun st => if st.busy then st.capture h.tag h.result else st := by
  cases hu <;> simp [State.stations]

theorem Retires.idle {h : RobEntry} (hu : Retires h s t) (hs : ∀ st ∈ s.stations, st.busy = false) :
    ∀ st ∈ t.stations, st.busy = false := by
  rw [hu.stations]
  intro st hst
  obtain ⟨st', hm, rfl⟩ := List.mem_map.1 hst
  rw [hs st' hm]
  exact hs st' hm

theorem Retires.pc {h : RobEntry} (hu : Retires h s t) : t.pc = s.pc := by
  cases hu <;> simp

/-- What a retiring commit does to the RAT (R264). -/
theorem Retires.rat {h : RobEntry} (hu : Retires h s t) :
    t.rat = if h.op.writesReg then (s.commitReg h.rd h).rat else s.rat := by
  cases hu with
  | branch hb => rcases (Op.isCondBranch_iff h.op).1 hb with ho | ho <;> rw [ho] <;> rfl
  | writing hw => rw [hw]; rfl
  | load ho => rw [ho]; rfl
  | store ho => rw [ho]; rfl
  | plain hw => rw [hw]; rfl

theorem commitReg_data (s : State) (h : RobEntry) (hr : i.rd = h.rd) (hw : i.op.writesReg = true)
    (hs : i.op ≠ .sw) (hv : h.result = s.data.value s.cfg i) :
    (s.commitReg h.rd h).data = s.data.run s.cfg i := by
  unfold State.commitReg Data.run
  by_cases h0 : h.rd = 0 <;> simp [h0, hr, hw, hs, hv, State.data]

/-- A retiring commit has the effect of the instruction whose result, address and data the queues hold. -/
theorem Retires.data_run {h : RobEntry} (hu : Retires h s t) (ho : i.op = h.op) (hr : i.rd = h.rd)
    (hv : h.result = s.data.value s.cfg i)
    (hq : ∀ q a, memoryHead h s.lsq = some (q, a) →
      a = s.data.ea i ∧ (i.op = .sw → q.data = some (s.data.read i.slotK))) :
    t.data = s.data.run s.cfg i := by
  cases hu with
  | branch hb =>
    rw [Data.run_plain]
    · rfl
    · rcases (Op.isCondBranch_iff h.op).1 hb with hx | hx <;> rw [ho, hx] <;> rfl
    · rcases (Op.isCondBranch_iff h.op).1 hb with hx | hx <;> rw [ho, hx] <;> decide
  | writing hw hm =>
    exact commitReg_data s h hr (ho ▸ hw) (fun hx => by rw [← ho, hx] at hw; cases hw) hv
  | load hl =>
    exact commitReg_data s h hr (by rw [ho, hl]; rfl) (by rw [ho, hl]; decide) hv
  | store hs q a v hm hf hd =>
    obtain ⟨rfl, hdata⟩ := hq q a hm
    rw [hdata (ho.trans hs), Option.some.injEq] at hd
    have hw : i.op.writesReg = false := by rw [ho, hs]; rfl
    simp only [Data.run, hw, Bool.false_eq_true, false_and, if_false, if_pos (ho.trans hs), hd]
    rfl
  | plain hw hm =>
    rw [Data.run_plain _ _ (ho ▸ hw) (fun hx => by rw [← ho, hx] at hm; cases hm)]
    rfl

theorem AtHead.memoryHead_eq (h : AtHead s i t) (hm : i.op.isMem = true) :
    ∃ q, memoryHead (s.readyEntry i) t.lsq = some (q, s.data.ea i) ∧ Resolved s i q := by
  obtain ⟨q, hq, hr⟩ := (if_pos hm).mp h.lsq
  exact ⟨q, memoryHead_eq_some.2 ⟨by rw [hq]; rfl, hr.tag, hr.ready, hr.addr⟩, hr⟩

theorem AtHead.memoryHead_some (h : AtHead s i t) {q : LsqEntry} {a : Word}
    (hq : memoryHead (s.readyEntry i) t.lsq = some (q, a)) : a = s.data.ea i ∧ Resolved s i q := by
  cases hm : i.op.isMem with
  | true =>
    obtain ⟨q', hq', hres⟩ := h.memoryHead_eq hm
    cases hq.symm.trans hq'
    exact ⟨rfl, hres⟩
  | false =>
    have hl : t.lsq = [] := by simpa [hm] using h.lsq
    rw [hl] at hq
    cases hq

theorem AtHead.not_stalls (h : AtHead s i t) : ¬ Stalls (s.readyEntry i) (t.beginCycle.atStage .commit) := by
  rintro ⟨hm, hn | ⟨q, a, hq, ho, hd⟩⟩
  · obtain ⟨q, hq, -⟩ := h.memoryHead_eq hm
    cases hn.symm.trans hq
  · cases hd.symm.trans ((h.memoryHead_some hq).2.data ho)

theorem AtHead.not_aborts (h : AtHead s i t) (hb : i.op.isCondBranch = false)
    (hf : i.op.isMem = true → addressFault s.cfg s.pc (s.data.ea i) = none) {u : State} :
    ¬ Aborts (s.readyEntry i) (t.beginCycle.atStage .commit) u := by
  intro ha
  cases ha with
  | fault hm q a hq f hfault =>
    obtain ⟨rfl, -⟩ := h.memoryHead_some hq
    have hc : addressFault t.cfg s.pc (s.data.ea i) = some f := hfault
    rw [h.cfg, hf hm] at hc
    cases hc
  | flush hx => cases hb.symm.trans hx

/-- The commit of an instruction whose address, if it has one, is good retires it. -/
theorem AtHead.retires (h : AtHead s i t) (hb : i.op.isCondBranch = false)
    (hf : i.op.isMem = true → addressFault s.cfg s.pc (s.data.ea i) = none) :
    ∃ u, Retires (s.readyEntry i) (t.beginCycle.atStage .commit) u := by
  rcases commitOf_cases (t.beginCycle.atStage .commit) (s.readyEntry i) [] h.rob with ⟨hs, -⟩ | ha | hu
  · exact absurd hs h.not_stalls
  · exact absurd ha (h.not_aborts hb hf)
  · exact ⟨_, hu⟩

/-- The RAT is as before the issue: what it named retires (R264). -/
theorem Retires.rat_architectural {x : State} (hu : Retires (s.readyEntry i) x t) (hd : s.Drained)
    (hx : x.rat = ratName i s.nextTag s.rat) (r : Reg) : t.rat[r] = .architectural := by
  have hname : ∀ r : Reg, x.rat[r] =
      if r = i.rd ∧ r ≠ 0 ∧ i.op.writesReg = true then .renamed s.nextTag else .architectural := fun r => by
    rw [hx, ratName_getElem, hd.rat r]
  have hrat : t.rat = if i.op.writesReg then (x.commitReg i.rd (s.readyEntry i)).rat else x.rat := hu.rat
  rw [hrat]
  split
  · rename_i hw
    rw [commitReg_rat, hname r, hname i.rd]
    simp only [State.readyEntry, State.issuedEntry]
    by_cases hr : r = i.rd ∧ r ≠ 0
    · obtain ⟨rfl, h0⟩ := hr
      simp [h0, hw]
    · rw [if_neg (c := r = i.rd ∧ r ≠ 0 ∧ _) (by tauto), ite_self]
  · rename_i hw
    rw [hname r, if_neg (by tauto)]

/-- The step that commits `i`. -/
theorem AtHead.step_commit (h : AtHead s i t) (hd : s.Drained) (ha : s.Admitted)
    (hb : i.op.isCondBranch = false)
    (hf : i.op.isMem = true → addressFault s.cfg s.pc (s.data.ea i) = none) :
    ∃ u, step t = .next u ∧ u.data = s.data.run s.cfg i ∧ u.pc = nextFetch i false s.pc ∧ u.Drained ∧
      u.counters.committed = s.counters.committed + 1 := by
  obtain ⟨u, hu⟩ := h.retires hb hf
  obtain ⟨hcount, -, hfault, hrob⟩ := hu.counts
  have hlsq : u.lsq = [] := by
    have hl : u.lsq = if i.op.isMem then t.lsq.tail else t.lsq := hu.lsq
    cases hm : i.op.isMem with
    | true =>
      obtain ⟨q, hq, -⟩ := (if_pos hm).mp h.lsq
      rw [hl, hm, hq]
      rfl
    | false => simpa [hl, hm] using h.lsq
  have hidle := hu.idle h.idle
  have hpc : u.pc = t.pc := hu.pc
  have hdata : u.data = s.data.run s.cfg i := by
    have hx : (t.beginCycle.atStage .commit).data = s.data := h.data
    have hcfg : (t.beginCycle.atStage .commit).cfg = s.cfg := h.cfg
    have hrun := hu.data_run (i := i) rfl rfl (by rw [hx, hcfg]; rfl) fun q a hq => by
      rw [hx]
      exact (h.memoryHead_some hq).imp_right Resolved.data
    rwa [hx, hcfg] at hrun
  have hcommit : commitStage t.cfg.commitWidth t.beginCycle = .next (u, false) := by
    obtain ⟨-, -, -, -, hw, -⟩ := Config.wf_parts ((startRefusal_none _ _).1 ha).1
    rw [h.cfg, ← Nat.sub_add_cancel hw, hu.commitStage_eq _ h.fault h.rob rfl]
    exact commitStage_of_empty _ (hrob.trans (congrArg List.tail h.rob))
  refine ⟨_, step_of_full (ha.of_fixed ⟨h.cfg, h.program⟩) h.fault hcommit (executeStage_of_idle hidle)
    (issueStage_of_nothing _ ?_), hdata, hpc.trans h.pc, ?_, ?_⟩
  · rw [hu.fixed.2, hpc]
    exact h.last
  · exact ⟨hrob.trans (congrArg List.tail h.rob), hlsq, hidle, hu.rat_architectural hd h.rat,
      hfault.trans h.fault, rfl⟩
  · exact hcount.trans (congrArg (· + 1) h.committed)

/-! ### The whole run -/

theorem run_succ (n : Nat) (h : step s = .next t) :
    Host.Core.run Sys2Proof.core (n + 1) s = Host.Core.run Sys2Proof.core n t := by
  have hs : Sys2Proof.core.step s = .next t := h
  simp only [Host.Core.run, hs]

/-- The instruction leaves its station after as many steps as it has cycles left. -/
theorem InStation.run (hd : s.Drained) (ha : s.Admitted) (hb : i.op.isCondBranch = false) {n : Nat} :
    ∀ {t : State}, InStation s i (n + 1) t → n + 1 ≤ i.op.latency s.cfg →
      ∃ u, AtHead s i u ∧
        ∀ m, Host.Core.run Sys2Proof.core (n + 1 + m) t = Host.Core.run Sys2Proof.core m u := by
  induction n with
  | zero =>
    intro t h hn
    obtain ⟨u, hstep, hu⟩ := h.step_complete hd ha hn hb
    exact ⟨u, hu, fun m => by rw [Nat.add_comm, run_succ m hstep]⟩
  | succ n ih =>
    intro t h hn
    obtain ⟨v, hstep, hv⟩ := h.step_count hd ha hn
    obtain ⟨u, hu, hrun⟩ := ih hv (by omega)
    exact ⟨u, hu, fun m => by rw [show n + 1 + 1 + m = n + 1 + m + 1 by omega, run_succ _ hstep, hrun]⟩

/-- What the reference answers for an instruction that does not fault (R190). -/
theorem refStep_runs {u : State} {r : Record} (ha : s.Admitted) (hl : s.program.lookup s.pc = some r)
    (h : refStep s = .next u) :
    (r.op.isMem = true → addressFault s.cfg s.pc (s.data.ea r.instr) = none) ∧
    u.data = s.data.run s.cfg r.instr ∧ u.pc = nextFetch r.instr (s.data.taken r.instr) s.pc := by
  have hf : r.op.isMem = true → addressFault s.cfg s.pc (s.data.ea r.instr) = none := fun hm => by
    cases hx : addressFault s.cfg s.pc (s.data.ea r.instr) with
    | none => rfl
    | some f => cases h.symm.trans (refStep_fault hl hm hx)
  cases h.symm.trans (refStep_next hl (ha.fetched hl).2 hf)
  exact ⟨hf, rfl, rfl⟩

/-- Settles O57: issued in the first step, `latency` steps in its station, committed in the last. -/
theorem aloneInstructionReachesItsEffect : Obligations.AloneInstructionReachesItsEffect := by
  intro s u r hd hc ha hl hbeq hbne href hlast
  have hb : r.instr.op.isCondBranch = false := by
    rw [Record.instr_op, ← Bool.not_eq_true, Op.isCondBranch_iff]
    tauto
  obtain ⟨hf, hdata, hpc⟩ := refStep_runs ha hl href
  rw [nextFetch_plain hb _ false] at hpc
  have hlat : 1 ≤ r.instr.op.latency s.cfg := ha.latency _
  obtain ⟨n, hn⟩ : ∃ n, r.instr.op.latency s.cfg = n + 1 := ⟨_, (Nat.sub_add_cancel hlat).symm⟩
  obtain ⟨t, hissue, ht⟩ := hd.step_inStation (hc.pool_length ha) ha hl hb (hpc ▸ hlast)
  rw [hn] at ht
  obtain ⟨v, hv, hrun⟩ := ht.run hd ha hb hn.ge
  obtain ⟨w, hcommit, hwdata, hwpc, hwd, hwc⟩ := hv.step_commit hd ha hb (by rwa [Record.instr_op])
  refine ⟨r.instr.op.latency s.cfg, w, ?_, ?_, ?_, ?_, ?_, hwd, hwc⟩
  · rw [Record.instr_op]
    cases r.op <;> rfl
  · rw [hn]
    exact (run_succ _ hissue).trans ((hrun 1).trans (run_succ 0 hcommit))
  · exact congrArg Data.arf (hwdata.trans hdata.symm)
  · exact congrArg Data.mem (hwdata.trans hdata.symm)
  · exact hwpc.trans hpc.symm

end Sys2Proof.Machine
end

section
/-! The integer instructions (spec/40_int_alu.md R140 to R148) through the two shared meanings `computing`
and `inert`: what each of these answers in a reading, said once for all instructions that use it. -/

namespace Sys2Proof.Machine

variable {i : Instr} {s : State}

/-! ### Completion and commit -/

theorem State.completeWith_of_station {p : PoolId} {k : Nat} {st : Station} (result : Station → Word)
    (hst : s.station? p k = some st) :
    s.completeWith p k result = (s.broadcast st.dest (result st)).freeStationAt p k st := by
  simp only [State.completeWith, hst]

/-- With register 0 as destination the commit writes no register and reverts no RAT entry (R264). -/
theorem State.retire_eq_afterCommit (s : State) (h : RobEntry) : s.retire h = s.afterCommit 0 h := by
  simp [State.retire, State.wake, State.afterCommit]

/-! ### Instructions that compute a register -/

theorem computing_reference {rd : Reg} {value : Word} {result : Station → Word} (hs : s.stage = .reference) :
    computing i rd value result s = .next { s with
      arf := if rd = 0 then s.arf else s.arf.set rd value
      pc := s.pc + 4 } := by
  simp only [computing, hs, State.writeReg, State.setPc, fallThrough]
  by_cases hrd : rd = 0 <;> simp [hrd, hs]

theorem computing_execute {rd : Reg} {value : Word} {result : Station → Word} {p : PoolId} {k : Nat}
    {st : Station} (hs : s.stage = .execute p k) (hst : s.station? p k = some st) :
    computing i rd value result s = .next ((s.broadcast st.dest (result st)).freeStationAt p k st) := by
  simp only [computing, hs, State.completeWith_of_station result hst]

/-- An instruction whose meaning is `computing` follows the rule of the computing instructions. -/
theorem Computes.of_computing {rd : Reg} {value : State → Word} {result : Station → Word}
    (h : ∀ s, exec i s = computing i rd (value s) result s) : Computes i rd value result :=
  fun s => ⟨fun hs => (h s).trans (computing_reference hs),
    fun _ _ _ hs hst => (h s).trans (computing_execute hs hst)⟩

/-- Settles O6: ADD computes the sum (R140). -/
theorem addGivesTheSum : Obligations.AddGivesTheSum :=
  fun _ _ _ => ⟨fun _ => rfl, .of_computing fun _ => rfl⟩

/-- Settles O7: SUB computes the difference (R141). -/
theorem subGivesTheDifference : Obligations.SubGivesTheDifference :=
  fun _ _ _ => ⟨fun _ => rfl, .of_computing fun _ => rfl⟩

/-- Settles O8: AND, OR and XOR compute their bitwise operation (R142, R143, R144). -/
theorem andOrXorAreBitwise : Obligations.AndOrXorAreBitwise :=
  fun _ _ _ => ⟨fun _ => ⟨rfl, rfl, rfl⟩, .of_computing fun _ => rfl, .of_computing fun _ => rfl,
    .of_computing fun _ => rfl⟩

theorem bitWord_signedLess (a b : Word) : bitWord (signedLess a b) = if a.toInt < b.toInt then 1 else 0 := by
  simp only [bitWord, signedLess, decide_eq_true_eq]

/-- Settles O9: SLT computes the truth value of the signed comparison, as a word (R145). -/
theorem sltComparesSigned : Obligations.SltComparesSigned := by
  intro rd rs1 rs2
  refine ⟨fun _ => rfl, .of_computing fun s => ?_⟩
  simp only [exec, execSlt, bitWord_signedLess]

/-- Settles O10: ADDI computes the sum with its immediate, of any 32 bits (R146). -/
theorem addiAddsTheImmediate : Obligations.AddiAddsTheImmediate :=
  fun _ _ _ => ⟨fun _ => rfl, rfl, .of_computing fun _ => rfl⟩

/-! ### Instructions that write nothing -/

theorem inert_reference {next : Word} (hs : s.stage = .reference) :
    inert i next s = .next { s with pc := next } := by
  simp only [inert, hs, State.setPc]

theorem inert_execute {next : Word} {p : PoolId} {k : Nat} {st : Station} (hs : s.stage = .execute p k)
    (hst : s.station? p k = some st) :
    inert i next s = .next ((s.broadcast st.dest 0).freeStationAt p k st) := by
  simp only [inert, hs, State.completeWith_of_station _ hst]

theorem inert_commit {next : Word} {h : RobEntry} {tl : List RobEntry} (hs : s.stage = .commit)
    (hr : s.rob = h :: tl) : inert i next s = .next (s.afterCommit 0 h) := by
  simp only [inert, hs, State.commitPlain, hr, State.retire_eq_afterCommit]

/-- Settles O11: NOP is inert and goes to `pc + 4` (R147, R243, R268). -/
theorem nopOnlyAdvances : Obligations.NopOnlyAdvances := by
  intro s
  have hnop : exec .nop s = inert .nop (s.pc + 4) s := rfl
  rw [hnop]
  exact ⟨fun _ => rfl, inert_reference, fun _ _ _ => inert_execute, fun _ _ => inert_commit⟩

end Sys2Proof.Machine
end

section
/-! The load and the store in the sequential reference (spec/41_load_store.md R160 to R162): what each
answers for an address with a fault and for a good one. -/

namespace Sys2Proof.Machine

variable {s : State} {rd rs1 rs2 : Reg} {imm : Word}

/-! ### A bad address -/

theorem exec_lw_reference_fault {f : Fault} (hs : s.stage = .reference)
    (hf : addressFault s.cfg s.pc (s.readReg rs1 + imm) = some f) : exec (.lw rd rs1 imm) s = .fault f := by
  simp only [exec, execLw, hs, effectiveAddress, hf]

theorem exec_sw_reference_fault {f : Fault} (hs : s.stage = .reference)
    (hf : addressFault s.cfg s.pc (s.readReg rs1 + imm) = some f) : exec (.sw rs1 rs2 imm) s = .fault f := by
  simp only [exec, execSw, hs, effectiveAddress, hf]

/-! ### A good address -/

/-- Register 0 keeps its value (R22). -/
theorem State.writeReg_eq (s : State) (rd : Reg) (v : Word) :
    s.writeReg rd v = { s with arf := if rd = 0 then s.arf else s.arf.set rd v } := by
  by_cases hrd : rd = 0 <;> simp only [State.writeReg, hrd, if_true, if_false]

/-- The containing word of an address in range (R77). -/
theorem State.memRead_of_lt {a : Word} (h : a.toNat / 4 < s.cfg.memWords) :
    s.memRead a = memWord s.mem (a.toNat / 4) := if_pos h

theorem exec_lw_reference_next (hs : s.stage = .reference)
    (hf : addressFault s.cfg s.pc (s.readReg rs1 + imm) = none) :
    exec (.lw rd rs1 imm) s = .next { s with
      arf := if rd = 0 then s.arf else s.arf.set rd (s.memRead (s.readReg rs1 + imm))
      pc := s.pc + 4 } := by
  simp only [exec, execLw, hs, effectiveAddress, hf, State.writeReg_eq, State.setPc, fallThrough]

theorem exec_sw_reference_next (hs : s.stage = .reference)
    (hf : addressFault s.cfg s.pc (s.readReg rs1 + imm) = none) :
    exec (.sw rs1 rs2 imm) s = .next { s with
      mem := setMemWord ((s.readReg rs1 + imm).toNat / 4) (s.readReg rs2) s.mem
      pc := s.pc + 4 } := by
  simp only [exec, execSw, hs, effectiveAddress, hf, State.memWrite, wordIndex, State.setPc, fallThrough]

/-! ### The two instructions -/

/-- Settles O13: the store writes the word that an aligned address in range names, and no other byte
(R162, R77); an address with a fault stops it (R262). -/
theorem swStoresTheWord : Obligations.SwStoresTheWord := by
  rintro rs1 rs2 imm s _ hs rfl
  refine ⟨fun hmis => exec_sw_reference_fault hs (addressFault_misaligned hmis),
    fun hal hout => exec_sw_reference_fault hs (addressFault_outOfRange hal hout),
    fun hal hin hwf => ⟨_, exec_sw_reference_next hs (addressFault_none.2 ⟨hal, hin⟩),
      setMemWord_wf _ _ _ hwf, memWord_setMemWord_self _ _ _ hwf, fun a ha => ?_⟩⟩
  exact readByte_setMemWord_ne _ _ _ _ (by omega)

/-- Settles O12: the load reads the word that an aligned address in range names (R161, R77); an address
with a fault stops it (R262). -/
theorem lwLoadsTheWord : Obligations.LwLoadsTheWord := by
  rintro rd rs1 imm s _ hs rfl
  refine ⟨fun hmis => exec_lw_reference_fault hs (addressFault_misaligned hmis),
    fun hal hout => exec_lw_reference_fault hs (addressFault_outOfRange hal hout), fun hal hin => ?_⟩
  rw [exec_lw_reference_next hs (addressFault_none.2 ⟨hal, hin⟩), State.memRead_of_lt hin]

end Sys2Proof.Machine
end

section
/-! The control transfers (spec/42_control_transfer.md R170 to R174): the conditional branches through their
shared meaning `branching`, JAL through `inert` and the shared allocation of Issue. -/

namespace Sys2Proof.Machine

/-! ### Conditional branches -/

section Branching

variable {i : Instr} {s : State} {rs1 rs2 : Reg} {imm : Word} {taken : Word → Word → Bool}
  {C : Word → Word → Prop} [DecidableRel C]

theorem branching_reference (htaken : ∀ a b, taken a b = decide (C a b)) (hs : s.stage = .reference) :
    branching i rs1 rs2 imm taken s = .next { s with
      pc := if C (s.readReg rs1) (s.readReg rs2) then s.pc + imm else s.pc + 4 } := by
  simp only [branching, hs, htaken, decide_eq_true_eq, State.setPc, branchTarget, fallThrough]

theorem branching_execute (htaken : ∀ a b, taken a b = decide (C a b)) {p : PoolId} {k : Nat} {st : Station}
    (hs : s.stage = .execute p k) (hst : s.station? p k = some st) :
    branching i rs1 rs2 imm taken s = .next (({ s with rob := robUpdate st.dest (fun e => { e with
        target := if C st.vj st.vk then st.instr.pc + imm else st.instr.pc + 4 }) s.rob }.broadcast
      st.dest (if C st.vj st.vk then 1 else 0)).freeStationAt p k st) := by
  simp only [branching, hs, State.completeBranch, hst, htaken, bitWord, decide_eq_true_eq, branchTarget,
    fallThrough]

end Branching

theorem takenBeq_eq_decide (a b : Word) : takenBeq a b = decide (a = b) := beq_eq_decide a b

theorem takenBne_eq_decide (a b : Word) : takenBne a b = decide (a ≠ b) := by
  simp only [takenBne, bne, beq_eq_decide, decide_not]

/-- Settles O14: BEQ is the branch whose condition is equality (R170, R240). -/
theorem beqBranchesWhenEqual : Obligations.BeqBranchesWhenEqual := by
  intro rs1 rs2 imm s
  have hbeq : exec (.beq rs1 rs2 imm) s = branching (.beq rs1 rs2 imm) rs1 rs2 imm takenBeq s := rfl
  rw [hbeq]
  exact ⟨branching_reference takenBeq_eq_decide, fun _ _ _ => branching_execute takenBeq_eq_decide⟩

/-- Settles O15: BNE is the branch whose condition is inequality (R171, R240). -/
theorem bneBranchesWhenDifferent : Obligations.BneBranchesWhenDifferent := by
  intro rs1 rs2 imm s
  have hbne : exec (.bne rs1 rs2 imm) s = branching (.bne rs1 rs2 imm) rs1 rs2 imm takenBne s := rfl
  rw [hbne]
  exact ⟨branching_reference takenBne_eq_decide, fun _ _ _ => branching_execute takenBne_eq_decide⟩

/-! ### JAL -/

theorem ratName_of_not_writesReg {i : Instr} (h : i.op.writesReg = false) (tag : Nat)
    (rat : Vector RatEntry 32) : ratName i tag rat = rat := by
  simp [ratName, h]

/-- Settles O16: JAL is inert and goes to `pc + imm`; it is of a class that writes no register and is not
predicted, so that Issue names no register and records no prediction (R172). -/
theorem jalJumpsWithoutLink : Obligations.JalJumpsWithoutLink := by
  intro rd imm s
  have hjal : exec (.jal rd imm) s = inert (.jal rd imm) (s.pc + imm) s := rfl
  refine ⟨fun _ => rfl, fun hs => hjal.trans (inert_reference hs), fun k hs => ?issue,
    fun _ _ _ hs hst => hjal.trans (inert_execute hs hst), fun _ _ hs hr => hjal.trans (inert_commit hs hr)⟩
  case issue =>
    exact ⟨_, exec_issue _ s k hs, State.issue_pc .., (State.issue_rat ..).trans (ratName_of_not_writesReg rfl ..),
      State.issue_bp .., State.issue_rob ..⟩

end Sys2Proof.Machine
end

section
/-! The step as a whole (spec/50_pipeline_step.md): a faulted machine (R187), a halted one (R186), and the
first issue attempt of a step (R201 to R203, R215). -/

namespace Sys2Proof.Machine

variable {s : State}

/-- Settles O33: a step leaves a machine with a latched fault alone (R187). -/
theorem faultedStateIsAbsorbing : Obligations.FaultedStateIsAbsorbing :=
  fun _ ha hf => step_of_faulted ha hf

/-- Settles O48: the stop tests pass (R201 to R203), so the first attempt issues, and the attempts behind it
always answer. -/
theorem stepRunsTheDecodedInstruction : Obligations.StepRunsTheDecodedInstruction := by
  intro s t u r k n l ha hf hcommit hexec hwidth hrob hl hpool hfree hbusy
  have hstation : ∀ j, u.station? r.instr.op.pool j = l[j]? := fun j => by
    rw [State.station?, State.pool_of_op, Record.instr_op, ← hpool]
  have hnext : u.nextIssue = some (r.instr, k) :=
    nextIssue_eq_some hrob hl (by simpa only [hstation] using hfree) (by simpa only [hstation] using hbusy)
  obtain ⟨v, hv, hrest⟩ := issueStage_succ hnext
  obtain ⟨w, hw, -⟩ := issueStage_total n v
  refine ⟨v, w, hv, hw, step_of_full ha hf hcommit hexec ?_⟩
  rw [hwidth, hrest, hw]

/-! ### A halted machine -/

/-- Where the ROB is empty the invariants leave nothing anywhere: every busy station, LSQ entry and renamed
register belongs to an entry of the ROB (R41 I3 to I5). -/
theorem State.CoreInv.drained (hi : s.CoreInv) (hrob : s.rob = []) (hf : s.fault = none)
    (hrest : s.stage = .reference) : s.Drained where
  rob := hrob
  lsq := by simpa [State.LsqMatchesRob, hrob] using hi.lsqMatchesRob
  stations st hst := by
    by_contra hb
    obtain ⟨e, he, -⟩ := hi.stationsLive st hst (by simpa using hb)
    simp [hrob] at he
  rat i := by
    cases hr : s.rat[i] with
    | architectural => rfl
    | renamed x =>
      obtain ⟨-, ⟨e, he, -⟩, -⟩ := hi.ratNamesYoungest i x (by rw [hr]; rfl)
      simp [hrob] at he
  fault := hf
  atRest := hrest

theorem State.halted_iff : s.halted = true ↔ s.fault = none ∧ s.rob = [] ∧ s.program.lookup s.pc = none := by
  simp only [State.halted, Bool.and_eq_true, Option.isNone_iff_eq_none, List.isEmpty_iff, and_assoc]

theorem busyCount_of_idle {l : List Station} (h : ∀ st ∈ l, st.busy = false) : busyCount l = 0 :=
  List.countP_eq_zero.2 fun st hst => by simp [h st hst]

/-- A sample of 0 changes neither the sum nor the maximum (R332). -/
theorem Occupancy.add_zero (o : Occupancy) : o.add 0 = o := by
  simp only [Occupancy.add, Nat.add_zero, Nat.max_eq_max, Nat.max_zero]

/-- The sample of a drained machine is 0 everywhere. -/
theorem State.Drained.endCycle (hd : s.Drained) : s.endCycle = s := by
  have halu : busyCount s.alu = 0 := busyCount_of_idle fun st h => hd.stations st (List.mem_append_left _ h)
  have hls : busyCount s.ls = 0 := busyCount_of_idle fun st h => hd.stations st (List.mem_append_right _ h)
  have hcounters : s.sample.counters = s.counters := by
    simp only [State.sample_counters, hd.rob, hd.lsq, halu, hls, List.length_nil, Occupancy.add_zero]
  calc s.endCycle = { s with counters := s.sample.counters, stage := .reference } := rfl
    _ = s := by rw [hcounters, ← hd.atRest]

theorem State.Drained.beginCycle (hd : s.Drained) : s.beginCycle.Drained :=
  ⟨hd.rob, hd.lsq, hd.stations, hd.rat, hd.fault, hd.atRest⟩

/-- Settles O50: a halted machine is drained, so that no stage finds anything to do and the sample is 0. -/
theorem haltedStepOnlyCountsTheCycle : Obligations.HaltedStepOnlyCountsTheCycle := by
  intro s hi hc ha hhalt
  obtain ⟨hf, hrob, hl⟩ := State.halted_iff.1 hhalt
  have hd : s.Drained := hi.drained hrob hf hc.atRest
  rw [step_of_full ha hf (commitStage_of_empty _ hrob) (executeStage_of_idle hd.stations)
    (issueStage_of_nothing _ hl), hd.beginCycle.endCycle]
  rfl

end Sys2Proof.Machine
end

section
/-! The runs of the core beside the sequential reference (spec/50_pipeline_step.md R186, R190, R191): every
reachable state stands behind `refCount` instructions of the reference, and a machine that has not stopped
gets further. -/

namespace Sys2Proof.Machine

variable {c : Config} {p : Program} {s t u v : State} {m n : Nat} {f : Fault}

/-! ### The end of the reference -/

theorem refStep_of_ended (h : u.refEnded = true) : refStep u = .next u := by
  simp only [refStep, Option.isNone_iff_eq_none.1 h]

/-- An ended reference stays (R190). -/
theorem refRun_of_ended (h : u.refEnded = true) (n : Nat) : refRun n u = .next u := by
  induction n with
  | zero => rfl
  | succ n ih => simpa only [refRun, refStep_of_ended h] using ih

/-- A run of the reference that answers passes through its shorter runs. -/
theorem refRun_prefix (hmn : m ≤ n) (h : refRun n s = .next t) : ∃ v, refRun m s = .next v := by
  induction m generalizing n s with
  | zero => exact ⟨s, rfl⟩
  | succ m ih =>
    obtain ⟨n, rfl⟩ : ∃ k, n = k + 1 := ⟨n - 1, by omega⟩
    cases hs : refStep s with
    | next x =>
      simp only [refRun, hs] at h ⊢
      exact ih (by omega) h
    | fault | refused => simp only [refRun, hs, reduceCtorEq] at h

/-- Where the reference faults its run goes no further. -/
theorem refRun_le_of_fault (hm : refRun m s = .next u) (hf : refStep u = .fault f)
    (hn : refRun n s = .next v) : n ≤ m := by
  by_contra hlt
  obtain ⟨x, hx⟩ := refRun_prefix (show m + 1 ≤ n by omega) hn
  rw [refRun_add 1 hm] at hx
  simp only [refRun, hf, reduceCtorEq] at hx

/-- Where the reference ends its run stays. -/
theorem refRun_eq_of_ended (hm : refRun m s = .next u) (he : u.refEnded = true) (hmn : m ≤ n) :
    refRun n s = .next u := by
  rw [← Nat.add_sub_cancel' hmn, refRun_add _ hm, refRun_of_ended he]

/-- The reference ends in one state. -/
theorem refRun_ended_unique (hm : refRun m s = .next u) (hu : u.refEnded = true)
    (hn : refRun n s = .next v) (hv : v.refEnded = true) : u = v :=
  Host.Outcome.next.inj <| (refRun_eq_of_ended hm hu (Nat.le_max_left m n)).symm.trans
    (refRun_eq_of_ended hn hv (Nat.le_max_right m n))

/-! ### Reachable states -/

theorem Reachable.fixed (h : Reachable c p s) : s.cfg = c ∧ s.program = p := by
  induction h with
  | reset => exact ⟨rfl, rfl⟩
  | step s t _ hstep ih =>
    obtain ⟨hc, hp⟩ := parametersAndProgramAreFixed s t hstep
    exact ⟨hc.trans ih.1, hp.trans ih.2⟩

theorem Reachable.admitted (h : Reachable c p s) (h0 : startRefusal c p = none) : s.Admitted := by
  rw [State.Admitted, h.fixed.1, h.fixed.2]
  exact h0

theorem Reachable.coreInv (h : Reachable c p s) : s.CoreInv := by
  induction h with
  | reset => exact resetWith_coreInv c p
  | step s t _ hstep ih => exact coreInvariantsAreKept s t ih (step_cases hstep).1 hstep

theorem Reachable.componentInv (h : Reachable c p s) (h0 : startRefusal c p = none) : s.ComponentInv := by
  induction h with
  | reset => exact resetWith_componentInv c p h0
  | step s t _ hstep ih => exact componentInvariantsAreKept s t ih hstep

theorem Reachable.step_next (h : Reachable c p s) (h0 : startRefusal c p = none) :
    ∃ t, Sys2Proof.Machine.step s = .next t ∧ Reachable c p t := by
  obtain ⟨t, ht⟩ := (h.admitted h0).step_next
  exact ⟨t, ht, h.step s t ht⟩

/-! ### Safety: the core follows the reference -/

/-- The number of reference instructions the core stands behind: those it committed, and the mispredicted
branches it flushed at, which have taken effect (R190, R276). -/
def State.refCount (s : State) : Nat := s.counters.committed + s.counters.flushes

/-- The reference of program `p`, in state `u`, stands where the core in state `s` does, and raises next
the fault that `s` has latched. -/
structure Follows (c : Config) (p : Program) (s u : State) : Prop where
  run : refRun s.refCount (State.resetWith c p) = .next u
  tracks : Tracks u s
  fault : ∀ f, s.fault = some f → refStep u = .fault f

/-- Precise state: what a step keeps of the data in flight carries the reference along. -/
theorem Reachable.follows (h : Reachable c p s) (hgate : c.loadGate = .olderStores) :
    s.DataInv ∧ ∃ u, Follows c p s u := by
  induction h with
  | reset =>
    obtain ⟨-, hd, -⟩ := invariantsHoldAtReset c p
    exact ⟨hd, State.resetWith c p, rfl, ⟨rfl, rfl, rfl, rfl, rfl⟩, fun f hf => by cases hf⟩
  | step s t hs hstep ih =>
    obtain ⟨hd, u, hu⟩ := ih
    obtain ⟨hdt, k, v, hcount, hrun, htracks, hfault⟩ := stepFollowsTheReference s t u hs.coreInv hd
      (by rw [hs.fixed.1]; exact hgate) hu.tracks hu.fault hstep
    refine ⟨hdt, v, ?_, htracks, hfault⟩
    rw [State.refCount, hcount]
    exact (refRun_add k hu.run).trans hrun

/-- Settles O59: the step lemma of the refinement (O58), carried along the run from reset. -/
theorem coreStateIsAReferencePrefix : Obligations.CoreStateIsAReferencePrefix := by
  intro c p s hgate hs
  obtain ⟨-, u, hu⟩ := hs.follows hgate
  exact ⟨u, hu.run, hu.tracks.arf, hu.tracks.mem, hu.tracks.pc, hu.fault⟩

/-- Where the reference has ended the core has halted: an entry in flight would stand at an instruction of
the program (R186). -/
theorem Follows.halted (hu : Follows c p s u) (hd : s.DataInv) (he : u.refEnded = true) :
    s.halted = true := by
  have hl : s.program.lookup s.archPc = none := by
    rw [← hu.tracks.program, ← hu.tracks.pc]
    exact Option.isNone_iff_eq_none.1 he
  have hf : s.fault = none := by
    cases hf : s.fault with
    | none => rfl
    | some f => cases (hu.fault f hf).symm.trans (refStep_of_ended he)
  cases hr : s.rob with
  | nil => exact State.halted_iff.2 ⟨hf, hr, by simpa only [State.archPc, hr] using hl⟩
  | cons h tl =>
    obtain ⟨⟨r, hfetched⟩, -⟩ := hd.fetched h (by rw [hr]; exact List.mem_cons_self)
    simp only [State.archPc, hr, hfetched, reduceCtorEq] at hl

theorem archPc_of_halted (h : s.halted = true) : s.archPc = s.pc := by
  simp only [State.archPc, (State.halted_iff.1 h).2.1]

/-- Where the core has halted the reference has ended. -/
theorem Follows.refEnded (hu : Follows c p s u) (hh : s.halted = true) : u.refEnded = true := by
  rw [State.refEnded, hu.tracks.program, hu.tracks.pc, archPc_of_halted hh, (State.halted_iff.1 hh).2.2]
  rfl

/-! ### Liveness: a machine that has not stopped gets further -/

theorem refCount_mono (h : step s = .next t) : s.refCount ≤ t.refCount := by
  obtain ⟨-, ⟨-, rfl⟩ | ⟨-, c⟩⟩ := step_cases h
  · exact Nat.le_refl _
  · obtain ⟨hc, hf, -⟩ := c.counters_bound
    exact Nat.add_le_add hc hf

/-- `t` stands behind more of the reference than `s`, or has latched a fault. -/
def State.Advances (s t : State) : Prop := s.refCount < t.refCount ∨ t.fault ≠ none

theorem Reachable.ready_head_advances (hs : Reachable c p s) (h0 : startRefusal c p = none)
    (hf : s.fault = none) {h : RobEntry} {tl : List RobEntry} (hr : s.rob = h :: tl) (hd : h.ready = true) :
    ∃ t, Reachable c p t ∧ s.Advances t := by
  have ha := hs.admitted h0
  obtain ⟨t, hstep, ht⟩ := hs.step_next h0
  obtain ⟨hc, hfl, -⟩ := (step_cycled hf hstep).counters_bound
  refine ⟨t, ht, ?_⟩
  rcases (headAlwaysProgresses s t h tl hs.coreInv ha hf hr hstep).1 hd with hlt | hlt | hfault
  · exact .inl (Nat.add_lt_add_of_lt_of_le hlt hfl)
  · exact .inl (Nat.add_lt_add_of_le_of_lt hc hlt)
  · exact .inr hfault

theorem State.Advances.of_step (h : t.Advances v) (hstep : step s = .next t) : s.Advances v :=
  h.imp_left (refCount_mono hstep).trans_lt

/-- With an entry in flight the core advances, by induction on the cycles its head has left. -/
theorem Reachable.head_advances (hs : Reachable c p s) (h0 : startRefusal c p = none) (hf : s.fault = none)
    {h : RobEntry} {tl : List RobEntry} (hr : s.rob = h :: tl) : ∃ t, Reachable c p t ∧ s.Advances t := by
  induction hn : s.remaining h.tag using Nat.strong_induction_on generalizing s h tl with
  | _ n ih =>
    cases hd : h.ready with
    | true => exact hs.ready_head_advances h0 hf hr hd
    | false =>
      obtain ⟨t, hstep, ht⟩ := hs.step_next h0
      by_cases hft : t.fault = none
      · obtain ⟨e, tl', hrob, htag, hcase⟩ :=
          (headAlwaysProgresses s t h tl hs.coreInv (hs.admitted h0) hf hr hstep).2 hd
        obtain ⟨v, hv, hadv⟩ : ∃ v, Reachable c p v ∧ t.Advances v := by
          rcases hcase with hrd | hlt
          · exact ht.ready_head_advances h0 hft hrob hrd
          · exact ih _ (hn ▸ hlt) ht hft hrob (by rw [htag])
        exact ⟨v, hv, hadv.of_step hstep⟩
      · exact ⟨t, ht, .inr hft⟩

theorem Issued.rob_ne_nil (hc : Issued n s t) (h : s.rob ≠ []) : t.rob ≠ [] :=
  hc.keeps (P := fun x => x.rob ≠ []) (fun _ _ hx => hx) (fun x i k _ _ => by simp) h

/-- A drained machine with an instruction at its pc issues it. -/
theorem State.Drained.step_fills (hd : s.Drained) (hp : ∀ q, 0 < (s.pool q).length) (ha : s.Admitted)
    {r : Record} (hl : s.program.lookup s.pc = some r) : ∃ t, step s = .next t ∧ t.fault = none ∧ t.rob ≠ [] := by
  obtain ⟨v, hv, hrest⟩ := hd.step_issue hp ha hl
  obtain ⟨t, ht, hissued⟩ := issueStage_total (s.cfg.width - 1) v
  rw [exec_issue _ _ 0 rfl] at hv
  cases hv
  exact ⟨t.endCycle, hrest t ht, hissued.fault.trans (by simpa using hd.fault),
    hissued.rob_ne_nil (by simp)⟩

/-- A core that has neither halted nor faulted advances. -/
theorem Reachable.advances (hs : Reachable c p s) (h0 : startRefusal c p = none) (hf : s.fault = none)
    (hh : s.halted ≠ true) : ∃ t, Reachable c p t ∧ s.Advances t := by
  cases hr : s.rob with
  | cons h tl => exact hs.head_advances h0 hf hr
  | nil =>
    have ha := hs.admitted h0
    have hc := hs.componentInv h0
    obtain ⟨r, hl⟩ : ∃ r, s.program.lookup s.pc = some r :=
      Option.ne_none_iff_exists'.1 fun hl => hh (State.halted_iff.2 ⟨hf, hr, hl⟩)
    obtain ⟨t, hstep, hft, hrob⟩ := (hs.coreInv.drained hr hf hc.atRest).step_fills (hc.pool_length ha) ha hl
    obtain ⟨h, tl, hr'⟩ := List.exists_cons_of_ne_nil hrob
    obtain ⟨v, hv, hadv⟩ := (hs.step s t hstep).head_advances h0 hft hr'
    exact ⟨v, hv, hadv.of_step hstep⟩

/-- The core gets past every number of instructions, unless it halts or latches a fault. -/
theorem Reachable.reaches (h0 : startRefusal c p = none) (n : Nat) :
    ∃ s, Reachable c p s ∧ (n ≤ s.refCount ∨ s.fault ≠ none ∨ s.halted = true) := by
  induction n with
  | zero => exact ⟨_, .reset, .inl (Nat.zero_le _)⟩
  | succ n ih =>
    obtain ⟨s, hs, hcase⟩ := ih
    by_cases hstop : s.fault ≠ none ∨ s.halted = true
    · exact ⟨s, hs, .inr hstop⟩
    · obtain ⟨hf, hh⟩ := not_or.1 hstop
      have hn : n ≤ s.refCount := hcase.resolve_right hstop
      obtain ⟨t, ht, hlt | hft⟩ := hs.advances h0 (not_not.1 hf) hh
      · exact ⟨t, ht, .inl (by omega)⟩
      · exact ⟨t, ht, .inr (.inl hft)⟩

/-- Where the reference ends the core halts: past the end it has nothing in flight, and a fault it latched
would be one of the reference. -/
theorem Reachable.reaches_end (h0 : startRefusal c p = none) (hgate : c.loadGate = .olderStores)
    (ht : refRun n (State.resetWith c p) = .next t) (he : t.refEnded = true) :
    ∃ s, Reachable c p s ∧ s.halted = true := by
  obtain ⟨s, hs, hcase⟩ := reaches h0 n
  obtain ⟨hd, u, hu⟩ := hs.follows hgate
  refine ⟨s, hs, ?_⟩
  rcases hcase with hn | hf | hh
  · cases (refRun_eq_of_ended ht he hn).symm.trans hu.run
    exact hu.halted hd he
  · obtain ⟨f, hf⟩ := Option.ne_none_iff_exists'.1 hf
    have hrun : refRun (n + (s.refCount + 1)) (State.resetWith c p) = .next t :=
      refRun_eq_of_ended ht he (Nat.le_add_right ..)
    have hle := refRun_le_of_fault hu.run (hu.fault f hf) hrun
    omega
  · exact hh

/-- Where the reference faults the core latches a fault: it cannot get past the instruction, nor end
before it. -/
theorem Reachable.reaches_fault (h0 : startRefusal c p = none) (hgate : c.loadGate = .olderStores)
    (ht : refRun n (State.resetWith c p) = .next t) (hf : refStep t = .fault f) :
    ∃ s, Reachable c p s ∧ s.fault ≠ none := by
  obtain ⟨s, hs, hcase⟩ := reaches h0 (n + 1)
  obtain ⟨-, u, hu⟩ := hs.follows hgate
  have hle : s.refCount ≤ n := refRun_le_of_fault ht hf hu.run
  refine ⟨s, hs, ?_⟩
  rcases hcase with hn | hfault | hh
  · omega
  · exact hfault
  · have he := hu.refEnded hh
    cases (refRun_eq_of_ended hu.run he hle).symm.trans ht
    cases hf.symm.trans (refStep_of_ended he)

/-- Settles O60: the core reaches the end or the fault, and stands there where the reference does, which
ends or faults in one place only. -/
theorem coreEndsAsTheReferenceEnds : Obligations.CoreEndsAsTheReferenceEnds := by
  intro c p n t h0 hgate ht
  constructor
  · intro he
    obtain ⟨s, hs, hh⟩ := Reachable.reaches_end h0 hgate ht he
    obtain ⟨-, u, hu⟩ := hs.follows hgate
    obtain rfl := refRun_ended_unique hu.run (hu.refEnded hh) ht he
    exact ⟨s, hs, hh, hu.tracks.arf.symm, hu.tracks.mem.symm,
      (archPc_of_halted hh).symm.trans hu.tracks.pc.symm⟩
  · intro f hf
    obtain ⟨s, hs, hfault⟩ := Reachable.reaches_fault h0 hgate ht hf
    obtain ⟨g, hg⟩ := Option.ne_none_iff_exists'.1 hfault
    obtain ⟨-, u, hu⟩ := hs.follows hgate
    have hcount : s.refCount = n := Nat.le_antisymm (refRun_le_of_fault ht hf hu.run)
      (refRun_le_of_fault hu.run (hu.fault g hg) ht)
    cases ht.symm.trans (hcount ▸ hu.run)
    cases hf.symm.trans (hu.fault g hg)
    exact ⟨s, hs, hg, hu.tracks.arf.symm, hu.tracks.mem.symm⟩

end Sys2Proof.Machine
end

section
/-! The Issue stage (spec/51_issue_rename.md): a stop test ends it (R201, R202), and an attempt takes the free
station of the lowest index (R203). -/

namespace Sys2Proof.Machine

variable {s : State}

/-- The Issue stage ends where there is nothing to issue next (R216). -/
theorem issueStage_of_nextIssue_none (n : Nat) (h : s.nextIssue = none) : issueStage n s = .next s := by
  cases n with
  | zero => rfl
  | succ n => simp only [issueStage, h]

/-- Where a stop test of R201 or R202 holds, there is nothing to issue next. -/
theorem nextIssue_none_of_stop_tests
    (h : s.cfg.robSize ≤ s.rob.length ∨ s.program.lookup s.pc = none ∨
      ∃ r, s.program.lookup s.pc = some r ∧
        ∀ st ∈ (if r.op = .lw ∨ r.op = .sw then s.ls else s.alu), st.busy = true) :
    s.nextIssue = none := by
  refine nextIssue_none.2 (h.imp_right (Or.imp_right ?_))
  rintro ⟨r, hl, hb⟩
  exact ⟨r, hl, by rwa [Record.instr_op, State.pool_of_op]⟩

/-- Settles O20: where a stop test holds there is nothing to issue next, and the stage ends (R216). -/
theorem blockedIssueChangesNothing : Obligations.BlockedIssueChangesNothing :=
  fun _ n h => issueStage_of_nextIssue_none n (nextIssue_none_of_stop_tests h)

/-- Settles O21: an attempt finds its station from the bottom of the pool (R203), and finds any station that
is free and has no free one below it; the attempts left follow (R215). -/
theorem lowestFreeStationIsTaken : Obligations.LowestFreeStationIsTaken := by
  constructor
  · intro s i k l hn hl
    obtain ⟨-, -, hfree, hbusy⟩ := nextIssue_some hn
    have hpool : l = s.pool i.op.pool := by
      rw [hl]
      cases i <;> rfl
    rw [hpool]
    exact ⟨hfree, hbusy⟩
  · intro s r k l hrob hlookup hl hfree hbusy
    have hpool : l = s.pool r.instr.op.pool := by rw [hl, Record.instr_op, State.pool_of_op]
    rw [hpool] at hfree hbusy
    have hn : s.nextIssue = some (r.instr, k) := nextIssue_eq_some hrob hlookup hfree hbusy
    exact ⟨hn, issueStage_succ hn⟩

end Sys2Proof.Machine
end

section
/-! The Execute stage (spec/52_execute_cdb.md): the order of the visits (R230, R231) and the parts of one:
capture, countdown, completion and broadcast. -/

namespace Sys2Proof.Machine

variable {s : State}

/-! ### Capture and countdown -/

/-- A slot that waits for a ready entry takes its result (R232). -/
theorem captureLive_of_ready {rob : List RobEntry} {q : Option Nat} {t : Nat} {e : RobEntry} (v : Word)
    (hq : q = some t) (he : robFind rob t = some e) (hr : e.ready = true) :
    captureLive rob (v, q) = (e.result, none) := by
  simp only [captureLive, hq, he, hr, if_true]

/-- A slot that waits for no ready entry keeps its value and tag (R232). -/
theorem captureLive_of_not_ready {rob : List RobEntry} {q : Option Nat} (v : Word)
    (h : ∀ t e, q = some t → robFind rob t = some e → e.ready = false) :
    captureLive rob (v, q) = (v, q) := by
  refine (captureLive_cases rob v q).resolve_right ?_
  rintro ⟨t, e, hq, he, hr, -⟩
  cases hr.symm.trans (h t e hq he)

/-- Settles O23: `captureLive` takes the result for either slot, and leaves the slot otherwise. -/
theorem captureTakesReadyResults : Obligations.CaptureTakesReadyResults := by
  intro rob st
  refine ⟨_, _, _, _, rfl, fun t e hq he hr => ?_, fun h => ?_, fun t e hq he hr => ?_, fun h => ?_⟩
  · exact Prod.mk.inj (captureLive_of_ready st.vj hq he hr)
  · exact Prod.mk.inj (captureLive_of_not_ready st.vj h)
  · exact Prod.mk.inj (captureLive_of_ready st.vk hq he hr)
  · exact Prod.mk.inj (captureLive_of_not_ready st.vk h)

/-- Settles O24: a count is one branch of `Station.countdown`, and the loads and stores are `LW` and `SW`. -/
theorem countdownComputesTheAddress : Obligations.CountdownComputesTheAddress := by
  intro st
  constructor
  · intro h
    exact if_neg (by omega)
  · intro h
    simp only [Station.countdown, if_pos h, Op.isMem_iff, effectiveAddress]

/-! ### The visits -/

theorem scanOrder_getElem?_alu {j : Nat} (hj : j < s.alu.length) : (scanOrder s)[j]? = some (.alu, j) := by
  rw [scanOrder, List.getElem?_append_left (by simpa using hj)]
  simp [hj]

theorem scanOrder_getElem?_ls {j : Nat} (hj : j < s.ls.length) :
    (scanOrder s)[s.alu.length + j]? = some (.ls, j) := by
  rw [scanOrder, List.getElem?_append_right (by simp)]
  simp [hj]

theorem scanOrder_length (s : State) : (scanOrder s).length = s.alu.length + s.ls.length := by
  simp [scanOrder]

/-- A visit takes one cycle off the count (R233). -/
theorem Station.rem_of_visit (st : Station) (rob : List RobEntry) :
    (st.captureFrom rob).countdown.rem = st.rem - 1 := by
  rw [Station.countdown_rem, Station.captureFrom_rem]

/-- A visit that counts the last cycle, or finds none left, runs the completion (R235). -/
theorem visit_of_last_cycle {p : PoolId} {k : Nat} {st : Station} (hs : s.station? p k = some st)
    (hb : st.busy = true) (hw : (st.captureFrom s.rob).wakeable = true) (hr : st.rem ≤ 1) :
    visit p k s = exec st.instr.instr
      ((s.setStation p k (st.captureFrom s.rob).countdown).atStage (.execute p k)) := by
  obtain ⟨t, he, hc⟩ := exec_execute st.instr.instr
    ((s.setStation p k (st.captureFrom s.rob).countdown).atStage (.execute p k)) p k
    (st.captureFrom s.rob).countdown rfl (State.station?_setStation_self s p k _ st hs)
  have hrem : (st.captureFrom s.rob).countdown.rem = 0 := by rw [Station.rem_of_visit]; omega
  rw [he]
  exact (Visited.complete st t hs hb hw hrem hc).visit_eq

/-- Settles O22: the four cases are those of a visit (R230, R233, R235), and the stage scans both pools from
station 0 (R231). -/
theorem visitCapturesCountsAndCompletes : Obligations.VisitCapturesCountsAndCompletes := by
  constructor
  · intro s p k st hs
    refine ⟨fun hb => ?_, fun hb hw => ?_, fun hb hw hr => ?_, visit_of_last_cycle hs⟩
    · exact (Visited.skip fun st' hs' => by cases hs.symm.trans hs'; exact hb).visit_eq
    · exact (Visited.wait st hs hb hw).visit_eq
    · have hrem : (st.captureFrom s.rob).countdown.rem ≠ 0 := by rw [Station.rem_of_visit]; omega
      exact (Visited.count st hs hb hw hrem).visit_eq
  · intro s
    obtain ⟨f, h0, hv, hstage⟩ := scan_visits (scanOrder s) s
    refine ⟨f, h0, fun j hj => ?_, fun j hj => ?_, ?_⟩
    · exact hv _ _ _ (scanOrder_getElem?_alu hj)
    · exact hv _ _ _ (scanOrder_getElem?_ls hj)
    · rwa [scanOrder_length] at hstage

/-! ### Broadcast and completion -/

/-- A broadcast reaches the entry of its tag and no other (R241). -/
theorem robFind_broadcast (s : State) (t t' : Nat) (v : Word) : robFind (s.broadcast t v).rob t' =
    if t' = t then (robFind s.rob t').map (fun e => { e with result := v, ready := true })
    else robFind s.rob t' :=
  robFind_robUpdate t t' _ (by intro e; rfl) s.rob

theorem State.broadcast_station? (s : State) (t : Nat) (v : Word) (p : PoolId) (k : Nat) :
    (s.broadcast t v).station? p k = s.station? p k := by
  cases p <;> rfl

/-- Settles O25: the update of the tag's entry, and the station replaced by a free one (R241). -/
theorem broadcastFillsTheEntry : Obligations.BroadcastFillsTheEntry := by
  intro s t v p k st hs
  refine ⟨_, rfl, ?_, fun t' ht => ?_, ?_, fun p' k' hne => ?_⟩
  · rw [State.freeStationAt_rob, robFind_broadcast, if_pos rfl]
  · rw [State.freeStationAt_rob, robFind_broadcast, if_neg ht]
  · exact State.station?_setStation_self _ p k _ st (by rwa [State.broadcast_station?])
  · rw [State.freeStationAt, station?_setStation_ne _ _ _ _ _ _ hne, State.broadcast_station?]

/-- Settles O27: a store's completion with a known address (R239) is the LSQ update, the broadcast and the
free station, none of which touches memory or the L1D. -/
theorem storeExecutesIntoTheQueue : Obligations.StoreExecutesIntoTheQueue := by
  intro rs1 rs2 imm s p k st ea hstage hst hea
  have hc := Completed.store (i := .sw rs1 rs2 imm) (p := p) (k := k) (s := s) rfl ea hea
  refine ⟨_, hc.exec_eq hstage hst, by simp, by simp, by simp, by simp, ?_⟩
  rw [State.freeStationAt, State.setStation_pool_self]
  cases p <;> rfl

end Sys2Proof.Machine
end

section
/-! The Commit stage by head (spec/53_commit_flush.md): the states its instructions answer (R263 to R268), the
stall (R261), and the two aborts, by a bad address (R262) and by a flush (R272 to R274). -/

namespace Sys2Proof.Machine

variable {s t : State} {h : RobEntry} {tl : List RobEntry} {i : Instr}

/-! ### The head that retires -/

theorem State.commitReg_retire (s : State) (rd : Reg) (h : RobEntry) :
    (s.commitReg rd h).retire h = s.afterCommit rd h := by
  by_cases h0 : rd = 0
  · subst h0
    rw [State.commitReg_zero, State.retire_eq_afterCommit]
  · simp [State.commitReg, State.retire, State.wake, State.afterCommit, ratRevert, h0]

theorem exec_commit_writing (hs : s.stage = .commit) (hr : s.rob = h :: tl) (hw : i.op.writesReg = true)
    (hm : i.op.isMem = false) : exec i s = .next (s.afterCommit i.rd h) := by
  rw [exec_commit_of i i.rd s hs fun _ => rfl, commitOf_writing hw hm]
  simp only [State.commitWriting, hr, State.commitReg_retire]

/-- The memory check passes at the resolved LSQ head of the same tag (R261). -/
theorem memoryHead_of_head {q : LsqEntry} {ql : List LsqEntry} {a : Word} (hl : s.lsq = q :: ql)
    (ht : q.tag = h.tag) (hq : q.memReady = true) (ha : q.addr = some a) :
    memoryHead h s.lsq = some (q, a) :=
  memoryHead_eq_some.2 ⟨by rw [hl]; rfl, ht, hq, ha⟩

/-- The commit of a load or store takes the LSQ head with it (R266). -/
theorem State.commitReg_popLsq_retire {q : LsqEntry} {ql : List LsqEntry} (hl : s.lsq = q :: ql) (rd : Reg)
    (h : RobEntry) : (s.commitReg rd h).popLsq.retire h = { s.afterCommit rd h with lsq := ql } := by
  have htail : (s.commitReg rd h).lsq.tail = ql := by rw [State.commitReg_lsq, hl, List.tail_cons]
  rw [← State.commitReg_retire, State.popLsq, htail]
  rfl

/-- Settles O29: the seven computing variants share one commit (R264), and that of a load whose checks pass
pops the LSQ head besides (R266). -/
theorem commitWritesTheRegister : Obligations.CommitWritesTheRegister := by
  intro rd rs1 rs2 imm s h tl hs hr
  constructor
  · intro i hi
    have hshape : i.rd = rd ∧ i.op.writesReg = true ∧ i.op.isMem = false := by
      simp only [List.mem_cons, List.not_mem_nil, or_false] at hi
      rcases hi with rfl | rfl | rfl | rfl | rfl | rfl | rfl <;> exact ⟨rfl, rfl, rfl⟩
    obtain ⟨hrd, hw, hm⟩ := hshape
    rw [exec_commit_writing hs hr hw hm, hrd]
  · intro q ql a hl ht hq ha h4 hlt
    have hhead := memoryHead_of_head hl ht hq ha
    have hgood : addressFault s.cfg h.pc a = none := addressFault_none.2 ⟨h4, hlt⟩
    rw [exec_commit_of (.lw rd rs1 imm) rd s hs fun _ => rfl]
    simp only [Instr.op, commitOf, State.commitLoad, hr, hhead, hgood, State.commitReg_popLsq_retire hl]

/-- Settles O30: the store's commit writes the word that an aligned address names (R265), and pops both
heads (R266, R268). -/
theorem commitStoresTheWord : Obligations.CommitStoresTheWord := by
  intro rs1 rs2 imm s h tl q ql a v hs hr hl ht hq ha hv hwf h4 hlt
  have hhead := memoryHead_of_head hl ht hq ha
  have hgood : addressFault s.cfg h.pc a = none := addressFault_none.2 ⟨h4, hlt⟩
  refine ⟨setMemWord (a.toNat / 4) v s.mem, ?_, setMemWord_wf _ _ _ hwf,
    memWord_setMemWord_self _ _ _ hwf, fun x hx => readByte_setMemWord_ne _ _ _ _ (by omega)⟩
  rw [exec_commit_of (.sw rs1 rs2 imm) 0 s hs fun _ => rfl]
  have hpop := State.commitReg_popLsq_retire (s := (s.accessL1D a true).memWrite a v) hl 0 h
  rw [State.commitReg_zero] at hpop
  simp only [Instr.op, commitOf, State.commitStore, hr, hhead, hgood, hv, hpop]
  rfl

/-- A right prediction trains the predictor, is counted, and retires (R263). -/
theorem commitBranch_of_predicted (hr : s.rob = h :: tl) (hp : h.pred = decide (h.result = 1)) :
    s.commitBranch = (s.trainBranch h h.pred).retire h := by
  have hactual : (h.result == 1) = h.pred := hp.symm
  simp only [State.commitBranch, hr, hactual, if_true]

/-- Settles O35: both branches commit by `State.commitBranch`, which retires a rightly predicted one. -/
theorem correctBranchRetires : Obligations.CorrectBranchRetires := by
  intro rs1 rs2 imm s h tl hs hr hp i hi
  have hop : i.op.isCondBranch = true ∧ i.op.writesReg = false := by
    rcases List.mem_pair.1 hi with rfl | rfl <;> exact ⟨rfl, rfl⟩
  rw [exec_commit_of i 0 s hs (by simp [hop.2]), commitOf_condBranch hop.1,
    commitBranch_of_predicted hr hp, State.retire_eq_afterCommit]
  simp [State.afterCommit, State.trainBranch]

/-! ### The stall -/

theorem memoryHead_none {lsq : List LsqEntry}
    (hl : lsq = [] ∨ ∃ q ql, lsq = q :: ql ∧ (q.tag ≠ h.tag ∨ q.memReady = false)) :
    memoryHead h lsq = none := by
  rcases hl with rfl | ⟨q, ql, rfl, hq⟩
  · rfl
  · refine if_neg fun hc => ?_
    rcases hq with ht | hm
    · exact ht hc.1
    · rw [hc.2] at hm; cases hm

theorem commitOf_of_memoryHead_none (hr : s.rob = h :: tl) (ho : h.op = .lw ∨ h.op = .sw)
    (hm : memoryHead h s.lsq = none) : commitOf h.op h.rd s = s := by
  rcases ho with ho | ho
  · simp only [ho, commitOf, State.commitLoad, hr, hm]
  · simp only [ho, commitOf, State.commitStore, hr, hm]

/-- Settles O31: the memory check fails (R261), and a head whose commit changes nothing ends the stage. -/
theorem memoryCommitStalls : Obligations.MemoryCommitStalls := fun s _ _ n hf hr hd ho hl =>
  commitStage_of_stall n hf hr hd
    (commitOf_of_memoryHead_none (s := s.atStage .commit) hr ho (memoryHead_none hl))

/-! ### The aborts -/

theorem State.Admitted.commitWidth_pos (ha : s.Admitted) : 0 < s.cfg.commitWidth := by
  obtain ⟨-, -, -, -, hpos, -⟩ := Config.wf_parts ((startRefusal_none _ _).1 ha).1
  exact hpos

/-- An aborting head is all there is of the cycle: no Execute and no Issue follow (R180, R274). -/
theorem Aborts.step_eq (hab : Aborts h (s.beginCycle.atStage .commit) t) (ha : s.Admitted)
    (hf : s.fault = none) (hr : s.rob = h :: tl) (hd : h.ready = true) : step s = .next t.endCycle := by
  refine step_of_abort ha hf ?_
  rw [← Nat.sub_add_cancel ha.commitWidth_pos]
  exact hab.commitStage_eq _ hf hr hd

/-- The fault of a bad address, misalignment first (R262). -/
theorem addressFault_of_bad {c : Config} {a : Word} (pc : Word)
    (h : a.toNat % 4 ≠ 0 ∨ c.memWords ≤ a.toNat / 4) : addressFault c pc a =
      some (if a.toNat % 4 ≠ 0 then .memMisaligned pc a else .memOutOfRange pc a) := by
  split
  · rename_i h4
    exact addressFault_misaligned h4
  · rename_i h4
    exact addressFault_outOfRange (not_not.1 h4) (h.resolve_left h4)

/-- Settles O32: the cycle is the abort by the fault, and a faulted machine stays (R187). -/
theorem badAddressLatchesTheFault : Obligations.BadAddressLatchesTheFault := by
  intro s h tl q ql a ha hf hs hr hd ho hl ht hq haddr hbad
  have hab : Aborts h (s.beginCycle.atStage .commit) _ :=
    .fault (s := s.beginCycle.atStage .commit) ((Op.isMem_iff h.op).2 ho) q a
      (memoryHead_of_head hl ht hq haddr) _ (addressFault_of_bad h.pc hbad)
  refine ⟨_, _, _, rfl, rfl, rfl, ?_, step_of_faulted ha (Option.some_ne_none _)⟩
  rw [hab.step_eq ha hf hr hd]
  cases s
  cases hs
  rfl

/-- A flush leaves no station busy (R272). -/
theorem State.flush_idle (s : State) (target : Word) :
    ∀ st ∈ (s.flush target).stations, st.busy = false := by
  intro st hst
  rw [State.stations, State.flush_alu, State.flush_ls, ← List.map_append] at hst
  obtain ⟨st', -, rfl⟩ := List.mem_map.1 hst
  rfl

/-- Settles O34: the cycle is the abort by the flush (R272), which comes after the training of the predictor
(R263). -/
theorem mispredictFlushes : Obligations.MispredictFlushes := by
  intro s h tl ha hf hr hd ho hp
  have hab : Aborts h (s.beginCycle.atStage .commit) _ :=
    .flush ((Op.isCondBranch_iff h.op).2 ho) hp.symm
  generalize decide (h.result = 1) = actual at hab hp ⊢
  refine ⟨_, hab.step_eq ha hf hr hd, rfl, rfl, State.flush_idle _ h.target, ?_⟩
  simp [hp.symm, hf]

/-! ### The predictor -/

theorem Issued.bp {n : Nat} (c : Issued n s t) : t.bp = s.bp := by
  obtain ⟨-, -, -, -, hbp, -⟩ := c.frame
  exact hbp

/-- Settles O40: of the commits only that of a conditional branch trains the predictor (R263), whether it
retires or flushes. -/
theorem onlyBranchesTrainThePredictor : Obligations.OnlyBranchesTrainThePredictor := by
  intro s t hstep hq
  have hnone : ∀ e ∈ s.rob.take (t.counters.committed - s.counters.committed +
      (t.counters.flushes - s.counters.flushes)), ¬ e.op.isCondBranch = true := fun e he hb =>
    ((Op.isCondBranch_iff e.op).1 hb).elim (hq e he).1 (hq e he).2
  refine step_unchanged State.bp (fun e => e.op.isCondBranch = true) (fun e => e.op.isCondBranch = true)
    (fun _ _ => rfl) (fun _ => rfl) (fun _ => rfl) (fun _ _ hx => hx.bp) (fun _ _ _ hi => hi.bp) ?_ ?_ hstep
    (fun e he => hnone e (List.take_subset_take_left _ (Nat.le_add_right _ _) he)) hnone
  · intro h u v hab
    cases hab with
    | fault => exact .inl rfl
    | flush hb => exact .inr ⟨rfl, hb⟩
  · intro h u v hr
    cases hr with
    | branch hb => exact .inr hb
    | writing | load | store | plain => exact .inl (by simp)

end Sys2Proof.Machine
end

section
/-! The predictor, a cache access, what reset loads, and what a cycle counts (spec/55_branch_predictor.md,
spec/56_caches.md, spec/10_state.md R44, spec/60_exceptions.md R332). -/

namespace Sys2Proof.Machine

variable {s t : State}

/-! ### The predictor -/

theorem bumpCounter_toNat (taken : Bool) (c : BitVec 2) : (bumpCounter taken c).toNat =
    if taken then min 3 (c.toNat + 1) else c.toNat - 1 := by
  revert taken c
  decide

theorem Predictor.counter_update_self {p : Predictor} (h : p.Ok) (pc : Word) (taken : Bool) :
    (p.update pc taken).counter (p.index pc) = bumpCounter taken (p.counter (p.index pc)) :=
  sparseGet_set_self _ _ _ _ h.1

theorem Predictor.counter_update_ne (p : Predictor) {pc : Word} (taken : Bool) {j : BitVec 10}
    (h : j ≠ p.index pc) : (p.update pc taken).counter j = p.counter j :=
  sparseGet_set_ne _ _ _ _ _ fun hj => h (BitVec.eq_of_toNat_eq hj)

/-- The bit shifted in falls on one that the shift has cleared, so that the disjunction is a sum. -/
theorem Predictor.ghr_update_toNat (p : Predictor) (pc : Word) (taken : Bool) :
    (p.update pc taken).ghr.toNat = (2 * p.ghr.toNat + if taken then 1 else 0) % 1024 := by
  have hdisj : (p.ghr <<< 1) &&& (if taken then 1 else 0) = 0 := by
    cases taken
    · exact BitVec.and_zero
    · ext i hi
      cases i <;> simp [BitVec.getElem_one]
  rw [Predictor.update, ← BitVec.add_eq_or_of_and_eq_zero _ _ hdisj]
  cases taken <;> simp <;> omega

/-- Settles O41: the index is that of the history before the shift (R291), the counter there takes its bump
and no other key of the table is set (R293). -/
theorem predictorUpdateMovesOneCounter : Obligations.PredictorUpdateMovesOneCounter := by
  rintro p pc taken _ j hp rfl
  refine ⟨decide_eq_true_iff, ?_, p.counter_update_ne taken, p.ghr_update_toNat pc taken⟩
  rw [← bumpCounter_toNat]
  exact congrArg BitVec.toNat (p.counter_update_self hp pc taken)

/-! ### A cache access -/

theorem Way.holds_iff (tag : BitVec 21) (w : Way) : w.holds tag = true ↔ w.valid = true ∧ w.tag = tag := by
  simp [Way.holds]

/-- A hit gives the way a new rank and, by a write, dirtiness; it holds the tag already (R304). -/
theorem Way.touch_of_holds {tag : BitVec 21} {w : Way} (h : w.valid = true ∧ w.tag = tag) (rank : Nat)
    (isWrite : Bool) : w.touch rank isWrite = ⟨true, tag, rank, w.dirty || isWrite⟩ := by
  rw [Way.touch, h.1, h.2]

theorem CacheSet.hit_way0 {tag : BitVec 21} {cs : CacheSet} (h : cs.way0.valid = true ∧ cs.way0.tag = tag)
    (rank : Nat) (isWrite : Bool) : cs.hit tag rank isWrite =
      some { cs with way0 := ⟨true, tag, rank, cs.way0.dirty || isWrite⟩ } := by
  rw [CacheSet.hit, if_pos ((Way.holds_iff _ _).2 h), Way.touch_of_holds h]

theorem CacheSet.hit_way1 {tag : BitVec 21} {cs : CacheSet}
    (h0 : ¬ (cs.way0.valid = true ∧ cs.way0.tag = tag)) (h : cs.way1.valid = true ∧ cs.way1.tag = tag)
    (rank : Nat) (isWrite : Bool) : cs.hit tag rank isWrite =
      some { cs with way1 := ⟨true, tag, rank, cs.way1.dirty || isWrite⟩ } := by
  rw [CacheSet.hit, if_neg (mt (Way.holds_iff _ _).1 h0), if_pos ((Way.holds_iff _ _).2 h),
    Way.touch_of_holds h]

theorem CacheSet.hit_none {tag : BitVec 21} {cs : CacheSet}
    (h0 : ¬ (cs.way0.valid = true ∧ cs.way0.tag = tag)) (h1 : ¬ (cs.way1.valid = true ∧ cs.way1.tag = tag))
    (rank : Nat) (isWrite : Bool) : cs.hit tag rank isWrite = none := by
  rw [CacheSet.hit, if_neg (mt (Way.holds_iff _ _).1 h0), if_neg (mt (Way.holds_iff _ _).1 h1)]

theorem cacheIndex_eq_iff {a : Word} {x : Fin 32} : x = cacheIndex a ↔ x.val = (a.extractLsb' 6 5).toNat :=
  Fin.ext_iff

theorem sets_set_self (v : Vector CacheSet 32) (x : Fin 32) (cs : CacheSet) : (v.set x cs)[x] = cs :=
  Vector.getElem_set_self ..

theorem sets_set_ne (v : Vector CacheSet 32) {x i : Fin 32} (cs : CacheSet) (h : i ≠ x) :
    (v.set x cs)[i] = v[i] :=
  Vector.getElem_set_ne _ _ fun hv => h (Fin.ext hv.symm)

/-- Settles O42, by what the set holds: the tag in way 0, else in way 1, else in neither (R303). -/
theorem cacheAccessHitsOrFills : Obligations.CacheAccessHitsOrFills := by
  rintro c hitLat penalty a isWrite c' hit n x _ hacc hx rfl
  obtain rfl := cacheIndex_eq_iff.2 hx
  by_cases h0 : (c.sets[cacheIndex a]).way0.valid = true ∧ (c.sets[cacheIndex a]).way0.tag = cacheTag a
  · rw [Cache.access_hit (CacheSet.hit_way0 h0 _ _)] at hacc
    cases hacc
    exact ⟨rfl, rfl, fun i => sets_set_ne _ _, iff_of_true rfl (.inl h0), fun _ => ⟨rfl, rfl, rfl⟩,
      nofun, fun _ => sets_set_self _ _ _, fun hn => absurd h0 hn⟩
  by_cases h1 : (c.sets[cacheIndex a]).way1.valid = true ∧ (c.sets[cacheIndex a]).way1.tag = cacheTag a
  · rw [Cache.access_hit (CacheSet.hit_way1 h0 h1 _ _)] at hacc
    cases hacc
    exact ⟨rfl, rfl, fun i => sets_set_ne _ _, iff_of_true rfl (.inr h1), fun _ => ⟨rfl, rfl, rfl⟩,
      nofun, fun hh => absurd hh h0, fun _ _ => sets_set_self _ _ _⟩
  · rw [Cache.access_miss (CacheSet.hit_none h0 h1 _ _)] at hacc
    cases hacc
    exact ⟨rfl, rfl, fun i => sets_set_ne _ _, iff_of_false nofun (not_or.2 ⟨h0, h1⟩), nofun,
      fun _ => ⟨rfl, rfl, rfl, sets_set_self _ _ _⟩, fun hh => absurd hh h0, fun _ hh => absurd hh h1⟩

/-! ### Reset and the sample -/

theorem Cache.reset_sets (i : Fin 32) :
    Cache.reset.sets[i] = ⟨⟨false, 0, 0, false⟩, ⟨false, 0, 0, false⟩⟩ :=
  Vector.getElem_replicate ..

/-- Settles O45: each piece is the one R44's table gives. -/
theorem resetLoadsTheTable : Obligations.ResetLoadsTheTable := by
  rintro c p _ rfl
  have hcache : ∀ x ∈ [Cache.reset, Cache.reset],
      (∀ i : Fin 32, x.sets[i] = ⟨⟨false, 0, 0, false⟩, ⟨false, 0, 0, false⟩⟩) ∧
        x.lruCounter = 0 ∧ x.accesses = 0 ∧ x.hits = 0 ∧ x.misses = 0 := by
    intro x hx
    obtain rfl : x = Cache.reset := by simpa using hx
    exact ⟨Cache.reset_sets, rfl, rfl, rfl, rfl⟩
  exact ⟨fun i => Vector.getElem_replicate .., fun i => Vector.getElem_replicate .., rfl, rfl, rfl, rfl,
    List.length_replicate, List.length_replicate, resetWith_idle c p, hcache, rfl, fun i => rfl, rfl, rfl, rfl⟩

/-- A cycle ends in the sample of a state that has counted the cycle and sampled nothing yet (R180, R332). -/
theorem Cycled.ends_in_sample (h : Cycled s t) : ∃ u : State, t = u.endCycle ∧
    u.counters.cycle = s.counters.cycle + 1 ∧ u.counters.occRob = s.counters.occRob ∧
    u.counters.occAlu = s.counters.occAlu ∧ u.counters.occLs = s.counters.occLs ∧
    u.counters.occLsq = s.counters.occLsq := by
  cases h with
  | aborted u hc =>
    obtain ⟨-, -, -, -, hcycle, hrob, halu, hls, hlsq, -⟩ := hc.frame
    exact ⟨u, rfl, hcycle, hrob, halu, hls, hlsq⟩
  | full u v w hc he hi =>
    obtain ⟨-, -, -, -, hcycle, hrob, halu, hls, hlsq, -⟩ := hc.frame
    refine ⟨w, rfl, ?_⟩
    rw [hi.counters, he.frame.counters]
    exact ⟨hcycle, hrob, halu, hls, hlsq⟩

/-- Settles O51: the sample at the end of the cycle is of the state the step answers (R332). -/
theorem everyCycleIsSampled : Obligations.EveryCycleIsSampled := by
  intro s t _ hf hstep
  obtain ⟨u, rfl, hcycle, hrob, halu, hls, hlsq⟩ := (step_cycled hf hstep).ends_in_sample
  rw [← hrob, ← halu, ← hls, ← hlsq]
  exact ⟨hcycle, rfl, rfl, rfl, rfl⟩

end Sys2Proof.Machine
end

section
/-! The caches hold bookkeeping only (spec/56_caches.md R300, R306): each part of a step does on a state with
other caches what it does on the state. Commit and Execute access the L1D, Issue the L1I. -/

namespace Sys2Proof.Machine

variable {s t : State}

/-- The state with other caches. -/
def State.withCaches (c d : Cache) (s : State) : State := { s with l1i := c, l1d := d }

theorem State.withCaches_station? (s : State) (c d : Cache) (p : PoolId) (k : Nat) :
    (s.withCaches c d).station? p k = s.station? p k := by cases p <;> rfl

theorem State.withCaches_setStation (s : State) (c d : Cache) (p : PoolId) (k : Nat) (st : Station) :
    (s.withCaches c d).setStation p k st = (s.setStation p k st).withCaches c d := by
  cases p <;> rfl

theorem State.withCaches_freeStationAt (s : State) (c d : Cache) (p : PoolId) (k : Nat) (st : Station) :
    (s.withCaches c d).freeStationAt p k st = (s.freeStationAt p k st).withCaches c d :=
  s.withCaches_setStation c d p k _

theorem State.withCaches_commitReg (s : State) (c d : Cache) (rd : Reg) (h : RobEntry) :
    (s.withCaches c d).commitReg rd h = (s.commitReg rd h).withCaches c d := by
  unfold State.commitReg
  split <;> rfl

theorem State.withCaches_nextIssue (s : State) (c d : Cache) :
    (s.withCaches c d).nextIssue = s.nextIssue := by
  have hp : ∀ p, (s.withCaches c d).pool p = s.pool p := fun p => by cases p <;> rfl
  simp only [State.nextIssue, hp]
  rfl

/-! ### Commit -/

/-- The commit of a head reads no cache, and only that of a store accesses one. -/
theorem commitOf_withCaches (s : State) {h : RobEntry} {tl : List RobEntry} (hr : s.rob = h :: tl)
    (c d : Cache) : ∃ d', commitOf h.op h.rd (s.withCaches c d) = (commitOf h.op h.rd s).withCaches c d' := by
  have hr' : (s.withCaches c d).rob = h :: tl := hr
  have hlsq : (s.withCaches c d).lsq = s.lsq := rfl
  have hcfg : (s.withCaches c d).cfg = s.cfg := rfl
  cases h.op with
  | lw =>
    refine ⟨d, ?_⟩
    simp only [commitOf, State.commitLoad, hr, hr', hlsq, hcfg, State.withCaches_commitReg]
    repeat' split
    all_goals rfl
  | sw =>
    simp only [commitOf, State.commitStore, hr, hr', hlsq, hcfg]
    repeat' split
    all_goals exact ⟨_, rfl⟩
  | beq | bne =>
    refine ⟨d, ?_⟩
    simp only [commitOf, State.commitBranch, hr, hr']
    split <;> rfl
  | jal | jalr | nop => exact ⟨d, by simp only [commitOf, State.commitPlain, hr, hr']; rfl⟩
  | _ =>
    exact ⟨d, by simp only [commitOf, State.commitWriting, hr, hr', State.withCaches_commitReg]; rfl⟩

/-- One commit attempt at a ready head (R270). -/
theorem commitStage_of_ready {h : RobEntry} {tl : List RobEntry} (n : Nat) (hr : s.rob = h :: tl)
    (hd : h.ready = true) {u : State} (hc : commitOf h.op h.rd (s.atStage .commit) = u) :
    commitStage (n + 1) s =
      if attemptAborted s u then .next (u, true)
      else if attemptRetired s u then commitStage n u else .next (u, false) := by
  simp only [commitStage, hr, hd, if_true, exec_commit h.op h.rd (s.atStage .commit) rfl, hc]

/-- Whether an attempt aborted or retired is read off the fault and the counters, which no cache enters. -/
theorem commitStage_withCaches {n : Nat} {b : Bool} (h : commitStage n s = .next (t, b)) (c d : Cache) :
    ∃ d', commitStage n (s.withCaches c d) = .next (t.withCaches c d', b) := by
  induction n generalizing s d with
  | zero => cases h; exact ⟨d, rfl⟩
  | succ n ih =>
    cases hr : s.rob with
    | nil =>
      have hr' : (s.withCaches c d).rob = [] := hr
      rw [commitStage_of_empty _ hr] at h
      cases h
      exact ⟨d, commitStage_of_empty _ hr'⟩
    | cons e tl =>
      have hr' : (s.withCaches c d).rob = e :: tl := hr
      cases hd : e.ready with
      | false =>
        rw [commitStage_of_not_ready _ hr hd] at h
        cases h
        exact ⟨d, commitStage_of_not_ready _ hr' hd⟩
      | true =>
        obtain ⟨d₁, hc⟩ := commitOf_withCaches (s.atStage .commit) hr c d
        rw [commitStage_of_ready n hr hd rfl] at h
        rw [commitStage_of_ready n hr' hd hc]
        generalize commitOf e.op e.rd (s.atStage .commit) = u at h
        have hab : attemptAborted (s.withCaches c d) (u.withCaches c d₁) = attemptAborted s u := rfl
        have hre : attemptRetired (s.withCaches c d) (u.withCaches c d₁) = attemptRetired s u := rfl
        rw [hab, hre]
        split_ifs at h ⊢
        · cases h
          exact ⟨d₁, rfl⟩
        · exact ih h d₁
        · cases h
          exact ⟨d₁, rfl⟩

/-! ### Execute -/

theorem Completed.withCaches {i : Instr} {p : PoolId} {k : Nat} {st : Station} (h : Completed i p k st s t)
    (c d : Cache) : ∃ d', Completed i p k st (s.withCaches c d) (t.withCaches c d') := by
  cases h with
  | plain hm hb =>
    refine ⟨d, ?_⟩
    rw [← State.withCaches_freeStationAt]
    exact .plain (s := s.withCaches c d) hm hb
  | branch hb =>
    refine ⟨d, ?_⟩
    rw [← State.withCaches_freeStationAt]
    exact .branch (s := s.withCaches c d) hb
  | load ho ea hea hg =>
    refine ⟨((s.withCaches c d).accessL1D ea false).l1d, ?_⟩
    rw [← State.withCaches_freeStationAt]
    exact .load (s := s.withCaches c d) ho ea hea hg
  | store ho ea hea =>
    refine ⟨d, ?_⟩
    rw [← State.withCaches_freeStationAt]
    exact .store (s := s.withCaches c d) ho ea hea
  | stay hm hw => exact ⟨d, .stay hm hw⟩

theorem Visited.withCaches {p : PoolId} {k : Nat} (v : Visited p k s t) (c d : Cache) :
    ∃ d', Visited p k (s.withCaches c d) (t.withCaches c d') := by
  have hs' : ∀ {st}, s.station? p k = some st → (s.withCaches c d).station? p k = some st := fun hs => by
    rw [State.withCaches_station?, hs]
  cases v with
  | skip h => exact ⟨d, .skip fun st hs => h st (by rwa [State.withCaches_station?] at hs)⟩
  | wait st hs hb hw => exact ⟨d, by rw [← State.withCaches_setStation]; exact .wait st (hs' hs) hb hw⟩
  | count st hs hb hw hr =>
    exact ⟨d, by rw [← State.withCaches_setStation]; exact .count st (hs' hs) hb hw hr⟩
  | complete st _ hs hb hw hr hc =>
    obtain ⟨d', hc'⟩ := hc.withCaches c d
    refine ⟨d', .complete st _ (hs' hs) hb hw hr ?_⟩
    rw [State.withCaches_setStation]
    exact hc'

theorem Scanned.withCaches {l : List (PoolId × Nat)} (h : Scanned l s t) (c d : Cache) :
    ∃ d', Scanned l (s.withCaches c d) (t.withCaches c d') := by
  induction h generalizing d with
  | nil => exact ⟨d, .nil _⟩
  | cons p k l s u t hv _ ih =>
    obtain ⟨d₁, hv'⟩ := hv.withCaches c d
    obtain ⟨d', hl'⟩ := ih d₁
    exact ⟨d', .cons p k l _ _ _ hv' hl'⟩

/-! ### Issue and the step -/

theorem State.withCaches_issue (s : State) (c d : Cache) (i : Instr) (k : Nat) (b : Bool) (n : Word) :
    ∃ c', (s.withCaches c d).issue i k b n = (s.issue i k b n).withCaches c' d := by
  refine ⟨((s.withCaches c d).accessL1I s.pc).l1i, ?_⟩
  unfold State.issue
  rw [← State.withCaches_setStation]
  rfl

theorem Issued.withCaches {n : Nat} (h : Issued n s t) (c d : Cache) :
    ∃ c', Issued n (s.withCaches c d) (t.withCaches c' d) := by
  induction h generalizing c with
  | zero => exact ⟨c, .zero _⟩
  | stop n s h => exact ⟨c, .stop n _ (by rw [State.withCaches_nextIssue, h])⟩
  | issue n s t i k h _ ih =>
    obtain ⟨c₁, hi⟩ := (s.atStage (.issue k)).withCaches_issue c d i k (predicted i s)
      (nextFetch i (predicted i s) s.pc)
    obtain ⟨c', ht⟩ := ih c₁
    rw [← hi] at ht
    exact ⟨c', .issue n _ _ i k (by rw [State.withCaches_nextIssue, h]) ht⟩

/-- Settles O43: a faulted state answers itself; else each stage carries over to other caches, and so does
the end of the cycle. -/
theorem cachesNeverChangeTheRest : Obligations.CachesNeverChangeTheRest := by
  intro s t c d hstep
  have ha : s.Admitted := (step_cases hstep).1
  by_cases hf : s.fault = none
  · obtain ⟨u, b, hc, -⟩ := commitStage_total s.cfg.commitWidth s.beginCycle hf
    obtain ⟨d₁, hc'⟩ := commitStage_withCaches hc c d
    cases b with
    | true =>
      rw [step_of_abort ha hf hc] at hstep
      cases hstep
      exact ⟨c, d₁, step_of_abort (s := s.withCaches c d) ha hf hc'⟩
    | false =>
      obtain ⟨v, he, hv⟩ := executeStage_total u
      obtain ⟨w, hi, hw⟩ := issueStage_total v.cfg.width v
      obtain ⟨d', hv'⟩ := hv.withCaches c d₁
      obtain ⟨c', hw'⟩ := hw.withCaches c d'
      rw [step_of_full ha hf hc he hi] at hstep
      cases hstep
      exact ⟨c', d', step_of_full (s := s.withCaches c d) ha hf hc' hv'.scan_eq hw'.issueStage_eq⟩
  · rw [step_of_faulted ha hf] at hstep
    cases hstep
    exact ⟨c, d, step_of_faulted (s := s.withCaches c d) ha hf⟩

end Sys2Proof.Machine
end
